-- ==== Sys2Proof/Word.lean ====
section
/-! DEFINITION. The storage widths of 00_scope.md rule R10 as types, and the extreme values those widths hold
(rules R10, R13, R24). [DEDUCED, notes/assumptions/3.md: the widths are fixed at the values of rule R10.] -/

namespace Sys2Proof

/-- One command word `w`: rule R56. -/
abbrev Word := BitVec 32

/-- `uW_RAW`: a raw reading, an averaged sample, `stats.min`, `stats.max`, `analysis.raw` (rule R10). -/
abbrev Raw := BitVec 16

/-- `sW_DIST`: distance, velocity, acceleration, jerk, read as a two's complement number by `BitVec.toInt` (rules R10, R13). -/
abbrev Dist := BitVec 32

/-- `uW_SUM`: the accumulator's running sum (rule R10). -/
abbrev Sum := BitVec 32

/-- `uW_CNT`: the accumulator's count (rule R10). -/
abbrev Count := BitVec 16

/-- `uW_SAMPLES`: the lifetime counter of completed batches (rule R10). -/
abbrev Samples := BitVec 32

/-- `uW_CYC`: debounce cycle counter, pending counter and idle timer (rule R10). -/
abbrev Cycles := BitVec 32

/-- `W_IDX` bits: the sensor index field of a command (rule R10). -/
abbrev Index := BitVec 12

/-- `2^W_RAW − 1`, the sentinel of `stats.min` (rule R24). -/
abbrev rawMax : Nat := 65535

/-- `2^W_SUM − 1`. -/
abbrev sumMax : Nat := 4294967295

/-- `2^W_CNT − 1`. -/
abbrev countMax : Nat := 65535

/-- `2^W_SAMPLES − 1` (rule R72). -/
abbrev samplesMax : Nat := 4294967295

/-- `2^W_CYC − 1` (rule R117). -/
abbrev cyclesMax : Nat := 4294967295

/-- `−2^(W_DIST−1)`, the least `sW_DIST` (rule R13). -/
abbrev distMin : Int := -2147483648

/-- `2^(W_DIST−1) − 1`, the greatest `sW_DIST` (rule R13). -/
abbrev distMax : Int := 2147483647

end Sys2Proof
end

