-- ==== Sys2Proof/Syntax.lean ====
section
/-! DEFINITION. The eight commands of spec/opcode_table.json, as syntax (30_encoding.md rules R57 and R58). -/

namespace Sys2Proof

/-- A command. An operand is the field of the command word that carries it, at the field's own width (rule R57), so
every term is one the encoding admits. -/
inductive Instr where
  /-- `SNS_INIT capacity`: rule R97. -/
  | snsInit (capacity : BitVec 16)
  /-- `SNS_ADD index, reading`: rule R98. -/
  | snsAdd (index : Index) (reading : Raw)
  /-- `SNS_GET index`: rule R99. -/
  | snsGet (index : Index)
  /-- `MTX_INIT`: rule R103. -/
  | mtxInit
  /-- `MTX_CLEAR`: rule R104. -/
  | mtxClear
  /-- `MTX_NEXT`: rule R107. -/
  | mtxNext
  /-- `MTX_SENSE`: rule R108. -/
  | mtxSense
  /-- `MTX_STROBE`: rule R109. -/
  | mtxStrobe
  deriving DecidableEq, Repr

end Sys2Proof
end

