-- ==== Sys2Proof/Config.lean ====
section
/-! DEFINITION. What one build of the block fixes (00_scope.md rules R8 and R9), the reference build CFG-A of
95_test_vectors.md, and the free values of the pin environment (92_eei_decisions.md D43, D44). -/

namespace Sys2Proof

/-- One stretch of the linearization table `LIN`: `len` entries, the `k`-th of them `start + (k × rise) div run`.
A build's table is a list of stretches laid end to end, so any monotonic table can be written (a stretch of length 1
for each entry), and a long regular one stays short. [DESIGN CHOICE, notes/assumptions/2.md: the spec fixes the values
of `LIN` (rule R8), not how a model writes them.] -/
structure LinSeg where
  len   : Nat
  start : Int
  rise  : Nat
  run   : Nat
  deriving DecidableEq, Repr

/-- The build-time parameters, each under the spec's own name: rule R8 for the Hall engine, rule R9 for the Matrix
engine. `LIN` and `TABLE_SIZE` are `lin` and the total length of its stretches. `scanPeriod` is read by no rule (D42).
The fields are numbers of no fixed width, so that a build that breaks rule R11 can be written down and refused. -/
structure Config where
  sc         : Nat
  mmt        : Nat
  mx         : Nat
  mnok       : Nat
  mxok       : Nat
  ns         : Nat
  lin        : List LinSeg
  nMax       : Nat
  csize      : Nat
  rsize      : Nat
  deb        : Nat
  idle       : Nat
  scanPeriod : Nat
  deriving DecidableEq, Repr

/-- CFG-A, the reference configuration of 95_test_vectors.md section 0: the identity table of 4096 entries.
`SCAN_PERIOD`, to which CFG-A gives no value and which no rule reads, is 1. [DESIGN CHOICE, notes/assumptions/15.md] -/
def Config.reference : Config :=
  { sc := 2, mmt := 800, mx := 4096, mnok := 1000, mxok := 3000, ns := 100,
    lin := [{ len := 4096, start := 0, rise := 1, run := 1 }],
    nMax := 4, csize := 3, rsize := 2, deb := 2, idle := 2, scanPeriod := 1 }

/-- The pin environment's error value `e`, "opaque to the block" (rule R41): the block only carries it.
[DESIGN CHOICE, notes/assumptions/6.md: written as a number, so that any two errors can be told apart.] -/
structure PinError where
  value : Nat
  deriving DecidableEq, Repr, Inhabited

/-- One draw of the pin environment (rule R41, D43, D44): the pin operation succeeds, and a row read then sees `level`
(which no other operation looks at), or it fails with an error value. -/
inductive PinDraw where
  | succeed (level : Bool)
  | fail (e : PinError)
  deriving DecidableEq, Repr, Inhabited

/-- FREE VALUE (D43, D44; notes/assumptions/5.md): what the pin environment answers once the answers that the state
lists are used up, one draw for each count. It has no body, so nothing can be proved of any draw. -/
opaque Config.freeDraw : Nat → PinDraw

end Sys2Proof
end

