-- ==== Sys2Proof/Machine/Table.lean ====
section
/-! DEFINITION. The linearization table space (20_memory.md rule R42): reading one entry, `TABLE_SIZE`, and the check of
00_scope.md rule R11 item 3 on a build's table. -/

namespace Sys2Proof.Machine

/-- Entry `k` of one stretch. -/
def segEntry (g : LinSeg) (k : Nat) : Int := g.start + ((k * g.rise / g.run : Nat) : Int)

/-- `LIN[x]`, and `none` when `x ≥ TABLE_SIZE` (rule R42). -/
def linEntry : List LinSeg → Nat → Option Int
  | [], _ => none
  | g :: gs, x => if x < g.len then some (segEntry g x) else linEntry gs (x - g.len)

/-- `TABLE_SIZE`: the number of entries of `LIN` (rule R8). -/
def tableSize : List LinSeg → Nat
  | [] => 0
  | g :: gs => g.len + tableSize gs

/-- Every entry from here on is an `sW_DIST`, is at least `low`, and is at least the entry before it: rule R11 item 3,
checked stretch by stretch (inside a stretch the entries never fall). A stretch of length 0 holds no entry. -/
def tableRises : List LinSeg → Int → Bool
  | [], _ => true
  | g :: gs, low =>
    if g.len = 0 then tableRises gs low
    else decide (low ≤ g.start) && decide (segEntry g (g.len - 1) ≤ distMax) &&
      tableRises gs (segEntry g (g.len - 1))

end Sys2Proof.Machine
end

