-- ==== Sys2Proof/WellFormed.lean ====
section
/-! DEFINITION. Which builds are well-formed: 00_scope.md rule R11, one named check for each of its six items. A command
needs no check of its own: each operand of `Instr` has exactly the width of its field (30_encoding.md rule R57), and an
operand that does not fit is refused where it can be written, by the assembler (rule R66; Machine/Assembler.lean). -/

namespace Sys2Proof

/-- Rule R11 item 1: the oversampling factor fits the count, and a whole batch fits the sum. -/
def Config.scOk (b : Config) : Bool :=
  decide (1 ≤ b.sc) && decide (b.sc ≤ countMax) && decide (b.sc * rawMax ≤ sumMax)

/-- Rule R11 item 2: `MX − 1` is a sample, and every threshold is a `uW_RAW`. No order among them is asked (D34). -/
def Config.thresholdsOk (b : Config) : Bool :=
  decide (1 ≤ b.mx) && decide (b.mx ≤ rawMax) && decide (b.mmt ≤ rawMax) && decide (b.mnok ≤ rawMax) &&
    decide (b.mxok ≤ rawMax) && decide (b.ns ≤ rawMax)

/-- Rule R11 item 3: the table's size, the range of its entries, and that it never falls. -/
def Config.tableOk (b : Config) : Bool :=
  decide (1 ≤ Machine.tableSize b.lin) && decide (Machine.tableSize b.lin ≤ rawMax + 1) &&
    Machine.tableRises b.lin distMin

/-- Rule R11 item 4: the storage bound is reachable by a 12-bit index. -/
def Config.capacityOk (b : Config) : Bool := decide (b.nMax ≤ 4096)

/-- Rule R11 item 5: at least one column and one row. -/
def Config.sizesOk (b : Config) : Bool := decide (1 ≤ b.csize) && decide (1 ≤ b.rsize)

/-- Rule R11 item 6: both durations are `uW_CYC`. -/
def Config.durationsOk (b : Config) : Bool := decide (b.deb ≤ cyclesMax) && decide (b.idle ≤ cyclesMax)

/-- Rule R11: the build is well-formed. A build that is not has no runs (rule R15): `step` refuses it. -/
def Config.wf (b : Config) : Bool :=
  b.scOk && b.thresholdsOk && b.tableOk && b.capacityOk && b.sizesOk && b.durationsOk

end Sys2Proof
end

