-- ==== Sys2Proof/Decode.lean ====
section
/-! DEFINITION. The command word: its fields, the decoder, the opcode map's matches and masks, and the encoder
(30_encoding.md rules R56 to R61 and R68). The word reaches the block as one value, so no byte order arises (rule R43). -/

namespace Sys2Proof

/-- `OP = w[31:28]` (rule R56). -/
def opField (w : Word) : BitVec 4 := w.extractLsb' 28 4

/-- `IDX = w[27:16]` (rule R56). -/
def idxField (w : Word) : Index := w.extractLsb' 16 12

/-- `DATA = w[15:0]` (rule R56). -/
def dataField (w : Word) : BitVec 16 := w.extractLsb' 0 16

/-- Why a word spells no command. Both answer `ERR_ILLEGAL` (rules R59, R60). -/
inductive Illegal where
  /-- The word's `OP` is one of the reserved 0x0 and 0x9 to 0xF (rule R59). -/
  | reservedOp (op : BitVec 4)
  /-- The word's `OP` is assigned, and a field that must be zero is not (rule R60). -/
  | mustBeZero (op : BitVec 4)
  deriving DecidableEq, Repr

/-- What a word decodes to: a command, or an illegal word with the reason. -/
inductive Decoded where
  | cmd (i : Instr)
  | illegal (r : Illegal)
  deriving DecidableEq, Repr

/-- The command `i` where the fields that must be zero are (rule R60). -/
def whenZero (zero : Bool) (op : BitVec 4) (i : Instr) : Decoded :=
  if zero then .cmd i else .illegal (.mustBeZero op)

/-- The decoder, total on all 2^32 words (rules R58, R59, R60, R68). -/
def decode (w : Word) : Decoded :=
  let op := opField w
  let idx := idxField w
  let data := dataField w
  match op.toNat with
  | 1 => whenZero (idx == 0#12) op (.snsInit data)
  | 2 => .cmd (.snsAdd idx data)
  | 3 => whenZero (data == 0#16) op (.snsGet idx)
  | 4 => whenZero (idx == 0#12 && data == 0#16) op .mtxInit
  | 5 => whenZero (idx == 0#12 && data == 0#16) op .mtxClear
  | 6 => whenZero (idx == 0#12 && data == 0#16) op .mtxNext
  | 7 => whenZero (idx == 0#12 && data == 0#16) op .mtxSense
  | 8 => whenZero (idx == 0#12 && data == 0#16) op .mtxStrobe
  | _ => .illegal (.reservedOp op)

/-- A row of the opcode map as spec/opcode_table.json writes it: `w` spells the row iff `w AND mask = bits`. -/
structure OpcodeRow where
  bits : Word
  mask : Word
  deriving DecidableEq, Repr

/-- The match and mask of a command's row (rule R58). -/
def opcodeRow : Instr → OpcodeRow
  | .snsInit _ => { bits := 0x10000000#32, mask := 0xFFFF0000#32 }
  | .snsAdd _ _ => { bits := 0x20000000#32, mask := 0xF0000000#32 }
  | .snsGet _ => { bits := 0x30000000#32, mask := 0xF000FFFF#32 }
  | .mtxInit => { bits := 0x40000000#32, mask := 0xFFFFFFFF#32 }
  | .mtxClear => { bits := 0x50000000#32, mask := 0xFFFFFFFF#32 }
  | .mtxNext => { bits := 0x60000000#32, mask := 0xFFFFFFFF#32 }
  | .mtxSense => { bits := 0x70000000#32, mask := 0xFFFFFFFF#32 }
  | .mtxStrobe => { bits := 0x80000000#32, mask := 0xFFFFFFFF#32 }

/-- The eight rows of the opcode map, in the table's order (rule R58). -/
def opcodeRows : List OpcodeRow :=
  [opcodeRow (.snsInit 0), opcodeRow (.snsAdd 0 0), opcodeRow (.snsGet 0), opcodeRow .mtxInit,
    opcodeRow .mtxClear, opcodeRow .mtxNext, opcodeRow .mtxSense, opcodeRow .mtxStrobe]

/-- `w` spells the row `r` (rule R58). -/
def spells (w : Word) (r : OpcodeRow) : Bool := (w &&& r.mask) == r.bits

/-- A word laid out from its three fields (rule R56). -/
def packFields (op : BitVec 4) (idx : Index) (data : BitVec 16) : Word := (op ++ idx ++ data : BitVec 32)

/-- The encoder: the word of a command, by the opcode map's columns `OP`, `IDX` and `DATA` (rule R58). -/
def encode : Instr → Word
  | .snsInit capacity => packFields 1#4 0#12 capacity
  | .snsAdd index reading => packFields 2#4 index reading
  | .snsGet index => packFields 3#4 index 0#16
  | .mtxInit => packFields 4#4 0#12 0#16
  | .mtxClear => packFields 5#4 0#12 0#16
  | .mtxNext => packFields 6#4 0#12 0#16
  | .mtxSense => packFields 7#4 0#12 0#16
  | .mtxStrobe => packFields 8#4 0#12 0#16

/-- The word whose low `nbits` bits are those of `w`, every bit above them 0. -/
def tableWord (nbits w : Nat) : Word := BitVec.ofNat 32 (w % 2 ^ nbits)

/-- The command the decoder reads from an opcode-table word of `nbits` bits (rule R68: every command is 32 bits). -/
def decodeTableWord (nbits w : Nat) : Option Instr :=
  match decode (tableWord nbits w) with
  | .cmd i => some i
  | .illegal _ => none

end Sys2Proof
end

