-- ==== Sys2Proof/Machine/State.lean ====
section
/-! DEFINITION. Every piece of state 10_state.md gives the block (rules R19 to R31, S0 to S11 of rule R34), the records
it is made of, the interface with the host and the pin environment (00_scope.md rule R7), the reasons a step stops,
and the power-on state (rules R36 and R143). -/

namespace Sys2Proof.Machine

/-- The calibration status: exactly eight values, listed in the order of their codes (rules R22, R62). -/
inductive CalibrationStatus where
  | notReady
  | sensorMissing
  | sensorBroken
  | magnetDetected
  | magnetWrongPoleOrMissing
  | magnetTooStrong
  | magnetTooWeak
  | invalidIndex
  deriving DecidableEq, Repr

/-- `SenseAnalysis` (rule R21). The four kinematic fields are `sW_DIST`: read them with `BitVec.toInt`. -/
structure SenseAnalysis where
  raw          : Raw
  distance     : Dist
  velocity     : Dist
  acceleration : Dist
  jerk         : Dist
  deriving DecidableEq, Repr

/-- `SampleAccumulator` (rule R23). -/
structure SampleAccumulator where
  sum   : Sum
  count : Count
  deriving DecidableEq, Repr

/-- `SenseStats` (rule R24). -/
structure SenseStats where
  min     : Raw
  max     : Raw
  samples : Samples
  deriving DecidableEq, Repr

/-- `SenseData`, one sensor record `rec[i]` (rule R20). -/
structure SenseData where
  analysis : SenseAnalysis
  cal      : CalibrationStatus
  acc      : SampleAccumulator
  stats    : SenseStats
  deriving DecidableEq, Repr

/-- A confirmed key state (rule R28). -/
inductive KeyState where
  | off
  | on
  deriving DecidableEq, Repr

/-- One debounce cell (rule R28). -/
structure Cell where
  conf : KeyState
  pend : Cycles
  cyc  : Cycles
  idle : Bool
  icnt : Cycles
  deriving DecidableEq, Repr

/-- What a cell that nothing has written holds: rule R36 leaves it unspecified, and no command can read it.
[DESIGN CHOICE, notes/assumptions/8.md: the values of `DEB_RESET`, rule R115.] -/
def Cell.unwritten : Cell := { conf := .off, pend := 0, cyc := 0, idle := true, icnt := 0 }

/-- What the block last did to a column pin (rule R30). -/
inductive ColDrive where
  | active
  | inactive
  | unknown
  deriving DecidableEq, Repr

/-- What the block last did to a row pin's direction (rule R30). -/
inductive RowMode where
  | input
  | output
  | unknown
  deriving DecidableEq, Repr

/-- A level a pin operation drives (rule R41). -/
inductive Level where
  | active
  | inactive
  deriving DecidableEq, Repr

/-- The pin operations (rule R41). -/
inductive PinOp where
  | colSet (c : Nat) (level : Level)
  | rowOut (r : Nat)
  | rowDrive (r : Nat) (level : Level)
  | rowIn (r : Nat)
  | rowRead (r : Nat)
  deriving DecidableEq, Repr

/-- Which operation an `ERR_IO` names (rule R65). -/
inductive PinOpKind where
  | colSet
  | rowOut
  | rowDrive
  | rowIn
  | rowRead
  deriving DecidableEq, Repr

/-- How the pin environment answered one operation (rule R41). -/
inductive PinAnswer where
  | ok
  | level (b : Bool)
  | err (e : PinError)
  deriving DecidableEq, Repr

/-- One entry of the pin trace: an operation and its answer (rule R50). -/
structure PinEvent where
  op     : PinOp
  answer : PinAnswer
  deriving DecidableEq, Repr

/-- `KeyEvent` (rule R63): the `On` form carries no idle flag. -/
inductive KeyEvent where
  | on (cycles : Cycles)
  | off (idle : Bool) (cycles : Cycles)
  deriving DecidableEq, Repr

/-- The response records, one constructor for each code of rule R64 that is ever produced. -/
inductive Response where
  | okNone
  | okAnalysis (a : SenseAnalysis)
  | okRecord (d : SenseData)
  | okIndex (c : Nat)
  | okEvents (ev : List KeyEvent)
  | errCalibration (snapshot : SenseData)
  | errInvalidSensor
  | errFailedToResize
  | errIo (op : PinOpKind) (pin : Nat) (e : PinError)
  | errIllegal
  deriving DecidableEq, Repr

/-- The two engines (rule R1). -/
inductive Engine where
  | hall
  | matrix
  deriving DecidableEq, Repr

/-- The kinematic values that rule R84 checks, in its order. -/
inductive KinField where
  | distance
  | velocity
  | velocityDiff
  | acceleration
  | jerk
  deriving DecidableEq, Repr

/-- Which counter would have passed its maximum (rule R131). -/
inductive CounterSite where
  | sensor (i : Nat)
  | cell (k : Nat)
  deriving DecidableEq, Repr

/-- The closed set of fault reasons of 60_exceptions.md rule R131. A command that raises one writes it to `State.fault`
(rule R133; Machine/Ops.lean `raise`). From then on `step` answers `Host.Outcome.fault` with it, because "the block takes
no further step". SAFE: after a fault nothing more can be shown of the run. -/
inductive Fault where
  /-- `F_UNCONSTRUCTED(engine)`: raised by `SNS_ADD` and `SNS_GET` while `sns_live` is false, and by `MTX_CLEAR`,
  `MTX_NEXT`, `MTX_SENSE` and `MTX_STROBE` while `mtx_live` is false. Safe. -/
  | unconstructed (engine : Engine)
  /-- `F_TABLE_RANGE(x)`: raised by `SNS_ADD` in step 5 where `LIN[x]` is read with `x ≥ TABLE_SIZE` (rule R83). Safe. -/
  | tableRange (x : Nat)
  /-- `F_OVERFLOW(field)`: raised by `SNS_ADD` in step 5 where a kinematic value is no `sW_DIST` (rule R84). Safe. -/
  | overflow (field : KinField)
  /-- `F_COUNTER_OVERFLOW(where)`: raised by `SNS_ADD` in step 2 (rule R72) and by `MTX_SENSE` (rule R121) where a counter
  at its maximum is increased. Safe. -/
  | counterOverflow (site : CounterSite)
  deriving DecidableEq, Repr

/-- Why a step has no meaning. -/
inductive Refusal where
  /-- An arm of `exec` that has no meaning yet. No arm answers so: every command of the table has its meaning. Safe. -/
  | notModelled (mnemonic : String)
  /-- The state's build breaks 00_scope.md rule R11, so it "is refused and has no runs at all" (rule R15). Raised by
  `step`, before it looks at anything else. Safe. -/
  | illFormedBuild
  deriving DecidableEq, Repr

/-- The state of the block, with its build and its interface beside it. Plain data. -/
structure State where
  /-- The build-time parameters (rules R8, R9). They are no state of the block (rule R32): they stand here because a step
  takes nothing but a state, and no step writes them. [DESIGN CHOICE, notes/assumptions/1.md] -/
  build      : Config
  /-- S0 `sns_live` (rule R19). -/
  snsLive    : Bool
  /-- S1 `sns_cap` (rule R19). -/
  snsCap     : Nat
  /-- S2 to S6: the sensor records `rec[0] .. rec[sns_cap − 1]` (rule R20), `rec[i]` at position `i`. -/
  recs       : List SenseData
  /-- S7 `mtx_live` (rule R27). -/
  mtxLive    : Bool
  /-- S8 `cur_strobe` (rule R27). -/
  curStrobe  : Nat
  /-- S9: the debounce grid (rule R29), the cell of column `c` and row `r` at position `c × RSIZE + r`. -/
  cells      : List Cell
  /-- S10 `col_drive[c]` at position `c` (rule R30). -/
  colDrive   : List ColDrive
  /-- S10 `row_mode[r]` at position `r` (rule R30). -/
  rowMode    : List RowMode
  /-- S11 `fault` (rule R31). -/
  fault      : Option Fault
  /-- INPUT, the host's (rule R7): the command words it has yet to issue, the next one first.
  [DESIGN CHOICE, notes/assumptions/4.md] -/
  hostCmds   : List Word
  /-- OUTPUT (rule R155): the responses returned so far, the oldest first. [DESIGN CHOICE, notes/assumptions/12.md] -/
  responses  : List Response
  /-- INPUT, the pin environment's (rule R41, D43, D44): its draws for the next pin operations, the next one first.
  [DESIGN CHOICE, notes/assumptions/5.md] -/
  pinDraws   : List PinDraw
  /-- THE MODEL'S OWN: how many free draws (`Config.freeDraw`) have been used after `pinDraws` ran out.
  [DESIGN CHOICE, notes/assumptions/5.md] -/
  freeDraws  : Nat
  /-- OUTPUT: the pin trace (rule R50), the oldest event first. [DESIGN CHOICE, notes/assumptions/12.md] -/
  pinTrace   : List PinEvent
  deriving DecidableEq, Repr

/-- The power-on state of the build `b` (rules R36, R143). `cur_strobe` and the cells, which rule R36 leaves unspecified,
hold 0 and `Cell.unwritten` [DESIGN CHOICE, notes/assumptions/7.md and 8.md]; the interface is empty
[DESIGN CHOICE, notes/assumptions/4.md, 5.md and 12.md]. -/
def State.powerOn (b : Config) : State :=
  { build := b
    snsLive := false, snsCap := 0, recs := []
    mtxLive := false, curStrobe := 0, cells := List.replicate (b.csize * b.rsize) Cell.unwritten
    colDrive := List.replicate b.csize .unknown, rowMode := List.replicate b.rsize .unknown
    fault := none
    hostCmds := [], responses := [], pinDraws := [], freeDraws := 0, pinTrace := [] }

/-- The machine right after reset: the power-on state of the reference build CFG-A, with no command issued.
[DESIGN CHOICE, notes/assumptions/1.md: the spec leaves every parameter open.] -/
def State.reset : State := State.powerOn Config.reference

end Sys2Proof.Machine
end

