-- ==== Sys2Proof/Machine/Flags.lean ====
section
/-! DEFINITION. The status flags of the block (10_state.md rule R33): the calibration status and its next-state function
`CAL_NEXT` (40_calibration_kinematic.md rules R73 to R76), and the key event that reports a cell's `conf` and `idle`
(30_encoding.md rule R63). The block has no condition codes. -/

namespace Sys2Proof.Machine

/-- `CAL_NEXT` in Normal Mode, where the current status is `MagnetDetected` (rule R73). The `1` of `MX − 1` is the literal
as stated [UNVERIFIED, notes/assumptions/18.md: rule R6 says that it was not audited]. -/
def calNormal (b : Config) (s : Nat) : CalibrationStatus :=
  if s ≥ b.mx - 1 then .magnetTooStrong
  else if s < b.mmt then .magnetTooWeak
  else .magnetDetected

/-- `CAL_NEXT` in Calibration Mode, from any other status (rule R74). -/
def calCalibrating (b : Config) (cur : CalibrationStatus) (s : Nat) : CalibrationStatus :=
  if s > b.mxok then (if cur = .magnetTooStrong then .magnetTooStrong else .sensorBroken)
  else if s < b.ns then .sensorMissing
  else if s < b.mnok then (if cur = .magnetTooWeak then .magnetTooWeak else .magnetWrongPoleOrMissing)
  else .magnetDetected

/-- `CAL_NEXT(cur, s)` (rules R73, R74). -/
def calNext (b : Config) (cur : CalibrationStatus) (s : Nat) : CalibrationStatus :=
  if cur = .magnetDetected then calNormal b s else calCalibrating b cur s

/-- The key event of a cell after its update (rule R122). -/
def keyEvent (c : Cell) : KeyEvent :=
  match c.conf with
  | .on => .on c.cyc
  | .off => .off c.idle c.cyc

end Sys2Proof.Machine
end

