-- ==== Sys2Proof/Machine/Ops.lean ====
section
/-! DEFINITION. The operations every command shares: ending in a response or in a fault (00_scope.md rules R14, R15),
reading and writing a record or a cell by its index (20_memory.md rules R39, R40), checking a number against its storage
(rule R13), and the pin operations (rules R41, R50, R110, R111). -/

namespace Sys2Proof.Machine

/-! ### The two ends of a command -/

/-- `respond(code, payload)`: the response is handed to the host, after those before it (rules R14, R64). -/
def respond (r : Response) (s : State) : State := { s with responses := s.responses ++ [r] }

/-- `raise F(info)`, entering the faulted state: the fault mark is set, and no response is returned (rule R133). The rest
of the state, which the rule leaves unspecified, is what the partial command wrote ("a model may keep" it).
[DESIGN CHOICE, notes/assumptions/10.md] -/
def raise (f : Fault) (s : State) : State := { s with fault := some f }

/-- What an illegal word does: `ERR_ILLEGAL`, no state change and no pin operation (rules R59, R60, R130). -/
def answerIllegal (s : State) : State := respond .errIllegal s

/-- The host's next command word and the state with that word taken, or `none` where the host has issued its last
(rules R7, R18). -/
def takeCommand (s : State) : Option (Word × State) :=
  match s.hostCmds with
  | [] => none
  | w :: rest => some (w, { s with hostCmds := rest })

/-- The word `w` as the host's next command, before those it has yet to issue. -/
def issueNext (w : Word) (s : State) : State := { s with hostCmds := w :: s.hostCmds }

/-! ### Records and cells -/

/-- `NULL_ANALYSIS` (rule R21). -/
def nullAnalysis : SenseAnalysis := { raw := 0, distance := 0, velocity := 0, acceleration := 0, jerk := 0 }

/-- `DEFAULT_RECORD` (rule R97). -/
def defaultRecord : SenseData :=
  { analysis := nullAnalysis, cal := .notReady, acc := { sum := 0, count := 0 },
    stats := { min := 0xFFFF#16, max := 0, samples := 0 } }

/-- `DEB_RESET`, the initial cell (rule R115). -/
def debReset : Cell := { conf := .off, pend := 0, cyc := 0, idle := true, icnt := 0 }

/-- `rec[i]`. Commands read it only after the bounds check; where no record stands the read gives `DEFAULT_RECORD`,
which no state that meets the invariant of rule R19 shows. [DESIGN CHOICE, notes/assumptions/14.md] -/
def readRec (s : State) (i : Nat) : SenseData := s.recs.getD i defaultRecord

/-- `rec[i] <- d`. -/
def writeRec (i : Nat) (d : SenseData) (s : State) : State := { s with recs := s.recs.set i d }

/-- `cell[k]`. No computed address is out of range (rule R40); where no cell stands the read gives `DEB_RESET`.
[DESIGN CHOICE, notes/assumptions/14.md] -/
def readCell (s : State) (k : Nat) : Cell := s.cells.getD k debReset

/-- `cell[k] <- c`. -/
def writeCell (k : Nat) (c : Cell) (s : State) : State := { s with cells := s.cells.set k c }

/-- The cell address of column `c` and row `r`: `c × RSIZE + r` (rules R29, R40). -/
def cellAddr (b : Config) (c r : Nat) : Nat := c * b.rsize + r

/-! ### Numbers against their storage -/

/-- The number `v` is an `sW_DIST` (rules R13, R84). -/
def fitsDist (v : Int) : Bool := decide (distMin ≤ v) && decide (v ≤ distMax)

/-- An `sW_DIST` number in its storage. -/
def toDist (v : Int) : Dist := BitVec.ofInt 32 v

/-- `tdiv(a, b)`: integer division truncating toward zero (rule R13). -/
def truncDiv (a b : Int) : Int := Int.tdiv a b

/-! ### Pin operations -/

/-- The drive a column shows after a successful `COL_SET` (rule R111). -/
def driveOf : Level → ColDrive
  | .active => .active
  | .inactive => .inactive

/-- The draw the pin environment's next answer comes from: the next one listed, else a free draw (D43, D44). -/
def currentDraw (s : State) : PinDraw := s.pinDraws.headD (Config.freeDraw s.freeDraws)

/-- The state with that draw used. -/
def consumeDraw (s : State) : State :=
  { s with
    pinDraws := s.pinDraws.tail
    freeDraws := if s.pinDraws.isEmpty then s.freeDraws + 1 else s.freeDraws }

/-- The answer to an operation: `err(e)`, or `ok`, with the level for a row read (rule R41). -/
def answerOf : PinOp → PinDraw → PinAnswer
  | _, .fail e => .err e
  | .rowRead _, .succeed b => .level b
  | .colSet _ _, .succeed _ => .ok
  | .rowOut _, .succeed _ => .ok
  | .rowDrive _ _, .succeed _ => .ok
  | .rowIn _, .succeed _ => .ok

/-- The pin shadow after an operation (rule R111, line by line). -/
def shadowAfter : PinOp → PinDraw → State → State
  | .colSet c level, .succeed _, s => { s with colDrive := s.colDrive.set c (driveOf level) }
  | .rowOut r, .succeed _, s => { s with rowMode := s.rowMode.set r .output }
  | .rowIn r, .succeed _, s => { s with rowMode := s.rowMode.set r .input }
  | .rowDrive _ _, .succeed _, s => s
  | .rowRead _, .succeed _, s => s
  | .colSet c _, .fail _, s => { s with colDrive := s.colDrive.set c .unknown }
  | .rowOut r, .fail _, s => { s with rowMode := s.rowMode.set r .unknown }
  | .rowDrive r _, .fail _, s => { s with rowMode := s.rowMode.set r .unknown }
  | .rowIn r, .fail _, s => { s with rowMode := s.rowMode.set r .unknown }
  | .rowRead _, .fail _, s => s

/-- The operation and its answer, at the end of the pin trace (rule R50). -/
def logPin (op : PinOp) (d : PinDraw) (s : State) : State :=
  { s with pinTrace := s.pinTrace ++ [{ op := op, answer := answerOf op d }] }

/-- `PinOp(op)`: the state after the operation is issued and answered; the answer is the draw `currentDraw s`. -/
def pinStep (op : PinOp) (s : State) : State :=
  shadowAfter op (currentDraw s) (logPin op (currentDraw s) (consumeDraw s))

/-- A failed pin operation and its error value. -/
structure PinFailure where
  op : PinOp
  e  : PinError
  deriving DecidableEq, Repr

/-- A run of pin operations in order, ended by the first that fails (rules R50, R110): the failure, if any, and the state. -/
def runPins : List PinOp → State → Option PinFailure × State
  | [], s => (none, s)
  | op :: ops, s =>
    match currentDraw s with
    | .fail e => (some { op := op, e := e }, pinStep op s)
    | .succeed _ => runPins ops (pinStep op s)

/-- The kind of an operation, as `ERR_IO` names it (rule R65). -/
def kindOf : PinOp → PinOpKind
  | .colSet _ _ => .colSet
  | .rowOut _ => .rowOut
  | .rowDrive _ _ => .rowDrive
  | .rowIn _ => .rowIn
  | .rowRead _ => .rowRead

/-- The column or row number of an operation (rule R65). -/
def pinOf : PinOp → Nat
  | .colSet c _ => c
  | .rowOut r => r
  | .rowDrive r _ => r
  | .rowIn r => r
  | .rowRead r => r

/-- `respond(ERR_IO, {op, pin, e})` with `e` unchanged (rules R65, R110, R129). -/
def respondIo (f : PinFailure) (s : State) : State := respond (.errIo (kindOf f.op) (pinOf f.op) f.e) s

/-- `COL_SET(c, level)` for every column in ascending order, as `MTX_INIT` and `MTX_CLEAR` issue it (rules R103, R104). -/
def allColumns (b : Config) (level : Level) : List PinOp := (List.range b.csize).map fun c => .colSet c level

/-- The drain of one row: an output, driven inactive, an input again (rule R105). -/
def drainRow (r : Nat) : List PinOp := [.rowOut r, .rowDrive r .inactive, .rowIn r]

/-- `DRAIN`: every row in ascending order, one finished before the next (rule R105). -/
def drainOps (b : Config) : List PinOp := (List.range b.rsize).flatMap drainRow

end Sys2Proof.Machine
end

