-- ==== Sys2Proof/Machine/Debouncer.lean ====
section
/-! DEFINITION. The key debouncer, `DEB_RECORD` (44_debouncer.md rules R115 to R122). The algorithm is the spec's own
reconstruction (rule R124) [DEDUCED, notes/assumptions/13.md]. -/

namespace Sys2Proof.Machine

/-- The raw state of a level: `true` is `On` (rule R116). -/
def rawState (level : Bool) : KeyState := if level then .on else .off

/-- One more cycle, and `none` where the counter stands at its maximum (rule R121). -/
def nextCycle (cyc : Cycles) : Option Cycles :=
  if cyc.toNat = cyclesMax then none else some (BitVec.ofNat 32 (cyc.toNat + 1))

/-- The cell after the flip to `raw` (rule R119). -/
def flipCell (raw : KeyState) : Cell := { conf := raw, pend := 0, cyc := 0, idle := false, icnt := 0 }

/-- A disagreeing record that does not flip: evidence, and no longer idle (rules R118, R120). -/
def evidenceCell (c : Cell) (cyc : Cycles) : Cell :=
  { c with
    pend := BitVec.ofNat 32 (c.pend.toNat + 1)
    cyc := cyc
    idle := if c.conf = .off then false else c.idle
    icnt := if c.conf = .off then 0 else c.icnt }

/-- The idle timer after an agreeing record while `Off`, with `IDLE` its bound (rule R120). -/
def idleTimer (b : Config) (c : Cell) : Nat := min (c.icnt.toNat + 1) b.idle

/-- An agreeing record: the evidence is dropped, and while `Off` the idle timer runs (rules R118, R120). -/
def agreeCell (b : Config) (c : Cell) (cyc : Cycles) : Cell :=
  { c with
    pend := 0
    cyc := cyc
    idle := if c.conf = .off ∧ idleTimer b c = b.idle then true else c.idle
    icnt := if c.conf = .off then BitVec.ofNat 32 (idleTimer b c) else c.icnt }

/-- `DEB_RECORD(c, level)` (rule R117): the cell after one record, or `none` where `cyc` would pass its maximum
(`F_COUNTER_OVERFLOW`). -/
def debRecord (b : Config) (c : Cell) (level : Bool) : Option Cell :=
  if rawState level ≠ c.conf then
    if c.pend.toNat + 1 ≥ max b.deb 1 then some (flipCell (rawState level))
    else (nextCycle c.cyc).map (evidenceCell c)
  else (nextCycle c.cyc).map (agreeCell b c)

end Sys2Proof.Machine
end

