-- ==== Sys2Proof/Machine/Matrix.lean ====
section
/-! DEFINITION. The five Matrix engine commands (43_matrix_scanner.md rules R103 to R109). What a failing pin operation
leaves done is the order of the steps (rule R110). -/

namespace Sys2Proof.Machine

/-- A Matrix command reaches its engine only while `mtx_live`; else `F_UNCONSTRUCTED(Matrix)` (rule R131). -/
def withMatrix (s : State) (run : State) : State :=
  if s.mtxLive then run else raise (.unconstructed .matrix) s

/-- The pre-first position (rule R106). -/
def preFirst (b : Config) : Nat := b.csize - 1

/-- The strobe successor `next(c)` (rule R106). -/
def nextStrobe (b : Config) (c : Nat) : Nat := if c = b.csize - 1 then 0 else c + 1

/-- The steps of `MTX_INIT` (rule R103): a failing column leaves the matrix unconstructed, with the strobe index and the
grid as they were [DEDUCED, notes/assumptions/9.md: rule R36 leaves them unspecified there, and no command reads them]. -/
def constructMatrix (s : State) : State :=
  match runPins (allColumns s.build .inactive) s with
  | (some f, s1) => respondIo f { s1 with mtxLive := false }
  | (none, s1) =>
    respond .okNone
      { s1 with
        curStrobe := preFirst s.build
        cells := List.replicate (s.build.csize * s.build.rsize) debReset
        mtxLive := true }

/-- The steps of `MTX_CLEAR` (rule R104): the grid is left alone, and the index is reset only after the last column. -/
def clearColumns (s : State) : State :=
  match runPins (allColumns s.build .inactive) s with
  | (some f, s1) => respondIo f s1
  | (none, s1) => respond .okNone { s1 with curStrobe := preFirst s.build }

/-- The last steps of `MTX_NEXT` (rule R107): the strobe index advances, then the new column is activated. -/
def activateNext (s : State) : State :=
  match runPins [.colSet (nextStrobe s.build s.curStrobe) .active]
      { s with curStrobe := nextStrobe s.build s.curStrobe } with
  | (some f, s1) => respondIo f s1
  | (none, s1) => respond (.okIndex s1.curStrobe) s1

/-- The steps of `MTX_NEXT` (rule R107): the old column off, `DRAIN`, then `activateNext`. -/
def advanceStrobe (s : State) : State :=
  match runPins (.colSet s.curStrobe .inactive :: drainOps s.build) s with
  | (some f, s1) => respondIo f s1
  | (none, s1) => activateNext s1

/-- How the rows of `MTX_SENSE` come out, with the state they leave. -/
inductive SenseResult where
  | done (ev : List KeyEvent) (s : State)
  | ioFailed (f : PinFailure) (s : State)
  | cellOverflow (k : Nat) (s : State)
  deriving DecidableEq, Repr

/-- The rows of `MTX_SENSE` from the first one listed on, with the events of those before it (rule R108): each row is read
and recorded before the next is read, and the first failure or overflow ends the command (rule R132). -/
def senseRows : List Nat → List KeyEvent → State → SenseResult
  | [], ev, s => .done ev s
  | r :: rows, ev, s =>
    match currentDraw s with
    | .fail e => .ioFailed { op := .rowRead r, e := e } (pinStep (.rowRead r) s)
    | .succeed level =>
      match debRecord s.build (readCell s (cellAddr s.build s.curStrobe r)) level with
      | none => .cellOverflow (cellAddr s.build s.curStrobe r) (pinStep (.rowRead r) s)
      | some c =>
        senseRows rows (ev ++ [keyEvent c])
          (writeCell (cellAddr s.build s.curStrobe r) c (pinStep (.rowRead r) s))

/-- The steps of `MTX_SENSE` (rule R108). -/
def senseColumn (s : State) : State :=
  match senseRows (List.range s.build.rsize) [] s with
  | .done ev s1 => respond (.okEvents ev) s1
  | .ioFailed f s1 => respondIo f s1
  | .cellOverflow k s1 => raise (.counterOverflow (.cell k)) s1

/-- `MTX_INIT` (rule R103): legal in every state. -/
def execMtxInit (s : State) : Host.Outcome State Fault Refusal := .next (constructMatrix s)

/-- `MTX_CLEAR` (rule R104). -/
def execMtxClear (s : State) : Host.Outcome State Fault Refusal := .next (withMatrix s (clearColumns s))

/-- `MTX_NEXT` (rule R107). -/
def execMtxNext (s : State) : Host.Outcome State Fault Refusal := .next (withMatrix s (advanceStrobe s))

/-- `MTX_SENSE` (rule R108). -/
def execMtxSense (s : State) : Host.Outcome State Fault Refusal := .next (withMatrix s (senseColumn s))

/-- `MTX_STROBE` (rule R109): the current strobe index, and nothing else. -/
def execMtxStrobe (s : State) : Host.Outcome State Fault Refusal :=
  .next (withMatrix s (respond (.okIndex s.curStrobe) s))

end Sys2Proof.Machine
end

