-- ==== Sys2Proof/Machine/Accumulator.lean ====
section
/-! DEFINITION. The sample accumulator, `ACC_ADD` (41_accumulator.md rules R91 to R95). -/

namespace Sys2Proof.Machine

/-- What `ACC_ADD` returns, with the accumulator it leaves. -/
inductive AccResult where
  | notYet (a : SampleAccumulator)
  | done (avg : Raw) (a : SampleAccumulator)
  deriving DecidableEq, Repr

/-- `ACC_ADD(a, r)` (rule R91): the sum and the count are exact, the average is the floor of the sum over `SC` (rule R92),
and a completed batch leaves `{0, 0}` (rule R93). A well-formed build rules out that a stored value passes its width
(rule R94; notes/assumptions/14.md for states no run reaches). -/
def accAdd (b : Config) (a : SampleAccumulator) (r : Raw) : AccResult :=
  let sum := a.sum.toNat + r.toNat
  let count := a.count.toNat + 1
  if count = b.sc then .done (BitVec.ofNat 16 (sum / b.sc)) { sum := 0, count := 0 }
  else .notYet { sum := BitVec.ofNat 32 sum, count := BitVec.ofNat 16 count }

end Sys2Proof.Machine
end

