-- ==== Sys2Proof/Machine/Kinematics.lean ====
section
/-! DEFINITION. The kinematic analyzer, `ANALYZE` (40_calibration_kinematic.md rules R79 to R85). -/

namespace Sys2Proof.Machine

/-- What `ANALYZE` gives: the new analysis, or the fault that ends the command. -/
inductive AnalyzeResult where
  | ok (a : SenseAnalysis)
  | faulted (f : Fault)
  deriving DecidableEq, Repr

/-- The first value, in the order listed, that is no `sW_DIST` (rule R84). -/
def firstOverflow : List (KinField × Int) → Option KinField
  | [] => none
  | (field, v) :: rest => if fitsDist v then firstOverflow rest else some field

/-- The kinematic values from the distance and the previous analysis, exact, in the order rule R84 checks them
(rules R80 to R82). The divisor 2 is the literal as stated [UNVERIFIED, notes/assumptions/18.md: rule R6]. -/
def kinValues (dist : Int) (p : SenseAnalysis) : List (KinField × Int) :=
  let vel := dist - p.distance.toInt
  let dv := vel - p.velocity.toInt
  let acc := truncDiv dv 2
  let jrk := acc - p.acceleration.toInt
  [(.distance, dist), (.velocity, vel), (.velocityDiff, dv), (.acceleration, acc), (.jerk, jrk)]

/-- The new analysis from the distance, each value in its storage (rule R85). -/
def kinAnalysis (s : Raw) (dist : Int) (p : SenseAnalysis) : SenseAnalysis :=
  let vel := dist - p.distance.toInt
  let acc := truncDiv (vel - p.velocity.toInt) 2
  { raw := s, distance := toDist dist, velocity := toDist vel, acceleration := toDist acc,
    jerk := toDist (acc - p.acceleration.toInt) }

/-- `ANALYZE(s, mn, p)`: `LIN[s]` is read before `LIN[mn]` (rule R83), then every value is checked (rule R84). -/
def analyze (b : Config) (s mn : Raw) (p : SenseAnalysis) : AnalyzeResult :=
  match linEntry b.lin s.toNat with
  | none => .faulted (.tableRange s.toNat)
  | some ls =>
    match linEntry b.lin mn.toNat with
    | none => .faulted (.tableRange mn.toNat)
    | some lm =>
      match firstOverflow (kinValues (ls - lm) p) with
      | some field => .faulted (.overflow field)
      | none => .ok (kinAnalysis s (ls - lm) p)

end Sys2Proof.Machine
end

