-- ==== Sys2Proof/Machine/Calibration.lean ====
section
/-! DEFINITION. The per-batch pipeline, `SENSOR_BATCH` (40_calibration_kinematic.md rules R69 to R72, R77 and R78). -/

namespace Sys2Proof.Machine

/-- Step 2, minimum and maximum (rule R71). -/
def statsWithSample (s : Raw) (t : SenseStats) : SenseStats :=
  { t with
    min := if s.toNat < t.min.toNat then s else t.min
    max := if t.max.toNat < s.toNat then s else t.max }

/-- Step 2, lifetime counter: one more batch, and `none` where it stands at its maximum (rule R72). -/
def countBatch (t : SenseStats) : Option SenseStats :=
  if t.samples.toNat = samplesMax then none
  else some { t with samples := BitVec.ofNat 32 (t.samples.toNat + 1) }

/-- `STATS_RESET` (rule R24): the sentinels, with `samples` unchanged. -/
def statsReset (t : SenseStats) : SenseStats := { t with min := 0xFFFF#16, max := 0 }

/-- What a completed batch makes of a sensor's record. -/
inductive BatchResult where
  /-- Step 4: the status is not `MagnetDetected`, and this is the record's snapshot (rule R77). -/
  | unusable (d : SenseData)
  /-- Step 5: the status is `MagnetDetected`, and this is the record with its new analysis (rule R78). -/
  | usable (d : SenseData)
  /-- A fault ends the command (rules R72, R83, R84). -/
  | faulted (f : Fault)
  deriving DecidableEq, Repr

/-- `SENSOR_BATCH(i, s)` on the record `d` of sensor `i`, steps 2 to 5 (rule R70). -/
def batchRecord (b : Config) (i : Nat) (s : Raw) (d : SenseData) : BatchResult :=
  match countBatch (statsWithSample s d.stats) with
  | none => .faulted (.counterOverflow (.sensor i))
  | some stats =>
    let cal := calNext b d.cal s.toNat
    if cal = .magnetDetected then
      match analyze b s stats.min d.analysis with
      | .faulted f => .faulted f
      | .ok a => .usable { d with cal := cal, stats := stats, analysis := a }
    else .unusable { d with cal := cal, stats := statsReset stats, analysis := { nullAnalysis with raw := s } }

/-- `SENSOR_BATCH(i, s)`: the record is written and the command ends in its response (rule R70). -/
def sensorBatch (i : Nat) (s : Raw) (st : State) : State :=
  match batchRecord st.build i s (readRec st i) with
  | .faulted f => raise f st
  | .unusable d => respond (.errCalibration d) (writeRec i d st)
  | .usable d => respond (.okAnalysis d.analysis) (writeRec i d st)

end Sys2Proof.Machine
end

