-- ==== Sys2Proof/Machine/Operands.lean ====
section
/-! DEFINITION. The operand forms of the commands (30_encoding.md rule R57): each operand is a field of the command word,
zero-extended, and a sensor index is checked against the bounds of the sensor index space (20_memory.md rule R39). The
block has no general registers and no other operand form (10_state.md rule R17). -/

namespace Sys2Proof.Machine

/-- `IDX = zext_12(w[27:16])` as a sensor index. -/
def sensorIndex (index : Index) : Nat := index.toNat

/-- `DATA = zext_16(w[15:0])` as a capacity. -/
def requestedCapacity (capacity : BitVec 16) : Nat := capacity.toNat

/-- The address `i` is in the sensor index space `0 .. sns_cap − 1`; one that is not is answered
`ERR_INVALID_SENSOR` (rules R39, R127). -/
def inBounds (s : State) (i : Nat) : Bool := decide (i < s.snsCap)

end Sys2Proof.Machine
end

