-- ==== Sys2Proof/Machine/Sensor.lean ====
section
/-! DEFINITION. The three Hall engine commands (42_sensor_array.md rules R97 to R99). The order of the checks is
60_exceptions.md rule R132: construction, then bounds, then the steps. -/

namespace Sys2Proof.Machine

/-- A Hall command reaches its engine only while `sns_live`; else `F_UNCONSTRUCTED(Hall)` (rule R131). -/
def withHall (s : State) (run : State) : State :=
  if s.snsLive then run else raise (.unconstructed .hall) s

/-- `SNS_INIT(n)` (rule R97): legal in every state; it fails exactly when `n > N_MAX`. -/
def constructHall (n : Nat) (s : State) : State :=
  if n > s.build.nMax then
    respond .errFailedToResize { s with snsLive := false, snsCap := 0, recs := [] }
  else
    respond .okNone { s with snsLive := true, snsCap := n, recs := List.replicate n defaultRecord }

/-- The reading `r` for the sensor `i`, which is in bounds: `ACC_ADD`, and a completed batch goes on to `SENSOR_BATCH`
with the accumulator already reset (rules R93, R98). -/
def addReading (i : Nat) (r : Raw) (s : State) : State :=
  match accAdd s.build (readRec s i).acc r with
  | .notYet a => respond .okNone (writeRec i { readRec s i with acc := a } s)
  | .done avg a => sensorBatch i avg (writeRec i { readRec s i with acc := a } s)

/-- The readout of the sensor `i`, which is in bounds: `NotReady` answers `ERR_CALIBRATION` with the record as it stands,
every other status `OK_RECORD` (rule R99). -/
def readOut (i : Nat) (s : State) : State :=
  if (readRec s i).cal = .notReady then respond (.errCalibration (readRec s i)) s
  else respond (.okRecord (readRec s i)) s

/-- `SNS_INIT capacity` (rule R97). -/
def execSnsInit (capacity : BitVec 16) (s : State) : Host.Outcome State Fault Refusal :=
  .next (constructHall (requestedCapacity capacity) s)

/-- `SNS_ADD index, reading` (rule R98). -/
def execSnsAdd (index : Index) (reading : Raw) (s : State) : Host.Outcome State Fault Refusal :=
  .next (withHall s
    (if inBounds s (sensorIndex index) then addReading (sensorIndex index) reading s
     else respond .errInvalidSensor s))

/-- `SNS_GET index` (rule R99). -/
def execSnsGet (index : Index) (s : State) : Host.Outcome State Fault Refusal :=
  .next (withHall s
    (if inBounds s (sensorIndex index) then readOut (sensorIndex index) s
     else respond .errInvalidSensor s))

end Sys2Proof.Machine
end

