-- ==== Sys2Proof/Machine/Dispatch.lean ====
section
/-! DEFINITION. The dispatch of a command to its meaning, one arm for each row of spec/opcode_table.json. -/

namespace Sys2Proof.Machine

def exec (i : Instr) (s : State) : Host.Outcome State Fault Refusal :=
  match i with
  -- the Hall engine: 42_sensor_array.md
  | .snsInit capacity => Sys2Proof.Machine.execSnsInit capacity s
  | .snsAdd index reading => Sys2Proof.Machine.execSnsAdd index reading s
  | .snsGet index => Sys2Proof.Machine.execSnsGet index s
  -- the Matrix engine: 43_matrix_scanner.md
  | .mtxInit => Sys2Proof.Machine.execMtxInit s
  | .mtxClear => Sys2Proof.Machine.execMtxClear s
  | .mtxNext => Sys2Proof.Machine.execMtxNext s
  | .mtxSense => Sys2Proof.Machine.execMtxSense s
  | .mtxStrobe => Sys2Proof.Machine.execMtxStrobe s

end Sys2Proof.Machine
end

