-- ==== Sys2Proof/Machine/Step.lean ====
section
/-! DEFINITION. One step of the block: one command of the host, from its word to its response (00_scope.md rule R7). -/

namespace Sys2Proof.Machine

/-- The command word `w` is decoded before any other check (30_encoding.md rule R61) and run. -/
def runWord (w : Word) (s : State) : Host.Outcome State Fault Refusal :=
  match decode w with
  | .cmd i => exec i s
  | .illegal _ => .next (answerIllegal s)

/-- One step. A build that breaks rule R11 has no runs (rule R15). A faulted block takes no further step
(60_exceptions.md rule R133): it stops with its fault. Else the host's next command runs as one atomic step (rule R7),
and where the host has issued its last command nothing happens (70_reset_and_hazards.md rule R155)
[DESIGN CHOICE, notes/assumptions/4.md]. One agent writes state and a command is one step (rules R7, R46)
[DEDUCED, notes/assumptions/16.md]. The build is checked before each step [DEDUCED, notes/assumptions/11.md]. -/
def step (s : State) : Host.Outcome State Fault Refusal :=
  if s.build.wf then
    match s.fault with
    | some f => .fault f
    | none =>
      match takeCommand s with
      | none => .next s
      | some (w, s1) => runWord w s1
  else .refused .illFormedBuild

/-- The state in which the host's next command is the opcode-table word `w` of `nbits` bits: `step` runs exactly it. -/
def State.withFetchWord (s : State) (nbits w : Nat) : State := issueNext (tableWord nbits w) s

end Sys2Proof.Machine
end

