-- ==== Sys2Proof/Machine/Assembler.lean ====
section
/-! DEFINITION. The assembler of 30_encoding.md rules R66 and R67: from lines of text to the command words the host
issues. The block never sees an assembler line or a pseudo-instruction. What the two rules leave open about the text
(white space, upper and lower case, an empty line) is fixed in notes/assumptions/17.md. -/

namespace Sys2Proof.Machine

/-- One line of the assembler, with operands as written (rules R66, R67). -/
inductive AsmLine where
  | snsInit (capacity : Nat)
  | snsAdd (index reading : Nat)
  | snsGet (index : Nat)
  | mtxInit
  | mtxClear
  | mtxNext
  | mtxSense
  | mtxStrobe
  /-- `.word value`: any 32-bit word, legal or not. -/
  | word (value : Nat)
  /-- `SCAN`: `MTX_NEXT` then `MTX_SENSE`. -/
  | scan
  /-- `SCAN_ALL`: `CSIZE` copies of `SCAN`. -/
  | scanAll
  /-- `FEED index, reading`: `SC` copies of `SNS_ADD index, reading`. -/
  | feed (index reading : Nat)
  deriving DecidableEq, Repr

/-- The words `ws` where the operands fit their fields, else the line is refused (rule R66). -/
def whenFits (fits : Bool) (ws : List Word) : Option (List Word) := if fits then some ws else none

/-- An index fits 12 bits and a reading 16 (rule R66: refused are `index > 4095` and `reading > 65535`). -/
def addFits (index reading : Nat) : Bool := decide (index ≤ 4095) && decide (reading ≤ 65535)

/-- The word of `SNS_ADD index, reading`. -/
def addWord (index reading : Nat) : Word := encode (.snsAdd (BitVec.ofNat 12 index) (BitVec.ofNat 16 reading))

/-- The two words of `SCAN` (rule R67). -/
def scanWords : List Word := [encode .mtxNext, encode .mtxSense]

/-- The words of one line for the build `b`, or `none` where the assembler refuses the line (rules R66, R67). -/
def asmWords (b : Config) : AsmLine → Option (List Word)
  | .snsInit capacity => whenFits (decide (capacity ≤ 65535)) [encode (.snsInit (BitVec.ofNat 16 capacity))]
  | .snsAdd index reading => whenFits (addFits index reading) [addWord index reading]
  | .snsGet index => whenFits (decide (index ≤ 4095)) [encode (.snsGet (BitVec.ofNat 12 index))]
  | .mtxInit => some [encode .mtxInit]
  | .mtxClear => some [encode .mtxClear]
  | .mtxNext => some [encode .mtxNext]
  | .mtxSense => some [encode .mtxSense]
  | .mtxStrobe => some [encode .mtxStrobe]
  | .word value => whenFits (decide (value ≤ 0xFFFFFFFF)) [BitVec.ofNat 32 value]
  | .scan => some scanWords
  | .scanAll => some (List.replicate b.csize scanWords).flatten
  | .feed index reading => whenFits (addFits index reading) (List.replicate b.sc (addWord index reading))

/-! ### The text of a line -/

/-- A blank or a tab. -/
def isBlank (c : Char) : Bool := c == ' ' || c == '\t'

/-- The text without blanks at its two ends. -/
def trimBlanks (t : List Char) : List Char := ((t.dropWhile isBlank).reverse.dropWhile isBlank).reverse

/-- The text before a comment: `;` starts one (rule R66). -/
def beforeComment (t : List Char) : List Char := t.takeWhile (· != ';')

/-- The parts of a text between its commas. -/
def splitCommas : List Char → List (List Char)
  | [] => [[]]
  | c :: rest =>
    if c == ',' then [] :: splitCommas rest
    else match splitCommas rest with
      | [] => [[c]]
      | part :: parts => (c :: part) :: parts

/-- The value of a digit in hexadecimal; a decimal digit has a value below 10. -/
def digitValue (c : Char) : Option Nat :=
  if '0' ≤ c ∧ c ≤ '9' then some (c.toNat - 48)
  else if 'a' ≤ c ∧ c ≤ 'f' then some (c.toNat - 87)
  else if 'A' ≤ c ∧ c ≤ 'F' then some (c.toNat - 55)
  else none

/-- The digits of a number in the given base, after those already read. -/
def readDigits (base : Nat) : List Char → Nat → Option Nat
  | [], n => some n
  | c :: rest, n =>
    match digitValue c with
    | none => none
    | some d => if d < base then readDigits base rest (base * n + d) else none

/-- A number: decimal, or hexadecimal with `0x` (rule R66). -/
def readNumber (t : List Char) : Option Nat :=
  match trimBlanks t with
  | [] => none
  | ['0', 'x'] => none
  | '0' :: 'x' :: digits => readDigits 16 digits 0
  | digits => readDigits 10 digits 0

/-- All numbers of a list of texts, or `none` where one is no number. -/
def readNumbers : List (List Char) → Option (List Nat)
  | [] => some []
  | t :: ts =>
    match readNumber t, readNumbers ts with
    | some n, some ns => some (n :: ns)
    | _, _ => none

/-- The operands after a mnemonic: none, or numbers between commas (rule R66). -/
def readOperands (t : List Char) : Option (List Nat) :=
  if (trimBlanks t).isEmpty then some [] else readNumbers (splitCommas t)

/-- The line of a mnemonic and its operands (rules R66, R67). -/
def lineOf (mnemonic : List Char) (operands : List Nat) : Option AsmLine :=
  match operands with
  | [] =>
    if mnemonic = "MTX_INIT".toList then some .mtxInit
    else if mnemonic = "MTX_CLEAR".toList then some .mtxClear
    else if mnemonic = "MTX_NEXT".toList then some .mtxNext
    else if mnemonic = "MTX_SENSE".toList then some .mtxSense
    else if mnemonic = "MTX_STROBE".toList then some .mtxStrobe
    else if mnemonic = "SCAN".toList then some .scan
    else if mnemonic = "SCAN_ALL".toList then some .scanAll
    else none
  | [n] =>
    if mnemonic = "SNS_INIT".toList then some (.snsInit n)
    else if mnemonic = "SNS_GET".toList then some (.snsGet n)
    else if mnemonic = ".word".toList then some (.word n)
    else none
  | [i, r] =>
    if mnemonic = "SNS_ADD".toList then some (.snsAdd i r)
    else if mnemonic = "FEED".toList then some (.feed i r)
    else none
  | _ => none

/-- The words of one line of text: none for a line that is empty but for a comment. -/
def assembleLine (b : Config) (t : List Char) : Option (List Word) :=
  let body := trimBlanks (beforeComment t)
  if body.isEmpty then some []
  else
    match readOperands (body.dropWhile (fun c => !isBlank c)) with
    | none => none
    | some operands =>
      match lineOf (body.takeWhile (fun c => !isBlank c)) operands with
      | none => none
      | some line => asmWords b line

/-- The words of a program's lines in order: one command a line (rule R66), or `none` where a line is refused. -/
def assemble (b : Config) : List String → Option (List Word)
  | [] => some []
  | t :: ts =>
    match assembleLine b t.toList, assemble b ts with
    | some ws, some rest => some (ws ++ rest)
    | _, _ => none

end Sys2Proof.Machine
end

