-- ==== Sys2Proof/Machine/Codes.lean ====
section
/-! DEFINITION. The value encodings of the response interface: status codes (30_encoding.md rule R62), response codes
(rule R64) and pin operation codes (rule R65). No bit packing of a payload is fixed (rule R64). -/

namespace Sys2Proof.Machine

/-- The 3-bit code of a calibration status (rule R62). -/
def statusCode : CalibrationStatus → BitVec 3
  | .notReady => 0
  | .sensorMissing => 1
  | .sensorBroken => 2
  | .magnetDetected => 3
  | .magnetWrongPoleOrMissing => 4
  | .magnetTooStrong => 5
  | .magnetTooWeak => 6
  | .invalidIndex => 7

/-- The code of a response record (rule R64). -/
def responseCode : Response → Nat
  | .okNone => 0
  | .okAnalysis _ => 1
  | .okRecord _ => 2
  | .okIndex _ => 3
  | .okEvents _ => 4
  | .errCalibration _ => 8
  | .errInvalidSensor => 9
  | .errFailedToResize => 10
  | .errIo _ _ _ => 11
  | .errIllegal => 12

/-- The code of a failing pin operation in an `ERR_IO` payload (rule R65). -/
def pinOpCode : PinOpKind → Nat
  | .colSet => 0
  | .rowOut => 1
  | .rowDrive => 2
  | .rowIn => 3
  | .rowRead => 4

end Sys2Proof.Machine
end

