-- ==== Sys2Proof/Safety.lean ====
section
/-! DEFINITION. The terms claims are stated in: the well-formed build as 00_scope.md rule R11 lists it, the invariants of
10_state.md and 43_matrix_scanner.md, the draws the next pin operations meet, what a history of records leaves in a
debounce cell, and the successful end of a run. -/

namespace Sys2Proof.Machine

/-! ### Builds -/

/-- Rule R11, item by item, over the entries of `LIN` themselves. -/
structure WellFormedBuild (b : Config) : Prop where
  sc_pos        : 1 ≤ b.sc
  sc_count      : b.sc ≤ 2 ^ 16 - 1
  sc_sum        : b.sc * (2 ^ 16 - 1) ≤ 2 ^ 32 - 1
  mx_pos        : 1 ≤ b.mx
  mx_raw        : b.mx ≤ 2 ^ 16 - 1
  mmt_raw       : b.mmt ≤ 2 ^ 16 - 1
  mnok_raw      : b.mnok ≤ 2 ^ 16 - 1
  mxok_raw      : b.mxok ≤ 2 ^ 16 - 1
  ns_raw        : b.ns ≤ 2 ^ 16 - 1
  table_pos     : 1 ≤ tableSize b.lin
  table_domain  : tableSize b.lin ≤ 2 ^ 16
  table_range   : ∀ x v, linEntry b.lin x = some v → -2 ^ 31 ≤ v ∧ v ≤ 2 ^ 31 - 1
  table_rising  : ∀ x y u v, x < y → linEntry b.lin x = some u → linEntry b.lin y = some v → u ≤ v
  capacity      : b.nMax ≤ 4096
  columns       : 1 ≤ b.csize
  rows          : 1 ≤ b.rsize
  debounce      : b.deb ≤ 2 ^ 32 - 1
  idle_duration : b.idle ≤ 2 ^ 32 - 1

/-- `LIN[x]` where `x` is in the table, else 0: for claims that already know the index is in range. -/
def lin (b : Config) (x : Nat) : Int := (linEntry b.lin x).getD 0

/-- `SPAN` of rule R88. -/
def span (b : Config) : Int := lin b (tableSize b.lin - 1) - lin b 0

/-- An *ordered* configuration (rule R157). -/
def OrderedThresholds (b : Config) : Prop :=
  b.ns ≤ b.mnok ∧ b.mnok ≤ b.mxok ∧ b.mxok < b.mx - 1 ∧ b.mmt ≤ b.mnok

/-! ### The Hall engine -/

/-- The four kinematic fields are zero (rule R25). -/
def KinZero (a : SenseAnalysis) : Prop := a.distance = 0 ∧ a.velocity = 0 ∧ a.acceleration = 0 ∧ a.jerk = 0

/-- Rules R25, R26 and R100 for one record. -/
def RecOk (b : Config) (d : SenseData) : Prop :=
  d.cal ≠ .invalidIndex ∧
    (d.cal ≠ .magnetDetected → KinZero d.analysis ∧ d.stats.min = 0xFFFF#16 ∧ d.stats.max = 0) ∧
    d.acc.count.toNat < b.sc ∧ d.acc.sum.toNat ≤ d.acc.count.toNat * (2 ^ 16 - 1)

/-- The records stand exactly at the indices `0 .. sns_cap − 1`, and only while `sns_live` (rules R19, R39). -/
def HallShape (s : State) : Prop :=
  s.recs.length = s.snsCap ∧ s.snsCap ≤ s.build.nMax ∧ (s.snsLive = false → s.snsCap = 0)

/-- The invariant of the Hall engine, whenever no command is in progress and no fault is raised
(rules R19, R25, R26, R100). -/
def HallInv (s : State) : Prop :=
  s.fault = none → HallShape s ∧ ∀ i, i < s.snsCap → RecOk s.build (readRec s i)

/-- The bounds of rule R88 on one analysis. -/
def KinBounded (b : Config) (a : SenseAnalysis) : Prop :=
  0 ≤ a.distance.toInt ∧ a.distance.toInt ≤ span b ∧
    -span b ≤ a.velocity.toInt ∧ a.velocity.toInt ≤ span b ∧
    -span b ≤ a.acceleration.toInt ∧ a.acceleration.toInt ≤ span b ∧
    -(2 * span b) ≤ a.jerk.toInt ∧ a.jerk.toInt ≤ 2 * span b

/-- The number is an `sW_DIST` (rule R13). -/
def InDist (v : Int) : Prop := -2 ^ 31 ≤ v ∧ v ≤ 2 ^ 31 - 1

/-- The next reading of sensor `i`, which is in bounds, completes a batch; the state is one that commands leave
(rules R91, R98). -/
structure BatchCompletes (s : State) (i : Nat) : Prop where
  build    : WellFormedBuild s.build
  inv      : HallInv s
  noFault  : s.fault = none
  live     : s.snsLive = true
  bounds   : i < s.snsCap
  complete : (readRec s i).acc.count.toNat + 1 = s.build.sc

/-- The averaged sample of the batch that the reading `r` completes (rule R92). -/
def batchAverage (s : State) (i : Nat) (r : Raw) : Nat :=
  ((readRec s i).acc.sum.toNat + r.toNat) / s.build.sc

/-- The status that batch gives (rules R73, R74). -/
def batchStatus (s : State) (i : Nat) (r : Raw) : CalibrationStatus :=
  calNext s.build (readRec s i).cal (batchAverage s i r)

/-- `stats.min` after step 2 of that batch (rule R71). -/
def batchMin (s : State) (i : Nat) (r : Raw) : Nat := min (readRec s i).stats.min.toNat (batchAverage s i r)

/-- The distance of that batch (rule R79). -/
def batchDistance (s : State) (i : Nat) (r : Raw) : Int :=
  lin s.build (batchAverage s i r) - lin s.build (batchMin s i r)

/-- The velocity of that batch (rule R80). -/
def batchVelocity (s : State) (i : Nat) (r : Raw) : Int :=
  batchDistance s i r - (readRec s i).analysis.distance.toInt

/-- The velocity difference of that batch (rule R81). -/
def batchVelocityDiff (s : State) (i : Nat) (r : Raw) : Int :=
  batchVelocity s i r - (readRec s i).analysis.velocity.toInt

/-- The acceleration of that batch (rule R81). -/
def batchAcceleration (s : State) (i : Nat) (r : Raw) : Int := (batchVelocityDiff s i r).tdiv 2

/-- The jerk of that batch (rule R82). -/
def batchJerk (s : State) (i : Nat) (r : Raw) : Int :=
  batchAcceleration s i r - (readRec s i).analysis.acceleration.toInt

/-- The reading `r` for sensor `i` raises the fault `f` and gets no response (rule R133). -/
def AddFaults (i : Index) (r : Raw) (s : State) (f : Fault) : Prop :=
  ∃ t, exec (.snsAdd i r) s = .next t ∧ t.fault = some f ∧ t.responses = s.responses

/-- Every record's analysis is within the bounds of rule R88. -/
def KinInv (s : State) : Prop :=
  s.fault = none → ∀ i, i < s.snsCap → KinBounded s.build (readRec s i).analysis

/-- Two states of one build show the same Hall engine. -/
def SameHall (s s' : State) : Prop :=
  s.build = s'.build ∧ s.snsLive = s'.snsLive ∧ s.snsCap = s'.snsCap ∧ s.recs = s'.recs

/-- The statuses of a sensor that starts in `cur` and completes one batch for each averaged sample. -/
def statuses (b : Config) : CalibrationStatus → List Nat → List CalibrationStatus
  | _, [] => []
  | cur, s :: rest => calNext b cur s :: statuses b (calNext b cur s) rest

/-- The accumulator after readings that complete no batch, and `none` where one of them does. -/
def accFeed (b : Config) : SampleAccumulator → List Raw → Option SampleAccumulator
  | a, [] => some a
  | a, r :: rest =>
    match accAdd b a r with
    | .notYet a' => accFeed b a' rest
    | .done _ _ => none

/-! ### The Matrix engine -/

/-- Rule R28's ranges for one cell, with `idle` false while `On` (rule R122). -/
def CellOk (b : Config) (c : Cell) : Prop :=
  c.pend.toNat < max b.deb 1 ∧ c.icnt.toNat ≤ b.idle ∧ (c.conf = .on → c.idle = false)

/-- One shadow for each pin and one cell for each column and row (rules R29, R30). -/
def MatrixShape (s : State) : Prop :=
  s.colDrive.length = s.build.csize ∧ s.rowMode.length = s.build.rsize ∧
    s.cells.length = s.build.csize * s.build.rsize

/-- The invariant of the Matrix engine, whenever no command is in progress and no fault is raised
(rules R28, R29, R30, R112). -/
def MatrixInv (s : State) : Prop :=
  s.fault = none → MatrixShape s ∧
    (s.mtxLive = true → s.curStrobe < s.build.csize ∧ ∀ c ∈ s.cells, CellOk s.build c)

/-- The matrix is constructed and its state is one that commands leave (rules R27 to R30, R112). -/
structure MatrixReady (s : State) : Prop where
  build   : WellFormedBuild s.build
  inv     : MatrixInv s
  noFault : s.fault = none
  live    : s.mtxLive = true

/-- No column but the strobed one can be active: what stands behind rule R113. -/
def OthersInactive (s : State) : Prop :=
  s.mtxLive = true → ∀ c, c < s.build.csize → c ≠ s.curStrobe → s.colDrive[c]? = some .inactive

/-- The strobed column is active (rule R113). -/
def StrobedActive (s : State) : Prop := s.colDrive[s.curStrobe]? = some .active

/-- Every column is inactive (rule R113). -/
def NoneActive (s : State) : Prop := ∀ c, c < s.build.csize → s.colDrive[c]? = some .inactive

/-- Two states of one build show the same Matrix engine and the same draws of the pin environment to come. -/
def SameMatrix (s s' : State) : Prop :=
  s.build = s'.build ∧ s.mtxLive = s'.mtxLive ∧ s.curStrobe = s'.curStrobe ∧ s.cells = s'.cells ∧
    s.colDrive = s'.colDrive ∧ s.rowMode = s'.rowMode ∧ s.pinDraws = s'.pinDraws ∧ s.freeDraws = s'.freeDraws

/-! ### The draws of the pin environment -/

/-- The draw lets the operation succeed. -/
def drawSucceeds : PinDraw → Bool
  | .succeed _ => true
  | .fail _ => false

/-- The level a row read sees with this draw. -/
def drawLevel : PinDraw → Bool
  | .succeed b => b
  | .fail _ => false

/-- The draw of the `k`-th next pin operation, a listed one or a free one. -/
def drawAt (s : State) (k : Nat) : PinDraw :=
  s.pinDraws.getD k (Config.freeDraw (s.freeDraws + (k - s.pinDraws.length)))

/-- The next `n` pin operations succeed. -/
def AllSucceed (n : Nat) (s : State) : Prop := ∀ k, k < n → drawSucceeds (drawAt s k) = true

/-- The next `k` pin operations succeed, and the one after them fails with `e`. -/
def FirstFailAt (k : Nat) (e : PinError) (s : State) : Prop := AllSucceed k s ∧ drawAt s k = .fail e

/-- The state with the next `n` draws used. -/
def afterDraws (n : Nat) (s : State) : State :=
  { s with pinDraws := s.pinDraws.drop n, freeDraws := s.freeDraws + (n - s.pinDraws.length) }

/-- The trace of operations that were all answered `ok`. -/
def okTrace (ops : List PinOp) : List PinEvent := ops.map fun op => { op := op, answer := .ok }

/-- The answer is an error. -/
def isErr : PinAnswer → Bool
  | .err _ => true
  | .ok => false
  | .level _ => false

/-- The `2 + 3 × RSIZE` pin operations of `MTX_NEXT` in order, from the strobe index `cur` (rule R107). -/
def nextOps (b : Config) (cur : Nat) : List PinOp :=
  .colSet cur .inactive :: (drainOps b ++ [.colSet (nextStrobe b cur) .active])

/-! ### A debounce cell's history -/

/-- What rule R123 counts of a cell's records: whether one has disagreed or flipped since `DEB_RESET`, the agreeing records
since the last that did, and the records since the last flip (or since `DEB_RESET`). -/
structure CellHistory where
  disturbed : Bool
  agreeing  : Nat
  sinceFlip : Nat
  deriving DecidableEq, Repr

/-- The history after one more record of `level` that takes the cell from `c` to `c'`. -/
def CellHistory.next (h : CellHistory) (c c' : Cell) (level : Bool) : CellHistory :=
  { disturbed := h.disturbed || decide (rawState level ≠ c.conf)
    agreeing := if rawState level = c.conf then h.agreeing + 1 else 0
    sinceFlip := if c'.conf = c.conf then h.sinceFlip + 1 else 0 }

/-- A cell and its history after a list of records, and `none` where a counter overflows. -/
def debFeed (b : Config) : Cell → CellHistory → List Bool → Option (Cell × CellHistory)
  | c, h, [] => some (c, h)
  | c, h, level :: rest =>
    match debRecord b c level with
    | none => none
    | some c' => debFeed b c' (h.next c c' level) rest

/-! ### Commands and runs -/

/-- The response codes each command may answer with (rule R64, column "produced by"). -/
def codesOf : Instr → List Nat
  | .snsInit _ => [0, 10]
  | .snsAdd _ _ => [0, 1, 8, 9]
  | .snsGet _ => [2, 8, 9]
  | .mtxInit => [0, 11]
  | .mtxClear => [0, 11]
  | .mtxNext => [3, 11]
  | .mtxSense => [4, 11]
  | .mtxStrobe => [3]

/-- The faults `SNS_ADD` for the sensor `index` may raise (rule R131). -/
def addMayRaise (index : Index) : Fault → Bool
  | .unconstructed engine => decide (engine = .hall)
  | .tableRange _ => true
  | .overflow _ => true
  | .counterOverflow site => decide (site = .sensor index.toNat)

/-- The faults `MTX_SENSE` may raise (rule R131). -/
def senseMayRaise : Fault → Bool
  | .unconstructed engine => decide (engine = .matrix)
  | .tableRange _ => false
  | .overflow _ => false
  | .counterOverflow (.sensor _) => false
  | .counterOverflow (.cell _) => true

/-- The faults each command may raise (rule R131, column "raised by"). -/
def mayRaise (i : Instr) (f : Fault) : Bool :=
  match i with
  | .snsInit _ => false
  | .snsAdd index _ => addMayRaise index f
  | .snsGet _ => decide (f = .unconstructed .hall)
  | .mtxInit => false
  | .mtxClear => decide (f = .unconstructed .matrix)
  | .mtxNext => decide (f = .unconstructed .matrix)
  | .mtxSense => senseMayRaise f
  | .mtxStrobe => decide (f = .unconstructed .matrix)

/-- The command is one of the Hall engine. -/
def isHall : Instr → Bool
  | .snsInit _ => true
  | .snsAdd _ _ => true
  | .snsGet _ => true
  | .mtxInit => false
  | .mtxClear => false
  | .mtxNext => false
  | .mtxSense => false
  | .mtxStrobe => false

/-- A run ends successfully: the host's last command has its response and no fault is raised (rule R155). -/
def EndsSuccessfully (s : State) : Prop := s.hostCmds = [] ∧ s.fault = none

end Sys2Proof.Machine
end

