-- ==== Sys2Proof/Certificates/Slice0/Obligations.lean ====
section
/-! DEFINITION. What is to be proved of the model, stated from the numbered rules of spec/. In every statement about a
next state written as a record update, the fields that the update does not name are unchanged: that is the command's
frame. No statement rests on a value of a free draw: the draws to come are read by `drawAt`, listed or free. -/

open Sys2Proof Sys2Proof.Machine

/-! ### The command word -/

/-- Decoding the encoding of any command gives the command back, every operand at every value (rules R57, R58). -/
def Obligations.DecodeAfterEncodeIsIdentity : Prop := ∀ i : Instr, decode (encode i) = .cmd i

/-- A word that decodes to a command is the only word that does: encoding gives it back (rules R56, R58). -/
def Obligations.EncodeAfterDecodeIsIdentity : Prop := ∀ (w : Word) (i : Instr), decode w = .cmd i → encode i = w

/-- Rule R58: a word spells a row of the opcode map iff it decodes to that row's command, and at most one row matches. -/
def Obligations.DecodeFollowsOpcodeMap : Prop :=
  ∀ w : Word,
    (∀ r ∈ opcodeRows, spells w r = true ↔ ∃ i, decode w = .cmd i ∧ opcodeRow i = r) ∧
      ∀ r ∈ opcodeRows, ∀ r' ∈ opcodeRows, spells w r = true → spells w r' = true → r = r'

/-- Rule R57: the operands of a decoded command are the fields of the word, zero-extended. -/
def Obligations.DecodedOperandsAreWordFields : Prop :=
  ∀ (w : Word) (i : Instr), decode w = .cmd i →
    match i with
    | .snsInit capacity => capacity.toNat = w.toNat % 2 ^ 16
    | .snsAdd index reading => index.toNat = w.toNat / 2 ^ 16 % 2 ^ 12 ∧ reading.toNat = w.toNat % 2 ^ 16
    | .snsGet index => index.toNat = w.toNat / 2 ^ 16 % 2 ^ 12
    | .mtxInit | .mtxClear | .mtxNext | .mtxSense | .mtxStrobe => w.toNat % 2 ^ 28 = 0

/-- Rules R59, R60 and R68: a word is illegal exactly if its `OP` is reserved or a must-be-zero field is nonzero. -/
def Obligations.IllegalExactlyReservedOrNonzero : Prop :=
  ∀ w : Word,
    (∃ r, decode w = .illegal r) ↔
      (w.toNat / 2 ^ 28 = 0 ∨ 9 ≤ w.toNat / 2 ^ 28) ∨
        (w.toNat / 2 ^ 28 = 1 ∧ w.toNat / 2 ^ 16 % 2 ^ 12 ≠ 0) ∨
        (w.toNat / 2 ^ 28 = 3 ∧ w.toNat % 2 ^ 16 ≠ 0) ∨
        (4 ≤ w.toNat / 2 ^ 28 ∧ w.toNat / 2 ^ 28 ≤ 8 ∧ w.toNat % 2 ^ 28 ≠ 0)

/-- Words written out from the encoding, one for each command (95_test_vectors.md V-ENC). -/
def Obligations.SampleWordsDecode : Prop :=
  decode 0x10000004#32 = .cmd (.snsInit 4) ∧ decode 0x200305DC#32 = .cmd (.snsAdd 3 1500) ∧
    decode 0x30020000#32 = .cmd (.snsGet 2) ∧ decode 0x40000000#32 = .cmd .mtxInit ∧
    decode 0x50000000#32 = .cmd .mtxClear ∧ decode 0x60000000#32 = .cmd .mtxNext ∧
    decode 0x70000000#32 = .cmd .mtxSense ∧ decode 0x80000000#32 = .cmd .mtxStrobe

/-- Rules R66 and R67, form by form: a line whose operands fit gives the words that decode to its commands, and one whose
operands do not fit is refused. That a `.word` value of more than 32 bits is refused is the model's choice
(notes/assumptions/17.md). -/
def Obligations.AssembledWordsDecodeToTheLine : Prop :=
  ∀ (b : Config) (n i r : Nat),
    (n ≤ 65535 → ∃ w, asmWords b (.snsInit n) = some [w] ∧ decode w = .cmd (.snsInit (BitVec.ofNat 16 n))) ∧
    (65535 < n → asmWords b (.snsInit n) = none) ∧
    (i ≤ 4095 → r ≤ 65535 → ∃ w, decode w = .cmd (.snsAdd (BitVec.ofNat 12 i) (BitVec.ofNat 16 r)) ∧
      asmWords b (.snsAdd i r) = some [w] ∧ asmWords b (.feed i r) = some (List.replicate b.sc w)) ∧
    (4095 < i ∨ 65535 < r → asmWords b (.snsAdd i r) = none ∧ asmWords b (.feed i r) = none) ∧
    (i ≤ 4095 → ∃ w, asmWords b (.snsGet i) = some [w] ∧ decode w = .cmd (.snsGet (BitVec.ofNat 12 i))) ∧
    (4095 < i → asmWords b (.snsGet i) = none) ∧
    (∃ w, asmWords b .mtxInit = some [w] ∧ decode w = .cmd .mtxInit) ∧
    (∃ w, asmWords b .mtxClear = some [w] ∧ decode w = .cmd .mtxClear) ∧
    (∃ w, asmWords b .mtxNext = some [w] ∧ decode w = .cmd .mtxNext) ∧
    (∃ w, asmWords b .mtxSense = some [w] ∧ decode w = .cmd .mtxSense) ∧
    (∃ w, asmWords b .mtxStrobe = some [w] ∧ decode w = .cmd .mtxStrobe) ∧
    (n < 2 ^ 32 → ∃ w, asmWords b (.word n) = some [w] ∧ w.toNat = n) ∧
    (2 ^ 32 ≤ n → asmWords b (.word n) = none) ∧
    ∃ w w', decode w = .cmd .mtxNext ∧ decode w' = .cmd .mtxSense ∧ asmWords b .scan = some [w, w'] ∧
      asmWords b .scanAll = some (List.replicate b.csize [w, w']).flatten

/-- Rule R62's codes, in its table's order, and the codes of rules R64 and R65. -/
def Obligations.CodesFollowTheTables : Prop :=
  statusCode .notReady = 0 ∧ statusCode .sensorMissing = 1 ∧ statusCode .sensorBroken = 2 ∧
    statusCode .magnetDetected = 3 ∧ statusCode .magnetWrongPoleOrMissing = 4 ∧ statusCode .magnetTooStrong = 5 ∧
    statusCode .magnetTooWeak = 6 ∧ statusCode .invalidIndex = 7 ∧
    pinOpCode .colSet = 0 ∧ pinOpCode .rowOut = 1 ∧ pinOpCode .rowDrive = 2 ∧ pinOpCode .rowIn = 3 ∧
    pinOpCode .rowRead = 4 ∧
    ∀ (a : SenseAnalysis) (d : SenseData) (c : Nat) (ev : List KeyEvent) (op : PinOpKind) (e : PinError),
      responseCode .okNone = 0 ∧ responseCode (.okAnalysis a) = 1 ∧ responseCode (.okRecord d) = 2 ∧
        responseCode (.okIndex c) = 3 ∧ responseCode (.okEvents ev) = 4 ∧ responseCode (.errCalibration d) = 8 ∧
        responseCode .errInvalidSensor = 9 ∧ responseCode .errFailedToResize = 10 ∧
        responseCode (.errIo op c e) = 11 ∧ responseCode .errIllegal = 12

/-! ### A step -/

/-- A step decodes the host's next command word and runs the command it spells, with that word taken (rules R7, R61). -/
def Obligations.StepRunsDecodedCommand : Prop :=
  ∀ (s : State) (w : Word) (rest : List Word) (i : Instr),
    s.build.wf = true → s.fault = none → s.hostCmds = w :: rest → decode w = .cmd i →
      step s = exec i { s with hostCmds := rest }

/-- Rules R61 and R130: an illegal word answers `ERR_ILLEGAL` in every state, constructed or not, and does nothing else. -/
def Obligations.IllegalWordAnswersErrIllegal : Prop :=
  ∀ (s : State) (w : Word) (rest : List Word) (r : Illegal),
    s.build.wf = true → s.fault = none → s.hostCmds = w :: rest → decode w = .illegal r →
      step s = .next { s with hostCmds := rest, responses := s.responses ++ [.errIllegal] }

/-- Rule R11: exactly the builds that break one of its items are refused. -/
def Obligations.ExactlyIllFormedBuildsRefused : Prop :=
  ∀ s : State, step s = .refused .illFormedBuild ↔ ¬ WellFormedBuild s.build

/-- Rules R31 and R133: no step leaves a faulted state, so nothing clears the fault. -/
def Obligations.FaultedBlockTakesNoStep : Prop :=
  ∀ (s : State) (f : Fault), s.fault = some f →
    (s.build.wf = true → step s = .fault f) ∧ ∀ t, step s ≠ .next t

/-- Rule R15: a command of a block that is not faulted ends in exactly one of two ways, one response with a code that
rule R64 gives the command, or one fault that rule R131 gives it. -/
def Obligations.CommandEndsInResponseOrFault : Prop :=
  ∀ (i : Instr) (s : State), s.fault = none → ∃ t, exec i s = .next t ∧
    ((t.fault = none ∧ ∃ r, t.responses = s.responses ++ [r] ∧ responseCode r ∈ codesOf i) ∨
      (∃ f, t.fault = some f ∧ mayRaise i f = true ∧ t.responses = s.responses))

/-- Rules R32 and R50: no step writes a build parameter, and responses and pin events are only ever added at the end. -/
def Obligations.BuildFixedAndHistoryKept : Prop :=
  ∀ s t : State, step s = .next t →
    t.build = s.build ∧ s.responses <+: t.responses ∧ s.pinTrace <+: t.pinTrace

/-- Rules R64 and R155: where a run has ended successfully, each command word issued has been answered by one response. -/
def Obligations.SuccessfulRunAnswersEachCommand : Prop :=
  ∀ (n : Nat) (s t : State), Sys2Proof.core.run n s = .next t → EndsSuccessfully t →
    t.responses.length = s.responses.length + s.hostCmds.length

/-- Rules R7 and R155: a run takes one step for each command word issued, and then it has ended, successfully or in a
fault; steps after the last word change nothing (notes/assumptions/4.md). -/
def Obligations.RunTakesOneStepPerCommand : Prop :=
  ∀ (s : State) (extra : Nat), s.build.wf = true →
    (∃ f, Sys2Proof.core.run (s.hostCmds.length + extra) s = .fault f) ∨
      ∃ t, Sys2Proof.core.run (s.hostCmds.length + extra) s = .next t ∧
        t.hostCmds = [] ∧ (extra ≠ 0 → t.fault = none)

/-! ### Power-on -/

/-- Rule R143: the power-on state of every build. -/
def Obligations.PowerOnState : Prop :=
  ∀ b : Config,
    (State.powerOn b).fault = none ∧ (State.powerOn b).snsLive = false ∧ (State.powerOn b).snsCap = 0 ∧
      (State.powerOn b).mtxLive = false ∧
      (State.powerOn b).colDrive.length = b.csize ∧ (∀ x ∈ (State.powerOn b).colDrive, x = .unknown) ∧
      (State.powerOn b).rowMode.length = b.rsize ∧ ∀ x ∈ (State.powerOn b).rowMode, x = .unknown

/-- The power-on state of a well-formed build meets every invariant stated below, and the model's reset state is the
power-on state of a well-formed build (the build itself is the model's choice, notes/assumptions/1.md). -/
def Obligations.PowerOnMeetsInvariants : Prop :=
  (∀ b : Config, b.wf = true →
    HallInv (State.powerOn b) ∧ MatrixInv (State.powerOn b) ∧ KinInv (State.powerOn b) ∧
      OthersInactive (State.powerOn b)) ∧
    State.reset = State.powerOn State.reset.build ∧ WellFormedBuild State.reset.build

/-- Rule R145, steps 2 and 3: the two constructions may come in either order, and leave the same engines. -/
def Obligations.ConstructionOrderDoesNotMatter : Prop :=
  ∀ (n : BitVec 16) (s t t' u u' : State),
    exec (.snsInit n) s = .next t → exec .mtxInit t = .next u →
    exec .mtxInit s = .next t' → exec (.snsInit n) t' = .next u' →
      SameHall u u' ∧ SameMatrix u u' ∧ u.pinTrace = u'.pinTrace

/-! ### The Hall engine -/

/-- Rule R97: `SNS_INIT` constructs the array with default records, or fails exactly for `n > N_MAX` and leaves the engine
unconstructed; its word holds `OP = 0x1`, `IDX = 0` and the capacity. -/
def Obligations.SnsInitConstructsOrFails : Prop :=
  ∀ (n : BitVec 16) (s : State),
    decode (0x1#4 ++ 0#12 ++ n) = .cmd (.snsInit n) ∧
    (n.toNat ≤ s.build.nMax → ∃ recs, exec (.snsInit n) s = .next
        { s with snsLive := true, snsCap := n.toNat, recs := recs, responses := s.responses ++ [.okNone] } ∧
      recs.length = n.toNat ∧ ∀ d ∈ recs,
        d = { analysis := { raw := 0, distance := 0, velocity := 0, acceleration := 0, jerk := 0 },
              cal := .notReady, acc := { sum := 0, count := 0 }, stats := { min := 0xFFFF, max := 0, samples := 0 } }) ∧
    (s.build.nMax < n.toNat → exec (.snsInit n) s = .next
      { s with snsLive := false, snsCap := 0, recs := [], responses := s.responses ++ [.errFailedToResize] })

/-- A command that reaches an engine that does not exist raises `F_UNCONSTRUCTED`, with no response and no pin operation
(rule R131, first row). -/
def Obligations.UnconstructedEngineFaults : Prop :=
  ∀ (i : Instr) (s : State), (∀ n, i ≠ .snsInit n) → i ≠ .mtxInit →
    (isHall i = true → s.snsLive = false → ∃ t, exec i s = .next t ∧
      t.fault = some (.unconstructed .hall) ∧ t.responses = s.responses ∧ t.pinTrace = s.pinTrace) ∧
    (isHall i = false → s.mtxLive = false → ∃ t, exec i s = .next t ∧
      t.fault = some (.unconstructed .matrix) ∧ t.responses = s.responses ∧ t.pinTrace = s.pinTrace)

/-- Rule R127: `SNS_ADD` and `SNS_GET` with `IDX ≥ sns_cap` answer `ERR_INVALID_SENSOR`, code 9 with no payload, and change
no state. -/
def Obligations.OutOfBoundsSensorRefused : Prop :=
  ∀ (i : Index) (r : Raw) (s : State), s.snsLive = true → s.snsCap ≤ i.toNat →
    exec (.snsAdd i r) s = .next { s with responses := s.responses ++ [.errInvalidSensor] } ∧
      exec (.snsGet i) s = .next { s with responses := s.responses ++ [.errInvalidSensor] } ∧
      responseCode .errInvalidSensor = 9

/-- Rule R96, with rule R94's exact sums: a reading that completes no batch changes nothing but its sensor's accumulator. -/
def Obligations.IncompleteBatchChangesOnlyAccumulator : Prop :=
  ∀ (i : Index) (r : Raw) (s : State),
    WellFormedBuild s.build → HallInv s → s.fault = none → s.snsLive = true → i.toNat < s.snsCap →
    (readRec s i.toNat).acc.count.toNat + 1 ≠ s.build.sc →
    ∃ a : SampleAccumulator,
      exec (.snsAdd i r) s = .next
        { s with
          recs := s.recs.set i.toNat { readRec s i.toNat with acc := a }
          responses := s.responses ++ [.okNone] } ∧
      a.sum.toNat = (readRec s i.toNat).acc.sum.toNat + r.toNat ∧
      a.count.toNat = (readRec s i.toNat).acc.count.toNat + 1

/-- Rules R72 and R77: a completed batch whose status is not `MagnetDetected` counts the batch, resets the statistics,
clears the analysis but for `raw`, and answers `ERR_CALIBRATION` with the record as it then is. -/
def Obligations.UnusableBatchResetsAndReports : Prop :=
  ∀ (i : Index) (r : Raw) (s : State), BatchCompletes s i.toNat →
    (readRec s i.toNat).stats.samples.toNat ≠ 2 ^ 32 - 1 → batchStatus s i.toNat r ≠ .magnetDetected →
    ∃ d : SenseData,
      exec (.snsAdd i r) s = .next
        { s with recs := s.recs.set i.toNat d, responses := s.responses ++ [.errCalibration d] } ∧
      d.cal = batchStatus s i.toNat r ∧
      d.acc.sum.toNat = 0 ∧ d.acc.count.toNat = 0 ∧
      d.stats.min.toNat = 2 ^ 16 - 1 ∧ d.stats.max.toNat = 0 ∧
      d.stats.samples.toNat = (readRec s i.toNat).stats.samples.toNat + 1 ∧
      d.analysis.raw.toNat = batchAverage s i.toNat r ∧
      d.analysis.distance.toInt = 0 ∧ d.analysis.velocity.toInt = 0 ∧
      d.analysis.acceleration.toInt = 0 ∧ d.analysis.jerk.toInt = 0

/-- Rules R71, R78 to R82 and R85: a completed batch whose status is `MagnetDetected`, whose sample is in the table and
whose values fit, replaces the analysis by the differences and answers `OK_ANALYSIS` with it. -/
def Obligations.UsableBatchComputesKinematics : Prop :=
  ∀ (i : Index) (r : Raw) (s : State), BatchCompletes s i.toNat →
    (readRec s i.toNat).stats.samples.toNat ≠ 2 ^ 32 - 1 → batchStatus s i.toNat r = .magnetDetected →
    batchAverage s i.toNat r < tableSize s.build.lin →
    InDist (batchDistance s i.toNat r) → InDist (batchVelocity s i.toNat r) → InDist (batchVelocityDiff s i.toNat r) →
    InDist (batchAcceleration s i.toNat r) → InDist (batchJerk s i.toNat r) →
    ∃ d : SenseData,
      exec (.snsAdd i r) s = .next
        { s with recs := s.recs.set i.toNat d, responses := s.responses ++ [.okAnalysis d.analysis] } ∧
      d.cal = .magnetDetected ∧
      d.acc.sum.toNat = 0 ∧ d.acc.count.toNat = 0 ∧
      d.stats.min.toNat = batchMin s i.toNat r ∧
      d.stats.max.toNat = max (readRec s i.toNat).stats.max.toNat (batchAverage s i.toNat r) ∧
      d.stats.samples.toNat = (readRec s i.toNat).stats.samples.toNat + 1 ∧
      d.analysis.raw.toNat = batchAverage s i.toNat r ∧
      d.analysis.distance.toInt = batchDistance s i.toNat r ∧
      d.analysis.velocity.toInt = batchVelocity s i.toNat r ∧
      d.analysis.acceleration.toInt = batchAcceleration s i.toNat r ∧
      d.analysis.jerk.toInt = batchJerk s i.toNat r

/-- Rules R72, R83 and R132: the counter's overflow comes first, whatever the status; then a sample past the table. -/
def Obligations.BatchCounterAndTableFaults : Prop :=
  ∀ (i : Index) (r : Raw) (s : State), BatchCompletes s i.toNat →
    ((readRec s i.toNat).stats.samples.toNat = 2 ^ 32 - 1 → AddFaults i r s (.counterOverflow (.sensor i.toNat))) ∧
    ((readRec s i.toNat).stats.samples.toNat ≠ 2 ^ 32 - 1 → batchStatus s i.toNat r = .magnetDetected →
      tableSize s.build.lin ≤ batchAverage s i.toNat r → AddFaults i r s (.tableRange (batchAverage s i.toNat r)))

/-- Rule R84: of the five values in the rule's order, the first that is no `sW_DIST` is the overflow raised. An
acceleration always fits where the difference it halves does, so no overflow is ever the acceleration's. -/
def Obligations.FirstKinematicOverflowFaults : Prop :=
  ∀ (i : Index) (r : Raw) (s : State), BatchCompletes s i.toNat →
    (readRec s i.toNat).stats.samples.toNat ≠ 2 ^ 32 - 1 → batchStatus s i.toNat r = .magnetDetected →
    batchAverage s i.toNat r < tableSize s.build.lin →
    (¬ InDist (batchDistance s i.toNat r) → AddFaults i r s (.overflow .distance)) ∧
    (InDist (batchDistance s i.toNat r) → ¬ InDist (batchVelocity s i.toNat r) →
      AddFaults i r s (.overflow .velocity)) ∧
    (InDist (batchDistance s i.toNat r) → InDist (batchVelocity s i.toNat r) →
      ¬ InDist (batchVelocityDiff s i.toNat r) → AddFaults i r s (.overflow .velocityDiff)) ∧
    (InDist (batchVelocityDiff s i.toNat r) → InDist (batchAcceleration s i.toNat r)) ∧
    (InDist (batchDistance s i.toNat r) → InDist (batchVelocity s i.toNat r) →
      InDist (batchVelocityDiff s i.toNat r) → ¬ InDist (batchJerk s i.toNat r) →
      AddFaults i r s (.overflow .jerk))

/-- Rule R99: `SNS_GET` in bounds answers `ERR_CALIBRATION` with the record if its status is `NotReady` and `OK_RECORD` for
every other status, and writes nothing. The record is the one that stands at the index, and it is what `readRec`, which the
statements about `SNS_ADD` read, gives there. -/
def Obligations.SnsGetReadsRecord : Prop :=
  ∀ (i : Index) (s : State) (d : SenseData), s.snsLive = true → i.toNat < s.snsCap → s.recs[i.toNat]? = some d →
    readRec s i.toNat = d ∧
    (d.cal = .notReady → exec (.snsGet i) s = .next { s with responses := s.responses ++ [.errCalibration d] }) ∧
    (d.cal ≠ .notReady → exec (.snsGet i) s = .next { s with responses := s.responses ++ [.okRecord d] })

/-- Rules R73 and R74, test by test in their order, and the range of rule R75. -/
def Obligations.CalNextTable : Prop :=
  ∀ (b : Config) (cur : CalibrationStatus) (s : Nat), 1 ≤ b.mx →
    (cur = .magnetDetected → (b.mx ≤ s + 1 → calNext b cur s = .magnetTooStrong) ∧
      (s + 1 < b.mx → s < b.mmt → calNext b cur s = .magnetTooWeak) ∧
      (s + 1 < b.mx → b.mmt ≤ s → calNext b cur s = .magnetDetected)) ∧
    (cur ≠ .magnetDetected →
      (b.mxok < s → calNext b cur s = if cur = .magnetTooStrong then .magnetTooStrong else .sensorBroken) ∧
      (s ≤ b.mxok → s < b.ns → calNext b cur s = .sensorMissing) ∧
      (s ≤ b.mxok → b.ns ≤ s → s < b.mnok →
        calNext b cur s = if cur = .magnetTooWeak then .magnetTooWeak else .magnetWrongPoleOrMissing) ∧
      (s ≤ b.mxok → b.ns ≤ s → b.mnok ≤ s → calNext b cur s = .magnetDetected)) ∧
    calNext b cur s ≠ .notReady ∧ calNext b cur s ≠ .invalidIndex

/-- Rule R76: outside Normal Mode, `MagnetTooStrong` and `MagnetTooWeak` are kept exactly by the two latches and entered by
nothing else. -/
def Obligations.LatchesAreExact : Prop :=
  ∀ (b : Config) (cur : CalibrationStatus) (s : Nat), cur ≠ .magnetDetected →
    (calNext b cur s = .magnetTooStrong ↔ cur = .magnetTooStrong ∧ b.mxok < s) ∧
      (calNext b cur s = .magnetTooWeak ↔ cur = .magnetTooWeak ∧ b.ns ≤ s ∧ s < b.mnok ∧ s ≤ b.mxok)

/-- Rule R157: from `NotReady`, a strictly increasing ramp of averaged samples gives statuses of the pattern
`SM* WP* (MD+ TS* | SB*)` in an ordered configuration, `SensorBroken` only if no sample lies in `[MNOK, MXOK]`, and once
`MagnetDetected` is entered `MagnetTooStrong` for exactly the samples `≥ MX − 1`. -/
def Obligations.IncreasingRampPattern : Prop :=
  ∀ (b : Config) (ramp : List Nat), OrderedThresholds b → ramp.Pairwise (· < ·) →
    ∃ sm wp md ts sb : Nat, (md = 0 → ts = 0) ∧ (md ≠ 0 → sb = 0) ∧
      (sb ≠ 0 → ∀ x ∈ ramp, x < b.mnok ∨ b.mxok < x) ∧
      (md ≠ 0 → ts = (ramp.filter (b.mx - 1 ≤ ·)).length) ∧
      statuses b .notReady ramp =
        List.replicate sm .sensorMissing ++ List.replicate wp .magnetWrongPoleOrMissing ++
          List.replicate md .magnetDetected ++ List.replicate ts .magnetTooStrong ++
          List.replicate sb .sensorBroken

/-- Rules R91 to R93: `SC` readings from the empty accumulator give nothing before the last, then the floor of their mean,
and leave the accumulator empty again. -/
def Obligations.AccumulatorAveragesEachBatch : Prop :=
  ∀ (b : Config) (readings : List Raw) (last : Raw), WellFormedBuild b → readings.length + 1 = b.sc →
    ∃ a, accFeed b { sum := 0, count := 0 } readings = some a ∧
      ∃ avg, accAdd b a last = .done avg { sum := 0, count := 0 } ∧
        avg.toNat = ((readings.map BitVec.toNat).sum + last.toNat) / b.sc

/-- Rule R86: on every `OK_ANALYSIS` the distance is not negative, whatever the record held before. -/
def Obligations.DistanceNeverNegative : Prop :=
  ∀ (i : Index) (r : Raw) (s t : State) (a : SenseAnalysis), WellFormedBuild s.build →
    exec (.snsAdd i r) s = .next t → t.responses = s.responses ++ [.okAnalysis a] → 0 ≤ a.distance.toInt

/-- Rule R87: the first usable batch after any other status answers an analysis with every kinematic value zero (where its
sample is in the table and its counter is not at its maximum; `BatchCounterAndTableFaults` says what happens otherwise). -/
def Obligations.FirstUsableBatchIsZero : Prop :=
  ∀ (i : Index) (r : Raw) (s : State), BatchCompletes s i.toNat →
    (readRec s i.toNat).stats.samples.toNat ≠ 2 ^ 32 - 1 → (readRec s i.toNat).cal ≠ .magnetDetected →
    batchStatus s i.toNat r = .magnetDetected → batchAverage s i.toNat r < tableSize s.build.lin →
    ∃ (t : State) (a : SenseAnalysis), exec (.snsAdd i r) s = .next t ∧ t.fault = none ∧
      t.responses = s.responses ++ [.okAnalysis a] ∧
      a.raw.toNat = batchAverage s i.toNat r ∧ a.distance.toInt = 0 ∧ a.velocity.toInt = 0 ∧
        a.acceleration.toInt = 0 ∧ a.jerk.toInt = 0

/-- Rule R88: if twice the table's span fits, every step keeps the rule's bounds, and none raises `F_OVERFLOW`. -/
def Obligations.SpanBoundExcludesOverflow : Prop :=
  ∀ s t : State, 2 * span s.build ≤ 2 ^ 31 - 1 → HallInv s → KinInv s → step s = .next t →
    KinInv t ∧ ∀ field, t.fault ≠ some (.overflow field)

/-- Rule R72: every completed batch counts exactly one in its sensor's `samples`, and no command but `SNS_INIT` changes
`samples` otherwise. -/
def Obligations.SamplesCountCompletedBatches : Prop :=
  ∀ (c : Instr) (s t : State) (j : Nat), HallInv s → s.fault = none → (∀ n, c ≠ .snsInit n) → j < s.snsCap →
    exec c s = .next t → t.fault = none →
      (readRec t j).stats.samples.toNat = (readRec s j).stats.samples.toNat +
        match c with
        | .snsAdd i _ => if i.toNat = j ∧ (readRec s j).acc.count.toNat + 1 = s.build.sc then 1 else 0
        | _ => 0

/-- Rule R101: no command but `SNS_INIT` changes the capacity or creates or destroys a record. -/
def Obligations.OnlySnsInitChangesCapacity : Prop :=
  ∀ (c : Instr) (s t : State), (∀ n, c ≠ .snsInit n) → exec c s = .next t → t.fault = none →
    t.snsLive = s.snsLive ∧ t.snsCap = s.snsCap ∧ t.recs.length = s.recs.length

/-- Rule R102: a command addressed to sensor `i` answers by the configuration and `rec[i]` alone, leaves in `rec[i]` what
these determine, and writes nothing but `rec[i]`. -/
def Obligations.SensorsAreIndependent : Prop :=
  ∀ (i : Index) (c : Instr) (s s' t t' : State), ((∃ r, c = .snsAdd i r) ∨ c = .snsGet i) →
    s.build = s'.build → s.snsLive = s'.snsLive → s.snsCap = s'.snsCap → HallShape s → HallShape s' →
    readRec s i.toNat = readRec s' i.toNat → s.fault = s'.fault →
    exec c s = .next t → exec c s' = .next t' →
      t.fault = t'.fault ∧ t.responses.drop s.responses.length = t'.responses.drop s'.responses.length ∧
        (t.fault = none → readRec t i.toNat = readRec t' i.toNat ∧
          ∃ (d : SenseData) (answer : Response),
            t = { s with recs := s.recs.set i.toNat d, responses := s.responses ++ [answer] })

/-- Every step that raises no fault keeps the Hall engine's invariant (rules R19, R25, R26, R100). -/
def Obligations.StepKeepsHallInvariant : Prop := ∀ s t : State, HallInv s → step s = .next t → HallInv t

/-! ### The two engines -/

/-- Rule R49: a command to one engine changes nothing of the other, and a Hall command issues no pin operation. -/
def Obligations.EnginesShareNoState : Prop :=
  ∀ (c : Instr) (s t : State), exec c s = .next t → t.fault = none →
    (isHall c = true → SameMatrix t s ∧ t.pinTrace = s.pinTrace) ∧ (isHall c = false → SameHall t s)

/-- Rule R49: what a command answers, and what it leaves of its engine, depends on its engine alone (for a Matrix command,
with the draws of the pin environment). -/
def Obligations.EnginesDoNotInterfere : Prop :=
  ∀ (c : Instr) (s s' t t' : State), s.fault = s'.fault → exec c s = .next t → exec c s' = .next t' →
    (isHall c = true → SameHall s s' →
      t.fault = t'.fault ∧ t.responses.drop s.responses.length = t'.responses.drop s'.responses.length ∧
        (t.fault = none → SameHall t t')) ∧
    (isHall c = false → SameMatrix s s' →
      t.fault = t'.fault ∧ t.responses.drop s.responses.length = t'.responses.drop s'.responses.length ∧
        t.pinTrace.drop s.pinTrace.length = t'.pinTrace.drop s'.pinTrace.length ∧
        (t.fault = none → SameMatrix t t'))

/-! ### The Matrix engine -/

/-- Rule R103: `MTX_INIT`, in every state: every column is driven inactive in order, and the strobe index, the grid and the
live mark are set; a failing column ends it with `ERR_IO` and leaves the matrix unconstructed, with a strobe index and a
grid of which nothing is said (rule R36). Its word is `OP = 0x4` and zeros. -/
def Obligations.MtxInitConstructsOrFails : Prop :=
  ∀ s : State, s.colDrive.length = s.build.csize →
    decode 0x40000000#32 = .cmd .mtxInit ∧
    (AllSucceed s.build.csize s → ∃ drive grid,
      exec .mtxInit s = .next
        { afterDraws s.build.csize s with
          mtxLive := true, curStrobe := s.build.csize - 1, cells := grid, colDrive := drive
          pinTrace := s.pinTrace ++ okTrace ((List.range s.build.csize).map (.colSet · .inactive))
          responses := s.responses ++ [.okNone] } ∧
      drive = List.replicate s.build.csize .inactive ∧
      grid = List.replicate (s.build.csize * s.build.rsize)
        { conf := .off, pend := 0, cyc := 0, idle := true, icnt := 0 }) ∧
    ∀ c e, c < s.build.csize → FirstFailAt c e s → ∃ drive cur grid,
      exec .mtxInit s = .next
        { afterDraws (c + 1) s with
          mtxLive := false, curStrobe := cur, cells := grid, colDrive := drive
          pinTrace := s.pinTrace ++ okTrace ((List.range c).map (.colSet · .inactive)) ++
            [{ op := .colSet c .inactive, answer := .err e }]
          responses := s.responses ++ [.errIo .colSet c e] } ∧
      drive.length = s.build.csize ∧ ∀ j, j < s.build.csize →
        drive[j]? = if j < c then some .inactive else if j = c then some .unknown else s.colDrive[j]?

/-- Rule R104: `MTX_CLEAR` drives every column inactive in order and resets the strobe index, and leaves the grid alone; a
failing column ends it with `ERR_IO`, the index as it was. -/
def Obligations.MtxClearResetsStrobe : Prop :=
  ∀ s : State, s.mtxLive = true → s.colDrive.length = s.build.csize →
    (AllSucceed s.build.csize s →
      exec .mtxClear s = .next
        { afterDraws s.build.csize s with
          curStrobe := s.build.csize - 1, colDrive := List.replicate s.build.csize .inactive
          pinTrace := s.pinTrace ++ okTrace ((List.range s.build.csize).map (.colSet · .inactive))
          responses := s.responses ++ [.okNone] }) ∧
    ∀ c e, c < s.build.csize → FirstFailAt c e s → ∃ drive,
      exec .mtxClear s = .next
        { afterDraws (c + 1) s with
          colDrive := drive
          pinTrace := s.pinTrace ++ okTrace ((List.range c).map (.colSet · .inactive)) ++
            [{ op := .colSet c .inactive, answer := .err e }]
          responses := s.responses ++ [.errIo .colSet c e] } ∧
      drive.length = s.build.csize ∧ ∀ j, j < s.build.csize →
        drive[j]? = if j < c then some .inactive else if j = c then some .unknown else s.colDrive[j]?

/-- Rules R105 to R107: `MTX_NEXT` with no failure: the old column off, every row drained, the index advanced, the new
column on, and the new index answered. -/
def Obligations.MtxNextAdvancesStrobe : Prop :=
  ∀ s : State, MatrixReady s → AllSucceed (2 + 3 * s.build.rsize) s →
    exec .mtxNext s = .next
      { afterDraws (2 + 3 * s.build.rsize) s with
        curStrobe := (s.curStrobe + 1) % s.build.csize
        colDrive := (s.colDrive.set s.curStrobe .inactive).set ((s.curStrobe + 1) % s.build.csize) .active
        rowMode := List.replicate s.build.rsize .input
        pinTrace := s.pinTrace ++ okTrace
          (.colSet s.curStrobe .inactive ::
            ((List.range s.build.rsize).flatMap (fun r => [.rowOut r, .rowDrive r .inactive, .rowIn r]) ++
              [.colSet ((s.curStrobe + 1) % s.build.csize) .active]))
        responses := s.responses ++ [.okIndex ((s.curStrobe + 1) % s.build.csize)] }

/-- Rule R110 for `MTX_NEXT`: its `k`-th pin operation fails, and what stands before it in the order of rule R107 is done
and nothing after it. The `ERR_IO` names that operation by its own kind and its column or row (rule R65). -/
def Obligations.MtxNextFailureKeepsEarlierSteps : Prop :=
  ∀ (s : State) (k : Nat) (op : PinOp) (e : PinError), MatrixReady s →
    (nextOps s.build s.curStrobe)[k]? = some op → FirstFailAt k e s → ∃ drive mode,
      exec .mtxNext s = .next
        { afterDraws (k + 1) s with
          curStrobe := if k = 3 * s.build.rsize + 1 then (s.curStrobe + 1) % s.build.csize else s.curStrobe
          colDrive := drive, rowMode := mode
          pinTrace := s.pinTrace ++ okTrace ((nextOps s.build s.curStrobe).take k) ++
            [{ op := op, answer := .err e }]
          responses := s.responses ++
            [match op with
              | .colSet c _ => .errIo .colSet c e
              | .rowOut r => .errIo .rowOut r e
              | .rowDrive r _ => .errIo .rowDrive r e
              | .rowIn r => .errIo .rowIn r e
              | .rowRead r => .errIo .rowRead r e] } ∧
      (drive = if k = 0 then s.colDrive.set s.curStrobe .unknown
        else if k = 3 * s.build.rsize + 1 then
          (s.colDrive.set s.curStrobe .inactive).set ((s.curStrobe + 1) % s.build.csize) .unknown
        else s.colDrive.set s.curStrobe .inactive) ∧
      ∀ r, r < s.build.rsize → mode[r]? =
        if 3 * r + 3 < k then some .input else if 3 * r + 1 ≤ k then some .unknown else s.rowMode[r]?

/-- Rules R108 and R114: `MTX_SENSE` with no failure: each row is read in order and recorded into its own cell of the
strobed column, and a row's event is `On` with the cycles or `Off` with the idle flag and the cycles of its cell after the
record (rules R63 and R122). -/
def Obligations.MtxSenseRecordsEachRow : Prop :=
  ∀ (s : State) (cell' : Nat → Cell), MatrixReady s → AllSucceed s.build.rsize s →
    (∀ r, r < s.build.rsize → ∃ c, s.cells[s.curStrobe * s.build.rsize + r]? = some c ∧
      debRecord s.build c (drawLevel (drawAt s r)) = some (cell' r)) →
    ∃ grid,
      exec .mtxSense s = .next
        { afterDraws s.build.rsize s with
          cells := grid
          pinTrace := s.pinTrace ++ (List.range s.build.rsize).map
            (fun r => { op := .rowRead r, answer := .level (drawLevel (drawAt s r)) })
          responses := s.responses ++ [.okEvents ((List.range s.build.rsize).map fun r =>
            if (cell' r).conf = .on then .on (cell' r).cyc else .off (cell' r).idle (cell' r).cyc)] } ∧
      grid.length = s.cells.length ∧
      (∀ r, r < s.build.rsize → grid[s.curStrobe * s.build.rsize + r]? = some (cell' r)) ∧
      ∀ k, (∀ r, r < s.build.rsize → k ≠ s.curStrobe * s.build.rsize + r) → grid[k]? = s.cells[k]?

/-- Rules R110 and R132 for `MTX_SENSE`: the first row whose read fails ends it with `ERR_IO`, the rows before it recorded
and no event returned; the first row whose record overflows its counter faults. -/
def Obligations.MtxSenseStopsAtFirstFailure : Prop :=
  ∀ (s : State) (cell' : Nat → Cell) (n : Nat), MatrixReady s → n < s.build.rsize →
    (∀ r, r < n → ∃ c, s.cells[s.curStrobe * s.build.rsize + r]? = some c ∧
      debRecord s.build c (drawLevel (drawAt s r)) = some (cell' r)) →
    (∀ e, FirstFailAt n e s → ∃ grid,
      exec .mtxSense s = .next
        { afterDraws (n + 1) s with
          cells := grid
          pinTrace := s.pinTrace ++ (List.range n).map
            (fun r => { op := .rowRead r, answer := .level (drawLevel (drawAt s r)) }) ++
            [{ op := .rowRead n, answer := .err e }]
          responses := s.responses ++ [.errIo .rowRead n e] } ∧
      grid.length = s.cells.length ∧
      (∀ r, r < n → grid[s.curStrobe * s.build.rsize + r]? = some (cell' r)) ∧
      ∀ k, (∀ r, r < n → k ≠ s.curStrobe * s.build.rsize + r) → grid[k]? = s.cells[k]?) ∧
    ∀ c, s.cells[s.curStrobe * s.build.rsize + n]? = some c → AllSucceed (n + 1) s →
      debRecord s.build c (drawLevel (drawAt s n)) = none → ∃ t, exec .mtxSense s = .next t ∧
        t.fault = some (.counterOverflow (.cell (s.curStrobe * s.build.rsize + n))) ∧ t.responses = s.responses

/-- Rule R109: `MTX_STROBE` answers the current strobe index and does nothing else. -/
def Obligations.MtxStrobeReadsIndex : Prop :=
  ∀ s : State, s.mtxLive = true →
    exec .mtxStrobe s = .next { s with responses := s.responses ++ [.okIndex s.curStrobe] }

/-- Rule R106: the pre-first position, the successor in both its forms, and that no other index has the successor 0. -/
def Obligations.StrobeSuccessorIsCircular : Prop :=
  ∀ (b : Config) (c : Nat), c < b.csize →
    preFirst b = b.csize - 1 ∧ nextStrobe b c = (if c = b.csize - 1 then 0 else c + 1) ∧
      nextStrobe b c = (c + 1) % b.csize ∧ (nextStrobe b c = 0 ↔ c = b.csize - 1) ∧
      ∀ k : Nat, (nextStrobe b)^[k + 1] (preFirst b) = k % b.csize

/-- Rule R111: the pin shadow after one pin operation, line by line. -/
def Obligations.PinShadowFollowsAnswers : Prop :=
  ∀ (op : PinOp) (s : State),
    match op with
    | .colSet c level => (pinStep op s).rowMode = s.rowMode ∧
        (pinStep op s).colDrive = s.colDrive.set c
          (if drawSucceeds (currentDraw s) then (if level = .active then .active else .inactive) else .unknown)
    | .rowOut r => (pinStep op s).colDrive = s.colDrive ∧
        (pinStep op s).rowMode = s.rowMode.set r (if drawSucceeds (currentDraw s) then .output else .unknown)
    | .rowIn r => (pinStep op s).colDrive = s.colDrive ∧
        (pinStep op s).rowMode = s.rowMode.set r (if drawSucceeds (currentDraw s) then .input else .unknown)
    | .rowDrive r _ => (pinStep op s).colDrive = s.colDrive ∧
        (pinStep op s).rowMode = if drawSucceeds (currentDraw s) then s.rowMode else s.rowMode.set r .unknown
    | .rowRead _ => (pinStep op s).colDrive = s.colDrive ∧ (pinStep op s).rowMode = s.rowMode

/-- Rule R129: an `ERR_IO` names the first pin operation of its command that failed, with its error value, and that
operation is the command's last, named by its own kind and its column or row (rule R65);
a command that answers or faults otherwise had no failing operation. -/
def Obligations.ErrIoReportsFirstFailure : Prop :=
  ∀ (c : Instr) (s t : State), exec c s = .next t → ∃ ev : List PinEvent, t.pinTrace = s.pinTrace ++ ev ∧
    ((∃ kind pin e, t.responses = s.responses ++ [.errIo kind pin e] ∧ isHall c = false ∧
        ∃ pre op, ev = pre ++ [{ op := op, answer := .err e }] ∧
          (match op with
            | .colSet c _ => kind = .colSet ∧ pin = c
            | .rowOut r => kind = .rowOut ∧ pin = r
            | .rowDrive r _ => kind = .rowDrive ∧ pin = r
            | .rowIn r => kind = .rowIn ∧ pin = r
            | .rowRead r => kind = .rowRead ∧ pin = r) ∧
          ∀ x ∈ pre, isErr x.answer = false) ∨
      ((∀ kind pin e, t.responses ≠ s.responses ++ [.errIo kind pin e]) ∧ ∀ x ∈ ev, isErr x.answer = false))

/-- Every step that raises no fault keeps the Matrix engine's invariant: the strobe index in range (rule R112), the cells in
their ranges (rule R28), one shadow for each pin. -/
def Obligations.StepKeepsMatrixInvariant : Prop :=
  ∀ s t : State, MatrixInv s → step s = .next t → MatrixInv t

/-- The condition behind rule R113: but for a failing `MTX_CLEAR`, every command keeps every column but the strobed one
inactive, failing commands included. -/
def Obligations.OtherColumnsStayInactive : Prop :=
  ∀ (c : Instr) (s t : State), WellFormedBuild s.build → MatrixInv s → OthersInactive s → s.fault = none →
    exec c s = .next t →
    (c = .mtxClear → t.responses = s.responses ++ [.okNone]) → t.fault = none → OthersInactive t

/-- Rule R113: after a successful `MTX_NEXT` the strobed column is the one active column; right after a successful
`MTX_INIT` or `MTX_CLEAR` none is. -/
def Obligations.OneActiveColumn : Prop :=
  ∀ s t : State, WellFormedBuild s.build → MatrixInv s → s.fault = none →
    (exec .mtxNext s = .next t → OthersInactive s → ∀ n, t.responses = s.responses ++ [.okIndex n] →
      n = t.curStrobe ∧ StrobedActive t ∧ OthersInactive t) ∧
    (exec .mtxInit s = .next t → t.responses = s.responses ++ [.okNone] → NoneActive t ∧ t.mtxLive = true) ∧
    (exec .mtxClear s = .next t → t.responses = s.responses ++ [.okNone] → NoneActive t ∧ t.mtxLive = true)

/-! ### The debouncer

Every statement of this part is about the spec's own reconstruction of the debouncer, which the model follows
(44_debouncer.md rule R124, D16; notes/assumptions/13.md); none says anything of the original firmware. -/

/-- Rule R119: a record changes the confirmed state exactly if it disagrees and brings the evidence to `max(DEB, 1)`.
Rule R116: a level `true` is `On`, and `false` is `Off`.
The algorithm is the reconstruction of rule R124 (notes/assumptions/13.md). -/
def Obligations.FlipExactlyAtDebounce : Prop :=
  rawState true = .on ∧ rawState false = .off ∧
  ∀ (b : Config) (c c' : Cell) (level : Bool), debRecord b c level = some c' →
    (c'.conf ≠ c.conf ↔ rawState level ≠ c.conf ∧ max b.deb 1 ≤ c.pend.toNat + 1) ∧
      (c'.conf ≠ c.conf → c'.conf = rawState level ∧ c'.pend.toNat = 0 ∧ c'.cyc.toNat = 0 ∧ c'.idle = false ∧
        c'.icnt.toNat = 0)

/-- Rule R123 (a): a run of disagreeing records flips the cell exactly once, on the `max(DEB, 1)`-th, and leaves it so.
The algorithm is the reconstruction of rule R124 (notes/assumptions/13.md). -/
def Obligations.StableLevelFlipsOnce : Prop :=
  ∀ (b : Config) (c : Cell) (h : CellHistory) (level : Bool) (n : Nat), b.deb ≤ 2 ^ 32 - 1 →
    c.pend.toNat = 0 → rawState level ≠ c.conf → c.cyc.toNat + max b.deb 1 ≤ 2 ^ 32 - 1 → n ≤ 2 ^ 32 - 1 →
    (n < max b.deb 1 → ∃ c' h', debFeed b c h (List.replicate n level) = some (c', h') ∧
      c'.conf = c.conf ∧ c'.pend.toNat = n) ∧
    ∃ c' h', debFeed b c h (List.replicate (max b.deb 1 + n) level) = some (c', h') ∧
      c'.conf = rawState level ∧ c'.cyc.toNat = n ∧ h'.sinceFlip = n

/-- Rule R123 (b): fewer than `max(DEB, 1)` disagreeing records and then an agreeing one cause no flip and leave no
evidence.
The algorithm is the reconstruction of rule R124 (notes/assumptions/13.md). -/
def Obligations.ShortBounceIsForgotten : Prop :=
  ∀ (b : Config) (c : Cell) (h : CellHistory) (level : Bool) (n : Nat), b.deb ≤ 2 ^ 32 - 1 →
    c.pend.toNat = 0 → rawState level ≠ c.conf → n < max b.deb 1 → c.cyc.toNat + n < 2 ^ 32 - 1 →
    ∃ c' h', debFeed b c h (List.replicate n level ++ [!level]) = some (c', h') ∧
      c'.conf = c.conf ∧ c'.pend.toNat = 0 ∧ c'.cyc.toNat = c.cyc.toNat + n + 1

/-- Rule R123 (c) and (d): after any records from `DEB_RESET`, `idle` and `cyc` are what the history of the records says.
The algorithm is the reconstruction of rule R124 (notes/assumptions/13.md). -/
def Obligations.IdleAndCyclesFollowHistory : Prop :=
  ∀ (b : Config) (levels : List Bool) (c : Cell) (h : CellHistory),
    b.deb ≤ 2 ^ 32 - 1 → b.idle ≤ 2 ^ 32 - 1 →
    debFeed b debReset { disturbed := false, agreeing := 0, sinceFlip := 0 } levels = some (c, h) →
      (c.idle = true ↔ c.conf = .off ∧ (h.disturbed = false ∨ max b.idle 1 ≤ h.agreeing)) ∧
        c.cyc.toNat = h.sinceFlip

/-- Rules R117 and R121: a record overflows exactly if the cell does not flip and its counter stands at its maximum.
The algorithm is the reconstruction of rule R124 (notes/assumptions/13.md). -/
def Obligations.CycleCounterOverflowsExactly : Prop :=
  ∀ (b : Config) (c : Cell) (level : Bool),
    debRecord b c level = none ↔
      c.cyc.toNat = 2 ^ 32 - 1 ∧ ¬ (rawState level ≠ c.conf ∧ max b.deb 1 ≤ c.pend.toNat + 1)

/-! ### The linearization table -/

/-- Rules R8 and R42: `LIN[x]` exists exactly for `x < TABLE_SIZE`, and it is the entry that the build writes there. How a
build writes its entries, as stretches laid end to end, is the model's choice (notes/assumptions/2.md). -/
def Obligations.TableReadsItsEntries : Prop :=
  ∀ table : List LinSeg,
    tableSize table = (table.map LinSeg.len).sum ∧
      (∀ x, (∃ v, linEntry table x = some v) ↔ x < tableSize table) ∧
      ∀ (before after : List LinSeg) (g : LinSeg) (k : Nat), table = before ++ g :: after → k < g.len →
        linEntry table (tableSize before + k) = some (g.start + ((k * g.rise / g.run : Nat) : Int))
end

