-- ==== Sys2Proof/Laws/State.lean ====
section
/-! SUPPORT. One lemma for each field after each update of the state, so that no proof unfolds a record update. -/

namespace Sys2Proof.Machine

/-! ### `respond` -/

@[simp] theorem respond_build (r : Response) (s : State) :
    (respond r s).build = s.build := rfl
@[simp] theorem respond_snsLive (r : Response) (s : State) :
    (respond r s).snsLive = s.snsLive := rfl
@[simp] theorem respond_snsCap (r : Response) (s : State) :
    (respond r s).snsCap = s.snsCap := rfl
@[simp] theorem respond_recs (r : Response) (s : State) :
    (respond r s).recs = s.recs := rfl
@[simp] theorem respond_mtxLive (r : Response) (s : State) :
    (respond r s).mtxLive = s.mtxLive := rfl
@[simp] theorem respond_curStrobe (r : Response) (s : State) :
    (respond r s).curStrobe = s.curStrobe := rfl
@[simp] theorem respond_cells (r : Response) (s : State) :
    (respond r s).cells = s.cells := rfl
@[simp] theorem respond_colDrive (r : Response) (s : State) :
    (respond r s).colDrive = s.colDrive := rfl
@[simp] theorem respond_rowMode (r : Response) (s : State) :
    (respond r s).rowMode = s.rowMode := rfl
@[simp] theorem respond_fault (r : Response) (s : State) :
    (respond r s).fault = s.fault := rfl
@[simp] theorem respond_hostCmds (r : Response) (s : State) :
    (respond r s).hostCmds = s.hostCmds := rfl
@[simp] theorem respond_responses (r : Response) (s : State) :
    (respond r s).responses = s.responses ++ [r] := rfl
@[simp] theorem respond_pinDraws (r : Response) (s : State) :
    (respond r s).pinDraws = s.pinDraws := rfl
@[simp] theorem respond_freeDraws (r : Response) (s : State) :
    (respond r s).freeDraws = s.freeDraws := rfl
@[simp] theorem respond_pinTrace (r : Response) (s : State) :
    (respond r s).pinTrace = s.pinTrace := rfl

/-! ### `raise` -/

@[simp] theorem raise_build (f : Fault) (s : State) :
    (raise f s).build = s.build := rfl
@[simp] theorem raise_snsLive (f : Fault) (s : State) :
    (raise f s).snsLive = s.snsLive := rfl
@[simp] theorem raise_snsCap (f : Fault) (s : State) :
    (raise f s).snsCap = s.snsCap := rfl
@[simp] theorem raise_recs (f : Fault) (s : State) :
    (raise f s).recs = s.recs := rfl
@[simp] theorem raise_mtxLive (f : Fault) (s : State) :
    (raise f s).mtxLive = s.mtxLive := rfl
@[simp] theorem raise_curStrobe (f : Fault) (s : State) :
    (raise f s).curStrobe = s.curStrobe := rfl
@[simp] theorem raise_cells (f : Fault) (s : State) :
    (raise f s).cells = s.cells := rfl
@[simp] theorem raise_colDrive (f : Fault) (s : State) :
    (raise f s).colDrive = s.colDrive := rfl
@[simp] theorem raise_rowMode (f : Fault) (s : State) :
    (raise f s).rowMode = s.rowMode := rfl
@[simp] theorem raise_fault (f : Fault) (s : State) :
    (raise f s).fault = some f := rfl
@[simp] theorem raise_hostCmds (f : Fault) (s : State) :
    (raise f s).hostCmds = s.hostCmds := rfl
@[simp] theorem raise_responses (f : Fault) (s : State) :
    (raise f s).responses = s.responses := rfl
@[simp] theorem raise_pinDraws (f : Fault) (s : State) :
    (raise f s).pinDraws = s.pinDraws := rfl
@[simp] theorem raise_freeDraws (f : Fault) (s : State) :
    (raise f s).freeDraws = s.freeDraws := rfl
@[simp] theorem raise_pinTrace (f : Fault) (s : State) :
    (raise f s).pinTrace = s.pinTrace := rfl

/-! ### `issueNext` -/

@[simp] theorem issueNext_build (w : Word) (s : State) :
    (issueNext w s).build = s.build := rfl
@[simp] theorem issueNext_snsLive (w : Word) (s : State) :
    (issueNext w s).snsLive = s.snsLive := rfl
@[simp] theorem issueNext_snsCap (w : Word) (s : State) :
    (issueNext w s).snsCap = s.snsCap := rfl
@[simp] theorem issueNext_recs (w : Word) (s : State) :
    (issueNext w s).recs = s.recs := rfl
@[simp] theorem issueNext_mtxLive (w : Word) (s : State) :
    (issueNext w s).mtxLive = s.mtxLive := rfl
@[simp] theorem issueNext_curStrobe (w : Word) (s : State) :
    (issueNext w s).curStrobe = s.curStrobe := rfl
@[simp] theorem issueNext_cells (w : Word) (s : State) :
    (issueNext w s).cells = s.cells := rfl
@[simp] theorem issueNext_colDrive (w : Word) (s : State) :
    (issueNext w s).colDrive = s.colDrive := rfl
@[simp] theorem issueNext_rowMode (w : Word) (s : State) :
    (issueNext w s).rowMode = s.rowMode := rfl
@[simp] theorem issueNext_fault (w : Word) (s : State) :
    (issueNext w s).fault = s.fault := rfl
@[simp] theorem issueNext_hostCmds (w : Word) (s : State) :
    (issueNext w s).hostCmds = w :: s.hostCmds := rfl
@[simp] theorem issueNext_responses (w : Word) (s : State) :
    (issueNext w s).responses = s.responses := rfl
@[simp] theorem issueNext_pinDraws (w : Word) (s : State) :
    (issueNext w s).pinDraws = s.pinDraws := rfl
@[simp] theorem issueNext_freeDraws (w : Word) (s : State) :
    (issueNext w s).freeDraws = s.freeDraws := rfl
@[simp] theorem issueNext_pinTrace (w : Word) (s : State) :
    (issueNext w s).pinTrace = s.pinTrace := rfl

/-! ### `writeRec` -/

@[simp] theorem writeRec_build (i : Nat) (d : SenseData) (s : State) :
    (writeRec i d s).build = s.build := rfl
@[simp] theorem writeRec_snsLive (i : Nat) (d : SenseData) (s : State) :
    (writeRec i d s).snsLive = s.snsLive := rfl
@[simp] theorem writeRec_snsCap (i : Nat) (d : SenseData) (s : State) :
    (writeRec i d s).snsCap = s.snsCap := rfl
@[simp] theorem writeRec_recs (i : Nat) (d : SenseData) (s : State) :
    (writeRec i d s).recs = s.recs.set i d := rfl
@[simp] theorem writeRec_mtxLive (i : Nat) (d : SenseData) (s : State) :
    (writeRec i d s).mtxLive = s.mtxLive := rfl
@[simp] theorem writeRec_curStrobe (i : Nat) (d : SenseData) (s : State) :
    (writeRec i d s).curStrobe = s.curStrobe := rfl
@[simp] theorem writeRec_cells (i : Nat) (d : SenseData) (s : State) :
    (writeRec i d s).cells = s.cells := rfl
@[simp] theorem writeRec_colDrive (i : Nat) (d : SenseData) (s : State) :
    (writeRec i d s).colDrive = s.colDrive := rfl
@[simp] theorem writeRec_rowMode (i : Nat) (d : SenseData) (s : State) :
    (writeRec i d s).rowMode = s.rowMode := rfl
@[simp] theorem writeRec_fault (i : Nat) (d : SenseData) (s : State) :
    (writeRec i d s).fault = s.fault := rfl
@[simp] theorem writeRec_hostCmds (i : Nat) (d : SenseData) (s : State) :
    (writeRec i d s).hostCmds = s.hostCmds := rfl
@[simp] theorem writeRec_responses (i : Nat) (d : SenseData) (s : State) :
    (writeRec i d s).responses = s.responses := rfl
@[simp] theorem writeRec_pinDraws (i : Nat) (d : SenseData) (s : State) :
    (writeRec i d s).pinDraws = s.pinDraws := rfl
@[simp] theorem writeRec_freeDraws (i : Nat) (d : SenseData) (s : State) :
    (writeRec i d s).freeDraws = s.freeDraws := rfl
@[simp] theorem writeRec_pinTrace (i : Nat) (d : SenseData) (s : State) :
    (writeRec i d s).pinTrace = s.pinTrace := rfl

/-! ### `writeCell` -/

@[simp] theorem writeCell_build (k : Nat) (c : Cell) (s : State) :
    (writeCell k c s).build = s.build := rfl
@[simp] theorem writeCell_snsLive (k : Nat) (c : Cell) (s : State) :
    (writeCell k c s).snsLive = s.snsLive := rfl
@[simp] theorem writeCell_snsCap (k : Nat) (c : Cell) (s : State) :
    (writeCell k c s).snsCap = s.snsCap := rfl
@[simp] theorem writeCell_recs (k : Nat) (c : Cell) (s : State) :
    (writeCell k c s).recs = s.recs := rfl
@[simp] theorem writeCell_mtxLive (k : Nat) (c : Cell) (s : State) :
    (writeCell k c s).mtxLive = s.mtxLive := rfl
@[simp] theorem writeCell_curStrobe (k : Nat) (c : Cell) (s : State) :
    (writeCell k c s).curStrobe = s.curStrobe := rfl
@[simp] theorem writeCell_cells (k : Nat) (c : Cell) (s : State) :
    (writeCell k c s).cells = s.cells.set k c := rfl
@[simp] theorem writeCell_colDrive (k : Nat) (c : Cell) (s : State) :
    (writeCell k c s).colDrive = s.colDrive := rfl
@[simp] theorem writeCell_rowMode (k : Nat) (c : Cell) (s : State) :
    (writeCell k c s).rowMode = s.rowMode := rfl
@[simp] theorem writeCell_fault (k : Nat) (c : Cell) (s : State) :
    (writeCell k c s).fault = s.fault := rfl
@[simp] theorem writeCell_hostCmds (k : Nat) (c : Cell) (s : State) :
    (writeCell k c s).hostCmds = s.hostCmds := rfl
@[simp] theorem writeCell_responses (k : Nat) (c : Cell) (s : State) :
    (writeCell k c s).responses = s.responses := rfl
@[simp] theorem writeCell_pinDraws (k : Nat) (c : Cell) (s : State) :
    (writeCell k c s).pinDraws = s.pinDraws := rfl
@[simp] theorem writeCell_freeDraws (k : Nat) (c : Cell) (s : State) :
    (writeCell k c s).freeDraws = s.freeDraws := rfl
@[simp] theorem writeCell_pinTrace (k : Nat) (c : Cell) (s : State) :
    (writeCell k c s).pinTrace = s.pinTrace := rfl

/-! ### `consumeDraw` -/

@[simp] theorem consumeDraw_build (s : State) :
    (consumeDraw s).build = s.build := rfl
@[simp] theorem consumeDraw_snsLive (s : State) :
    (consumeDraw s).snsLive = s.snsLive := rfl
@[simp] theorem consumeDraw_snsCap (s : State) :
    (consumeDraw s).snsCap = s.snsCap := rfl
@[simp] theorem consumeDraw_recs (s : State) :
    (consumeDraw s).recs = s.recs := rfl
@[simp] theorem consumeDraw_mtxLive (s : State) :
    (consumeDraw s).mtxLive = s.mtxLive := rfl
@[simp] theorem consumeDraw_curStrobe (s : State) :
    (consumeDraw s).curStrobe = s.curStrobe := rfl
@[simp] theorem consumeDraw_cells (s : State) :
    (consumeDraw s).cells = s.cells := rfl
@[simp] theorem consumeDraw_colDrive (s : State) :
    (consumeDraw s).colDrive = s.colDrive := rfl
@[simp] theorem consumeDraw_rowMode (s : State) :
    (consumeDraw s).rowMode = s.rowMode := rfl
@[simp] theorem consumeDraw_fault (s : State) :
    (consumeDraw s).fault = s.fault := rfl
@[simp] theorem consumeDraw_hostCmds (s : State) :
    (consumeDraw s).hostCmds = s.hostCmds := rfl
@[simp] theorem consumeDraw_responses (s : State) :
    (consumeDraw s).responses = s.responses := rfl
@[simp] theorem consumeDraw_pinDraws (s : State) :
    (consumeDraw s).pinDraws = s.pinDraws.tail := rfl
@[simp] theorem consumeDraw_freeDraws (s : State) :
    (consumeDraw s).freeDraws = if s.pinDraws.isEmpty then s.freeDraws + 1 else s.freeDraws := rfl
@[simp] theorem consumeDraw_pinTrace (s : State) :
    (consumeDraw s).pinTrace = s.pinTrace := rfl

/-! ### `logPin` -/

@[simp] theorem logPin_build (op : PinOp) (d : PinDraw) (s : State) :
    (logPin op d s).build = s.build := rfl
@[simp] theorem logPin_snsLive (op : PinOp) (d : PinDraw) (s : State) :
    (logPin op d s).snsLive = s.snsLive := rfl
@[simp] theorem logPin_snsCap (op : PinOp) (d : PinDraw) (s : State) :
    (logPin op d s).snsCap = s.snsCap := rfl
@[simp] theorem logPin_recs (op : PinOp) (d : PinDraw) (s : State) :
    (logPin op d s).recs = s.recs := rfl
@[simp] theorem logPin_mtxLive (op : PinOp) (d : PinDraw) (s : State) :
    (logPin op d s).mtxLive = s.mtxLive := rfl
@[simp] theorem logPin_curStrobe (op : PinOp) (d : PinDraw) (s : State) :
    (logPin op d s).curStrobe = s.curStrobe := rfl
@[simp] theorem logPin_cells (op : PinOp) (d : PinDraw) (s : State) :
    (logPin op d s).cells = s.cells := rfl
@[simp] theorem logPin_colDrive (op : PinOp) (d : PinDraw) (s : State) :
    (logPin op d s).colDrive = s.colDrive := rfl
@[simp] theorem logPin_rowMode (op : PinOp) (d : PinDraw) (s : State) :
    (logPin op d s).rowMode = s.rowMode := rfl
@[simp] theorem logPin_fault (op : PinOp) (d : PinDraw) (s : State) :
    (logPin op d s).fault = s.fault := rfl
@[simp] theorem logPin_hostCmds (op : PinOp) (d : PinDraw) (s : State) :
    (logPin op d s).hostCmds = s.hostCmds := rfl
@[simp] theorem logPin_responses (op : PinOp) (d : PinDraw) (s : State) :
    (logPin op d s).responses = s.responses := rfl
@[simp] theorem logPin_pinDraws (op : PinOp) (d : PinDraw) (s : State) :
    (logPin op d s).pinDraws = s.pinDraws := rfl
@[simp] theorem logPin_freeDraws (op : PinOp) (d : PinDraw) (s : State) :
    (logPin op d s).freeDraws = s.freeDraws := rfl
@[simp] theorem logPin_pinTrace (op : PinOp) (d : PinDraw) (s : State) :
    (logPin op d s).pinTrace = s.pinTrace ++ [{ op := op, answer := answerOf op d }] := rfl

/-! ### `afterDraws` -/

@[simp] theorem afterDraws_build (n : Nat) (s : State) :
    (afterDraws n s).build = s.build := rfl
@[simp] theorem afterDraws_snsLive (n : Nat) (s : State) :
    (afterDraws n s).snsLive = s.snsLive := rfl
@[simp] theorem afterDraws_snsCap (n : Nat) (s : State) :
    (afterDraws n s).snsCap = s.snsCap := rfl
@[simp] theorem afterDraws_recs (n : Nat) (s : State) :
    (afterDraws n s).recs = s.recs := rfl
@[simp] theorem afterDraws_mtxLive (n : Nat) (s : State) :
    (afterDraws n s).mtxLive = s.mtxLive := rfl
@[simp] theorem afterDraws_curStrobe (n : Nat) (s : State) :
    (afterDraws n s).curStrobe = s.curStrobe := rfl
@[simp] theorem afterDraws_cells (n : Nat) (s : State) :
    (afterDraws n s).cells = s.cells := rfl
@[simp] theorem afterDraws_colDrive (n : Nat) (s : State) :
    (afterDraws n s).colDrive = s.colDrive := rfl
@[simp] theorem afterDraws_rowMode (n : Nat) (s : State) :
    (afterDraws n s).rowMode = s.rowMode := rfl
@[simp] theorem afterDraws_fault (n : Nat) (s : State) :
    (afterDraws n s).fault = s.fault := rfl
@[simp] theorem afterDraws_hostCmds (n : Nat) (s : State) :
    (afterDraws n s).hostCmds = s.hostCmds := rfl
@[simp] theorem afterDraws_responses (n : Nat) (s : State) :
    (afterDraws n s).responses = s.responses := rfl
@[simp] theorem afterDraws_pinDraws (n : Nat) (s : State) :
    (afterDraws n s).pinDraws = s.pinDraws.drop n := rfl
@[simp] theorem afterDraws_freeDraws (n : Nat) (s : State) :
    (afterDraws n s).freeDraws = s.freeDraws + (n - s.pinDraws.length) := rfl
@[simp] theorem afterDraws_pinTrace (n : Nat) (s : State) :
    (afterDraws n s).pinTrace = s.pinTrace := rfl

/-! ### `shadowAfter` and `pinStep` -/

@[simp] theorem shadowAfter_build (op : PinOp) (d : PinDraw) (s : State) :
    (shadowAfter op d s).build = s.build := by cases op <;> cases d <;> rfl
@[simp] theorem shadowAfter_snsLive (op : PinOp) (d : PinDraw) (s : State) :
    (shadowAfter op d s).snsLive = s.snsLive := by cases op <;> cases d <;> rfl
@[simp] theorem shadowAfter_snsCap (op : PinOp) (d : PinDraw) (s : State) :
    (shadowAfter op d s).snsCap = s.snsCap := by cases op <;> cases d <;> rfl
@[simp] theorem shadowAfter_recs (op : PinOp) (d : PinDraw) (s : State) :
    (shadowAfter op d s).recs = s.recs := by cases op <;> cases d <;> rfl
@[simp] theorem shadowAfter_mtxLive (op : PinOp) (d : PinDraw) (s : State) :
    (shadowAfter op d s).mtxLive = s.mtxLive := by cases op <;> cases d <;> rfl
@[simp] theorem shadowAfter_curStrobe (op : PinOp) (d : PinDraw) (s : State) :
    (shadowAfter op d s).curStrobe = s.curStrobe := by cases op <;> cases d <;> rfl
@[simp] theorem shadowAfter_cells (op : PinOp) (d : PinDraw) (s : State) :
    (shadowAfter op d s).cells = s.cells := by cases op <;> cases d <;> rfl
@[simp] theorem shadowAfter_fault (op : PinOp) (d : PinDraw) (s : State) :
    (shadowAfter op d s).fault = s.fault := by cases op <;> cases d <;> rfl
@[simp] theorem shadowAfter_hostCmds (op : PinOp) (d : PinDraw) (s : State) :
    (shadowAfter op d s).hostCmds = s.hostCmds := by cases op <;> cases d <;> rfl
@[simp] theorem shadowAfter_responses (op : PinOp) (d : PinDraw) (s : State) :
    (shadowAfter op d s).responses = s.responses := by cases op <;> cases d <;> rfl
@[simp] theorem shadowAfter_pinDraws (op : PinOp) (d : PinDraw) (s : State) :
    (shadowAfter op d s).pinDraws = s.pinDraws := by cases op <;> cases d <;> rfl
@[simp] theorem shadowAfter_freeDraws (op : PinOp) (d : PinDraw) (s : State) :
    (shadowAfter op d s).freeDraws = s.freeDraws := by cases op <;> cases d <;> rfl
@[simp] theorem shadowAfter_pinTrace (op : PinOp) (d : PinDraw) (s : State) :
    (shadowAfter op d s).pinTrace = s.pinTrace := by cases op <;> cases d <;> rfl
@[simp] theorem pinStep_build (op : PinOp) (s : State) :
    (pinStep op s).build = s.build := by simp [pinStep]
@[simp] theorem pinStep_snsLive (op : PinOp) (s : State) :
    (pinStep op s).snsLive = s.snsLive := by simp [pinStep]
@[simp] theorem pinStep_snsCap (op : PinOp) (s : State) :
    (pinStep op s).snsCap = s.snsCap := by simp [pinStep]
@[simp] theorem pinStep_recs (op : PinOp) (s : State) :
    (pinStep op s).recs = s.recs := by simp [pinStep]
@[simp] theorem pinStep_mtxLive (op : PinOp) (s : State) :
    (pinStep op s).mtxLive = s.mtxLive := by simp [pinStep]
@[simp] theorem pinStep_curStrobe (op : PinOp) (s : State) :
    (pinStep op s).curStrobe = s.curStrobe := by simp [pinStep]
@[simp] theorem pinStep_cells (op : PinOp) (s : State) :
    (pinStep op s).cells = s.cells := by simp [pinStep]
@[simp] theorem pinStep_fault (op : PinOp) (s : State) :
    (pinStep op s).fault = s.fault := by simp [pinStep]
@[simp] theorem pinStep_hostCmds (op : PinOp) (s : State) :
    (pinStep op s).hostCmds = s.hostCmds := by simp [pinStep]
@[simp] theorem pinStep_responses (op : PinOp) (s : State) :
    (pinStep op s).responses = s.responses := by simp [pinStep]
@[simp] theorem pinStep_pinDraws (op : PinOp) (s : State) :
    (pinStep op s).pinDraws = s.pinDraws.tail := by simp [pinStep]
@[simp] theorem pinStep_freeDraws (op : PinOp) (s : State) :
    (pinStep op s).freeDraws = if s.pinDraws.isEmpty then s.freeDraws + 1 else s.freeDraws := by simp [pinStep]
@[simp] theorem pinStep_pinTrace (op : PinOp) (s : State) :
    (pinStep op s).pinTrace = s.pinTrace ++ [{ op := op, answer := answerOf op (currentDraw s) }] := by simp [pinStep]

/-- The columns after a pin operation (rule R111). -/
theorem pinStep_colDrive (op : PinOp) (s : State) :
    (pinStep op s).colDrive = match op, currentDraw s with
      | .colSet c level, .succeed _ => s.colDrive.set c (driveOf level)
      | .colSet c _, .fail _ => s.colDrive.set c .unknown
      | _, _ => s.colDrive := by
  unfold pinStep
  cases op <;> cases currentDraw s <;> rfl

/-- The rows after a pin operation (rule R111). -/
theorem pinStep_rowMode (op : PinOp) (s : State) :
    (pinStep op s).rowMode = match op, currentDraw s with
      | .rowOut r, .succeed _ => s.rowMode.set r .output
      | .rowIn r, .succeed _ => s.rowMode.set r .input
      | .rowOut r, .fail _ => s.rowMode.set r .unknown
      | .rowDrive r _, .fail _ => s.rowMode.set r .unknown
      | .rowIn r, .fail _ => s.rowMode.set r .unknown
      | _, _ => s.rowMode := by
  unfold pinStep
  cases op <;> cases currentDraw s <;> rfl

@[simp] theorem pinStep_colDrive_length (op : PinOp) (s : State) :
    (pinStep op s).colDrive.length = s.colDrive.length := by
  rw [pinStep_colDrive]
  split <;> simp

@[simp] theorem pinStep_rowMode_length (op : PinOp) (s : State) :
    (pinStep op s).rowMode.length = s.rowMode.length := by
  rw [pinStep_rowMode]
  split <;> simp

/-! ### Reads -/

@[simp] theorem readRec_respond (r : Response) (s : State) (i : Nat) : readRec (respond r s) i = readRec s i := rfl
@[simp] theorem readRec_raise (f : Fault) (s : State) (i : Nat) : readRec (raise f s) i = readRec s i := rfl
@[simp] theorem readCell_respond (r : Response) (s : State) (k : Nat) : readCell (respond r s) k = readCell s k := rfl
@[simp] theorem readCell_raise (f : Fault) (s : State) (k : Nat) : readCell (raise f s) k = readCell s k := rfl
@[simp] theorem readCell_pinStep (op : PinOp) (s : State) (k : Nat) : readCell (pinStep op s) k = readCell s k := by
  simp [readCell]

/-- Reading a record that was just written gives what was written. -/
@[simp] theorem readRec_writeRec_self (i : Nat) (d : SenseData) (s : State) (h : i < s.recs.length) :
    readRec (writeRec i d s) i = d := by simp [readRec, h]

/-- Writing a record leaves every other record alone (rule R102). -/
theorem readRec_writeRec_other (i j : Nat) (d : SenseData) (s : State) (h : j ≠ i) :
    readRec (writeRec i d s) j = readRec s j := by
  simp [readRec, List.getD_eq_getElem?_getD, Ne.symm h]

/-- Reading a cell that was just written gives what was written. -/
@[simp] theorem readCell_writeCell_self (k : Nat) (c : Cell) (s : State) (h : k < s.cells.length) :
    readCell (writeCell k c s) k = c := by simp [readCell, h]

/-- Writing a cell leaves every other cell alone (rule R114). -/
theorem readCell_writeCell_other (k j : Nat) (c : Cell) (s : State) (h : j ≠ k) :
    readCell (writeCell k c s) j = readCell s j := by
  simp [readCell, List.getD_eq_getElem?_getD, Ne.symm h]

end Sys2Proof.Machine
end

