-- ==== Sys2Proof/Laws/Table.lean ====
section
/-! SUPPORT. The linearization table: an entry exists exactly below `TABLE_SIZE`, the stretch-by-stretch check of
`tableRises` says what 00_scope.md rule R11 item 3 says of the entries, and every list of entries can be written as
stretches. -/

namespace Sys2Proof.Machine

/-- Inside one stretch the entries never fall. -/
theorem segEntry_mono (g : LinSeg) {j k : Nat} (h : j ≤ k) : segEntry g j ≤ segEntry g k := by
  have : j * g.rise / g.run ≤ k * g.rise / g.run := Nat.div_le_div_right (Nat.mul_le_mul_right _ h)
  unfold segEntry
  omega

@[simp] theorem segEntry_zero (g : LinSeg) : segEntry g 0 = g.start := by simp [segEntry]

/-- `LIN[x]` is read exactly for `x < TABLE_SIZE` (rule R42). -/
theorem linEntry_isSome_iff (gs : List LinSeg) (x : Nat) : (linEntry gs x).isSome = true ↔ x < tableSize gs := by
  induction gs generalizing x with
  | nil => simp [linEntry, tableSize]
  | cons g gs ih =>
    simp only [linEntry, tableSize]
    split
    · simp; omega
    · rw [ih]; omega

theorem linEntry_eq_none_iff (gs : List LinSeg) (x : Nat) : linEntry gs x = none ↔ tableSize gs ≤ x := by
  have := linEntry_isSome_iff gs x
  cases h : linEntry gs x <;> simp_all

/-- Below `TABLE_SIZE` the entry is `lin`. -/
theorem linEntry_eq_lin (b : Config) (x : Nat) (h : x < tableSize b.lin) : linEntry b.lin x = some (lin b x) := by
  obtain ⟨v, hv⟩ := Option.isSome_iff_exists.mp ((linEntry_isSome_iff b.lin x).mpr h)
  simp [lin, hv]

/-- What rule R11 item 3 says of the entries of a list of stretches, from the bound `low` on. -/
def EntriesRise (gs : List LinSeg) (low : Int) : Prop :=
  (∀ x v, linEntry gs x = some v → low ≤ v ∧ v ≤ distMax) ∧
    ∀ x y u v, x < y → linEntry gs x = some u → linEntry gs y = some v → u ≤ v

theorem entriesRise_cons_empty (g : LinSeg) (gs : List LinSeg) (low : Int) (h : g.len = 0) :
    EntriesRise (g :: gs) low ↔ EntriesRise gs low := by
  simp [EntriesRise, linEntry, h]

/-- The entries of a nonempty stretch and those after it rise iff both do and the second start where the first ends. -/
theorem entriesRise_cons (g : LinSeg) (gs : List LinSeg) (low : Int) (h : g.len ≠ 0) :
    EntriesRise (g :: gs) low ↔
      (low ≤ g.start ∧ segEntry g (g.len - 1) ≤ distMax) ∧ EntriesRise gs (segEntry g (g.len - 1)) := by
  have first : linEntry (g :: gs) 0 = some g.start := by simp [linEntry]; omega
  have last : linEntry (g :: gs) (g.len - 1) = some (segEntry g (g.len - 1)) := by simp [linEntry]; omega
  have later : ∀ x, linEntry (g :: gs) (g.len + x) = linEntry gs x := by intro x; simp [linEntry]
  have within : ∀ x, x < g.len → linEntry (g :: gs) x = some (segEntry g x) := by intro x hx; simp [linEntry, hx]
  constructor
  · rintro ⟨range, rise⟩
    refine ⟨⟨(range 0 _ first).1, (range _ _ last).2⟩, ?_, ?_⟩
    · intro x v hv
      rw [← later] at hv
      exact ⟨rise _ _ _ _ (by omega) last hv, (range _ _ hv).2⟩
    · intro x y u v hxy hu hv
      rw [← later] at hu hv
      exact rise _ _ _ _ (by omega) hu hv
  · rintro ⟨⟨hlow, hmax⟩, range, rise⟩
    have split : ∀ x v, linEntry (g :: gs) x = some v →
        (x < g.len ∧ v = segEntry g x) ∨ (g.len ≤ x ∧ linEntry gs (x - g.len) = some v) := by
      intro x v hv
      by_cases hx : x < g.len
      · rw [within x hx] at hv
        exact .inl ⟨hx, by simpa using hv.symm⟩
      · refine .inr ⟨by omega, ?_⟩
        rw [← later, show g.len + (x - g.len) = x by omega, hv]
    have upper : ∀ x, x < g.len → segEntry g x ≤ segEntry g (g.len - 1) := fun x hx => segEntry_mono g (by omega)
    have lower : ∀ x, g.start ≤ segEntry g x := fun x => by simpa using segEntry_mono g (Nat.zero_le x)
    refine ⟨?_, ?_⟩
    · intro x v hv
      rcases split x v hv with ⟨hx, rfl⟩ | ⟨-, hv'⟩
      · have := upper x hx; have := lower x; constructor <;> omega
      · have := range _ _ hv'; have := lower (g.len - 1); constructor <;> omega
    · intro x y u v hxy hu hv
      rcases split x u hu with ⟨hx, rfl⟩ | ⟨hx, hu'⟩
      · rcases split y v hv with ⟨hy, rfl⟩ | ⟨hy, hv'⟩
        · exact segEntry_mono g (by omega)
        · have := (range _ _ hv').1; have := upper x hx; omega
      · rcases split y v hv with ⟨hy, rfl⟩ | ⟨hy, hv'⟩
        · omega
        · exact rise _ _ _ _ (by omega) hu' hv'

/-- The check of a build's table says what rule R11 item 3 says of its entries. -/
theorem tableRises_iff (gs : List LinSeg) (low : Int) : tableRises gs low = true ↔ EntriesRise gs low := by
  induction gs generalizing low with
  | nil => simp [tableRises, EntriesRise, linEntry]
  | cons g gs ih =>
    by_cases h : g.len = 0
    · simp [tableRises, h, entriesRise_cons_empty g gs low h, ih]
    · simp [tableRises, h, entriesRise_cons g gs low h, ih]

/-- Every list of entries, written as stretches of length 1. -/
def tableOf (entries : List Int) : List LinSeg := entries.map fun v => { len := 1, start := v, rise := 0, run := 1 }

/-- Any table can be written: the stretches of `tableOf` give back the entries. -/
theorem linEntry_tableOf (entries : List Int) (x : Nat) : linEntry (tableOf entries) x = entries[x]? := by
  induction entries generalizing x with
  | nil => rfl
  | cons v rest ih =>
    cases x with
    | zero => simp [tableOf, linEntry, segEntry]
    | succ x => simpa [tableOf, linEntry] using ih x

end Sys2Proof.Machine
end

