-- ==== Sys2Proof/Laws/WellFormed.lean ====
section
/-! SUPPORT. The check of a build, `Config.wf`, says what 00_scope.md rule R11 lists. -/

namespace Sys2Proof.Machine

/-- The check of a build accepts exactly the builds of rule R11. -/
theorem wf_iff (b : Config) : b.wf = true ↔ WellFormedBuild b := by
  simp only [Config.wf, Config.scOk, Config.thresholdsOk, Config.tableOk, Config.capacityOk, Config.sizesOk,
    Config.durationsOk, Bool.and_eq_true, decide_eq_true_eq, tableRises_iff, EntriesRise]
  constructor
  · rintro ⟨⟨⟨⟨⟨⟨⟨h1, h2⟩, h3⟩, ⟨⟨⟨⟨h4, h5⟩, h6⟩, h7⟩, h8⟩, h9⟩, ⟨h10, h11⟩, h12, h13⟩, h14⟩, h15, h16⟩, h17, h18⟩
    exact ⟨h1, h2, h3, h4, h5, h6, h7, h8, h9, h10, h11, fun x v h => by simpa using h12 x v h, h13, h14, h15, h16, h17, h18⟩
  · rintro ⟨h1, h2, h3, h4, h5, h6, h7, h8, h9, h10, h11, h12, h13, h14, h15, h16, h17, h18⟩
    exact ⟨⟨⟨⟨⟨⟨⟨h1, h2⟩, h3⟩, ⟨⟨⟨⟨h4, h5⟩, h6⟩, h7⟩, h8⟩, h9⟩, ⟨h10, h11⟩, fun x v h => by simpa using h12 x v h, h13⟩, h14⟩, h15, h16⟩, h17, h18⟩

end Sys2Proof.Machine
end

