-- ==== Sys2Proof/Laws/Debounce.lean ====
section
/-! SUPPORT. Everything one record can do to a debounce cell (44_debouncer.md rule R117), and that it keeps the ranges of
10_state.md rule R28. -/

namespace Sys2Proof.Machine

theorem nextCycle_eq (cyc : Cycles) :
    (cyc.toNat = cyclesMax ∧ nextCycle cyc = none) ∨
      (cyc.toNat ≠ cyclesMax ∧ nextCycle cyc = some (BitVec.ofNat 32 (cyc.toNat + 1)) ∧
        (BitVec.ofNat 32 (cyc.toNat + 1)).toNat = cyc.toNat + 1) := by
  have := cyc.isLt
  have hmax : cyclesMax = 4294967295 := rfl
  by_cases h : cyc.toNat = cyclesMax
  · exact .inl ⟨h, by simp [nextCycle, h]⟩
  · refine .inr ⟨h, by simp [nextCycle, h], ?_⟩
    rw [BitVec.toNat_ofNat, Nat.mod_eq_of_lt (by omega)]

/-- One more cycle than `c` has counted. -/
def cycleAfter (c : Cell) : Cycles := BitVec.ofNat 32 (c.cyc.toNat + 1)

theorem cycleAfter_toNat (c : Cell) (h : c.cyc.toNat ≠ cyclesMax) : (cycleAfter c).toNat = c.cyc.toNat + 1 := by
  have := c.cyc.isLt
  have hmax : cyclesMax = 4294967295 := rfl
  rw [cycleAfter, BitVec.toNat_ofNat, Nat.mod_eq_of_lt (by omega)]

/-- Everything a record can do (rules R117 to R121): flip, overflow, gather evidence, or agree. -/
theorem debRecord_cases (b : Config) (c : Cell) (level : Bool) :
    (rawState level ≠ c.conf ∧ max b.deb 1 ≤ c.pend.toNat + 1 ∧
        debRecord b c level = some (flipCell (rawState level))) ∨
      (¬ (rawState level ≠ c.conf ∧ max b.deb 1 ≤ c.pend.toNat + 1) ∧
        ((c.cyc.toNat = cyclesMax ∧ debRecord b c level = none) ∨
          (c.cyc.toNat ≠ cyclesMax ∧
            ((rawState level ≠ c.conf ∧ c.pend.toNat + 1 < max b.deb 1 ∧
                debRecord b c level = some (evidenceCell c (cycleAfter c))) ∨
              (rawState level = c.conf ∧ debRecord b c level = some (agreeCell b c (cycleAfter c))))))) := by
  by_cases hraw : rawState level = c.conf
  · refine .inr ⟨by simp [hraw], ?_⟩
    rcases nextCycle_eq c.cyc with ⟨hc, hn⟩ | ⟨hc, hn, -⟩
    · exact .inl ⟨hc, by simp [debRecord, hraw, hn]⟩
    · exact .inr ⟨hc, .inr ⟨hraw, by simp [debRecord, hraw, hn, cycleAfter]⟩⟩
  · by_cases hp : max b.deb 1 ≤ c.pend.toNat + 1
    · exact .inl ⟨hraw, hp, by simp only [debRecord, ne_eq, hraw, not_false_eq_true, if_true, ge_iff_le, hp]⟩
    · refine .inr ⟨by tauto, ?_⟩
      have hunfold : debRecord b c level = (nextCycle c.cyc).map (evidenceCell c) := by
        simp only [debRecord, ne_eq, hraw, not_false_eq_true, if_true, ge_iff_le, hp, if_false]
      rcases nextCycle_eq c.cyc with ⟨hc, hn⟩ | ⟨hc, hn, -⟩
      · exact .inl ⟨hc, by simp [hunfold, hn]⟩
      · exact .inr ⟨hc, .inl ⟨hraw, by omega, by simp [hunfold, hn, cycleAfter]⟩⟩

/-- A record keeps a cell in the ranges of rule R28. -/
theorem cellOk_debRecord {b : Config} (hb : WellFormedBuild b) {c c' : Cell} {level : Bool} (h : CellOk b c)
    (hr : debRecord b c level = some c') : CellOk b c' := by
  obtain ⟨hp, hi, hidle⟩ := h
  have hdeb := hb.debounce
  have hbidle := hb.idle_duration
  rcases debRecord_cases b c level with ⟨-, -, h⟩ | ⟨-, ⟨-, h⟩ | ⟨-, ⟨-, hlt, h⟩ | ⟨-, h⟩⟩⟩ <;> rw [h] at hr
  · obtain rfl := Option.some.inj hr
    exact ⟨by simp [flipCell], by simp [flipCell], fun _ => rfl⟩
  · cases hr
  · obtain rfl := Option.some.inj hr
    refine ⟨?_, ?_, ?_⟩
    · simp only [evidenceCell, BitVec.toNat_ofNat]
      rw [Nat.mod_eq_of_lt (by omega)]
      exact hlt
    · simp only [evidenceCell]
      split <;> simp [hi]
    · simp only [evidenceCell]
      intro hon
      simp [hon, hidle hon]
  · obtain rfl := Option.some.inj hr
    have ht : idleTimer b c ≤ b.idle := by simp [idleTimer]
    refine ⟨by simp [agreeCell], ?_, ?_⟩
    · simp only [agreeCell]
      split
      · rw [BitVec.toNat_ofNat, Nat.mod_eq_of_lt (by omega)]; exact ht
      · exact hi
    · simp only [agreeCell]
      intro hon
      simp [hon, hidle hon]

/-- The initial cell is in its ranges (rule R115). -/
theorem cellOk_debReset (b : Config) : CellOk b debReset := by
  simp [CellOk, debReset]

end Sys2Proof.Machine
end

