-- ==== Sys2Proof/Laws/Decode.lean ====
section
/-! SUPPORT. The fields of a command word: as numbers, and of a word laid out from its fields (30_encoding.md rules R56
and R57). -/

namespace Sys2Proof

theorem opField_toNat (w : Word) : (opField w).toNat = w.toNat / 2 ^ 28 := by
  have := w.isLt
  simp [opField, BitVec.extractLsb'_toNat, Nat.shiftRight_eq_div_pow]
  omega

theorem idxField_toNat (w : Word) : (idxField w).toNat = w.toNat / 2 ^ 16 % 2 ^ 12 := by
  simp [idxField, BitVec.extractLsb'_toNat, Nat.shiftRight_eq_div_pow]

theorem dataField_toNat (w : Word) : (dataField w).toNat = w.toNat % 2 ^ 16 := by
  simp [dataField, BitVec.extractLsb'_toNat]

theorem packFields_toNat (op : BitVec 4) (idx : Index) (data : BitVec 16) :
    (packFields op idx data).toNat = op.toNat * 2 ^ 28 + idx.toNat * 2 ^ 16 + data.toNat := by
  have := idx.isLt
  have := data.isLt
  simp only [packFields, BitVec.toNat_append]
  rw [← Nat.shiftLeft_add_eq_or_of_lt (by omega), ← Nat.shiftLeft_add_eq_or_of_lt (by omega)]
  simp only [Nat.shiftLeft_eq]
  omega

theorem opField_packFields (op : BitVec 4) (idx : Index) (data : BitVec 16) :
    opField (packFields op idx data) = op := by
  apply BitVec.eq_of_toNat_eq
  have := idx.isLt
  have := data.isLt
  rw [opField_toNat, packFields_toNat]
  omega

theorem idxField_packFields (op : BitVec 4) (idx : Index) (data : BitVec 16) :
    idxField (packFields op idx data) = idx := by
  apply BitVec.eq_of_toNat_eq
  have := idx.isLt
  have := data.isLt
  rw [idxField_toNat, packFields_toNat]
  omega

theorem dataField_packFields (op : BitVec 4) (idx : Index) (data : BitVec 16) :
    dataField (packFields op idx data) = data := by
  apply BitVec.eq_of_toNat_eq
  have := data.isLt
  rw [dataField_toNat, packFields_toNat]
  omega

/-- A word is its three fields (rule R56). -/
theorem packFields_fields (w : Word) : packFields (opField w) (idxField w) (dataField w) = w := by
  apply BitVec.eq_of_toNat_eq
  have := w.isLt
  rw [packFields_toNat, opField_toNat, idxField_toNat, dataField_toNat]
  omega

end Sys2Proof
end

