-- ==== Sys2Proof/Laws/Hall.lean ====
section
/-! SUPPORT. What the operations of the Hall engine can do, said once: the accumulator (41_accumulator.md rules R91 to R94),
the analyzer (40_calibration_kinematic.md rules R79 to R85), the per-batch pipeline (rule R70) and a reading (rule R98). -/

namespace Sys2Proof.Machine

/-! ### Numbers in their storage -/

theorem fitsDist_iff (v : Int) : fitsDist v = true ↔ InDist v := by
  simp [fitsDist, InDist]

/-- An `sW_DIST` number is kept exactly by its storage. -/
theorem toDist_toInt {v : Int} (h : InDist v) : (toDist v).toInt = v := by
  obtain ⟨h1, h2⟩ := h
  unfold toDist
  rw [BitVec.toInt_ofInt]
  exact Int.bmod_eq_of_le (by omega) (by omega)

/-! ### The accumulator -/

theorem accAdd_done (b : Config) (a : SampleAccumulator) (r : Raw) (h : a.count.toNat + 1 = b.sc) :
    accAdd b a r = .done (BitVec.ofNat 16 ((a.sum.toNat + r.toNat) / b.sc)) { sum := 0, count := 0 } := by
  simp [accAdd, h]

theorem accAdd_notYet (b : Config) (a : SampleAccumulator) (r : Raw) (h : a.count.toNat + 1 ≠ b.sc) :
    accAdd b a r = .notYet { sum := BitVec.ofNat 32 (a.sum.toNat + r.toNat),
                             count := BitVec.ofNat 16 (a.count.toNat + 1) } := by
  simp [accAdd, h]

/-- Rule R94: with the sum within rule R26's bound, neither value passes its width. -/
theorem acc_no_overflow {b : Config} (hb : WellFormedBuild b) {a : SampleAccumulator} (r : Raw)
    (hcount : a.count.toNat < b.sc) (hsum : a.sum.toNat ≤ a.count.toNat * (2 ^ 16 - 1)) :
    a.sum.toNat + r.toNat ≤ (a.count.toNat + 1) * (2 ^ 16 - 1) ∧ a.sum.toNat + r.toNat < 2 ^ 32 ∧
      a.count.toNat + 1 < 2 ^ 16 := by
  have hr := r.isLt
  have h1 := hb.sc_sum
  have h2 := hb.sc_count
  refine ⟨?_, ?_, ?_⟩ <;> omega

/-- Rule R92: the average of a batch is a `uW_RAW`. -/
theorem average_lt {b : Config} {a : SampleAccumulator} (r : Raw)
    (hcount : a.count.toNat + 1 = b.sc) (hsum : a.sum.toNat ≤ a.count.toNat * (2 ^ 16 - 1)) :
    (a.sum.toNat + r.toNat) / b.sc < 2 ^ 16 := by
  have hr := r.isLt
  rw [Nat.div_lt_iff_lt_mul (by omega), ← hcount]
  omega

/-! ### The analyzer -/

theorem firstOverflow_eq_none_iff (l : List (KinField × Int)) :
    firstOverflow l = none ↔ ∀ x ∈ l, InDist x.2 := by
  induction l with
  | nil => simp [firstOverflow]
  | cons x rest ih =>
    obtain ⟨field, v⟩ := x
    simp only [firstOverflow, List.mem_cons, forall_eq_or_imp, ← fitsDist_iff]
    split <;> simp_all [fitsDist_iff]

/-- Everything `ANALYZE` can do (rules R83 to R85). -/
theorem analyze_cases (b : Config) (s mn : Raw) (p : SenseAnalysis) :
    (∃ x, tableSize b.lin ≤ x ∧ analyze b s mn p = .faulted (.tableRange x) ∧
        (x = s.toNat ∨ s.toNat < tableSize b.lin ∧ x = mn.toNat)) ∨
      (s.toNat < tableSize b.lin ∧ mn.toNat < tableSize b.lin ∧
        ((∃ field, firstOverflow (kinValues (lin b s.toNat - lin b mn.toNat) p) = some field ∧
            analyze b s mn p = .faulted (.overflow field)) ∨
          (firstOverflow (kinValues (lin b s.toNat - lin b mn.toNat) p) = none ∧
            analyze b s mn p = .ok (kinAnalysis s (lin b s.toNat - lin b mn.toNat) p)))) := by
  by_cases hs : s.toNat < tableSize b.lin
  · have es := linEntry_eq_lin b s.toNat hs
    by_cases hm : mn.toNat < tableSize b.lin
    · have em := linEntry_eq_lin b mn.toNat hm
      refine .inr ⟨hs, hm, ?_⟩
      cases hf : firstOverflow (kinValues (lin b s.toNat - lin b mn.toNat) p) with
      | none => exact .inr ⟨rfl, by simp [analyze, es, em, hf]⟩
      | some field => exact .inl ⟨field, rfl, by simp [analyze, es, em, hf]⟩
    · have em := (linEntry_eq_none_iff b.lin mn.toNat).mpr (by omega)
      exact .inl ⟨mn.toNat, by omega, by simp [analyze, es, em], .inr ⟨hs, rfl⟩⟩
  · have es := (linEntry_eq_none_iff b.lin s.toNat).mpr (by omega)
    exact .inl ⟨s.toNat, by omega, by simp [analyze, es], .inl rfl⟩

/-! ### The per-batch pipeline -/

/-- The record after step 4 (rule R77). -/
def unusableRecord (b : Config) (s : Raw) (d : SenseData) : SenseData :=
  { d with
    cal := calNext b d.cal s.toNat
    stats := { min := 0xFFFF#16, max := 0, samples := BitVec.ofNat 32 (d.stats.samples.toNat + 1) }
    analysis := { nullAnalysis with raw := s } }

/-- The record after step 5, with the analysis `a` (rule R78). -/
def usableRecord (s : Raw) (a : SenseAnalysis) (d : SenseData) : SenseData :=
  { d with
    cal := .magnetDetected
    stats := { statsWithSample s d.stats with samples := BitVec.ofNat 32 (d.stats.samples.toNat + 1) }
    analysis := a }

@[simp] theorem statsWithSample_samples (s : Raw) (t : SenseStats) : (statsWithSample s t).samples = t.samples := rfl

theorem statsWithSample_min (s : Raw) (t : SenseStats) :
    (statsWithSample s t).min.toNat = min t.min.toNat s.toNat := by
  simp only [statsWithSample]
  split <;> omega

theorem statsWithSample_max (s : Raw) (t : SenseStats) :
    (statsWithSample s t).max.toNat = max t.max.toNat s.toNat := by
  simp only [statsWithSample]
  split <;> omega

/-- Everything a completed batch can do to a record (rules R70, R132). -/
theorem batchRecord_cases (b : Config) (i : Nat) (s : Raw) (d : SenseData) :
    (d.stats.samples.toNat = samplesMax ∧ batchRecord b i s d = .faulted (.counterOverflow (.sensor i))) ∨
      (d.stats.samples.toNat ≠ samplesMax ∧
        ((calNext b d.cal s.toNat ≠ .magnetDetected ∧ batchRecord b i s d = .unusable (unusableRecord b s d)) ∨
          (calNext b d.cal s.toNat = .magnetDetected ∧
            ((∃ f, analyze b s (statsWithSample s d.stats).min d.analysis = .faulted f ∧
                batchRecord b i s d = .faulted f) ∨
              (∃ a, analyze b s (statsWithSample s d.stats).min d.analysis = .ok a ∧
                batchRecord b i s d = .usable (usableRecord s a d)))))) := by
  by_cases hn : d.stats.samples.toNat = samplesMax
  · exact .inl ⟨hn, by simp [batchRecord, countBatch, hn]⟩
  · refine .inr ⟨hn, ?_⟩
    by_cases hc : calNext b d.cal s.toNat = .magnetDetected
    · refine .inr ⟨hc, ?_⟩
      cases ha : analyze b s (statsWithSample s d.stats).min d.analysis with
      | ok a => exact .inr ⟨a, rfl, by simp [batchRecord, countBatch, hn, hc, ha, usableRecord]⟩
      | faulted f => exact .inl ⟨f, rfl, by simp [batchRecord, countBatch, hn, hc, ha]⟩
    · exact .inl ⟨hc, by simp [batchRecord, countBatch, hn, hc, unusableRecord, statsReset]⟩

/-! ### A reading -/

/-- The record with its accumulator emptied by the reading that completes a batch (rule R93). -/
def emptied (d : SenseData) : SenseData := { d with acc := { sum := 0, count := 0 } }

/-- The averaged sample in its storage. -/
def averageOf (s : State) (i : Nat) (r : Raw) : Raw := BitVec.ofNat 16 (batchAverage s i r)

/-- The analysis that step 5 computes for sensor `i` (rule R78). -/
def analysisOf (s : State) (i : Nat) (r : Raw) : AnalyzeResult :=
  analyze s.build (averageOf s i r) (statsWithSample (averageOf s i r) (readRec s i).stats).min (readRec s i).analysis

/-- Writing a record twice is writing it once. -/
theorem writeRec_writeRec (i : Nat) (d d' : SenseData) (s : State) :
    writeRec i d (writeRec i d' s) = writeRec i d s := by
  simp [writeRec]

/-- Everything a reading for a sensor in bounds can do (rules R91, R98, R132). -/
theorem addReading_cases (i : Nat) (r : Raw) (s : State) (h : i < s.recs.length) :
    ((readRec s i).acc.count.toNat + 1 ≠ s.build.sc ∧
        addReading i r s = respond .okNone (writeRec i
          { readRec s i with
            acc := { sum := BitVec.ofNat 32 ((readRec s i).acc.sum.toNat + r.toNat),
                     count := BitVec.ofNat 16 ((readRec s i).acc.count.toNat + 1) } } s)) ∨
      ((readRec s i).acc.count.toNat + 1 = s.build.sc ∧
        (((readRec s i).stats.samples.toNat = samplesMax ∧
            addReading i r s = raise (.counterOverflow (.sensor i)) (writeRec i (emptied (readRec s i)) s)) ∨
          ((readRec s i).stats.samples.toNat ≠ samplesMax ∧
            ((calNext s.build (readRec s i).cal (averageOf s i r).toNat ≠ .magnetDetected ∧
                addReading i r s =
                  respond (.errCalibration (unusableRecord s.build (averageOf s i r) (emptied (readRec s i))))
                    (writeRec i (unusableRecord s.build (averageOf s i r) (emptied (readRec s i))) s)) ∨
              (calNext s.build (readRec s i).cal (averageOf s i r).toNat = .magnetDetected ∧
                ((∃ f, analysisOf s i r = .faulted f ∧
                    addReading i r s = raise f (writeRec i (emptied (readRec s i)) s)) ∨
                  (∃ a, analysisOf s i r = .ok a ∧
                    addReading i r s = respond (.okAnalysis a)
                      (writeRec i (usableRecord (averageOf s i r) a (emptied (readRec s i))) s)))))))) := by
  by_cases hc : (readRec s i).acc.count.toNat + 1 = s.build.sc
  · refine .inr ⟨hc, ?_⟩
    have hacc := accAdd_done s.build (readRec s i).acc r hc
    have hadd : addReading i r s = sensorBatch i (averageOf s i r) (writeRec i (emptied (readRec s i)) s) := by
      simp [addReading, hacc, averageOf, batchAverage, emptied]
    have hread : readRec (writeRec i (emptied (readRec s i)) s) i = emptied (readRec s i) :=
      readRec_writeRec_self i _ s h
    rcases batchRecord_cases s.build i (averageOf s i r) (emptied (readRec s i)) with
      ⟨hn, hr⟩ | ⟨hn, ⟨hcal, hr⟩ | ⟨hcal, ⟨f, hf, hr⟩ | ⟨a, ha, hr⟩⟩⟩
    · exact .inl ⟨hn, by simp [hadd, sensorBatch, hread, hr]⟩
    · exact .inr ⟨hn, .inl ⟨hcal, by simp [hadd, sensorBatch, hread, hr, writeRec_writeRec]⟩⟩
    · exact .inr ⟨hn, .inr ⟨hcal, .inl ⟨f, hf, by simp [hadd, sensorBatch, hread, hr]⟩⟩⟩
    · exact .inr ⟨hn, .inr ⟨hcal, .inr ⟨a, ha, by
        simp [hadd, sensorBatch, hread, hr, writeRec_writeRec, usableRecord]⟩⟩⟩
  · exact .inl ⟨hc, by simp [addReading, accAdd_notYet s.build (readRec s i).acc r hc]⟩

/-- Everything `SNS_ADD` can do (rule R98). -/
theorem execSnsAdd_cases (i : Index) (r : Raw) (s : State) :
    (s.snsLive = false ∧ execSnsAdd i r s = .next (raise (.unconstructed .hall) s)) ∨
      (s.snsLive = true ∧ s.snsCap ≤ i.toNat ∧ execSnsAdd i r s = .next (respond .errInvalidSensor s)) ∨
        (s.snsLive = true ∧ i.toNat < s.snsCap ∧ execSnsAdd i r s = .next (addReading i.toNat r s)) := by
  cases hl : s.snsLive with
  | false => exact .inl ⟨rfl, by simp [execSnsAdd, withHall, hl]⟩
  | true =>
    by_cases hb : i.toNat < s.snsCap
    · exact .inr (.inr ⟨rfl, hb, by simp [execSnsAdd, withHall, hl, inBounds, sensorIndex, hb]⟩)
    · exact .inr (.inl ⟨rfl, by omega, by simp [execSnsAdd, withHall, hl, inBounds, sensorIndex, hb]⟩)

/-- Everything `SNS_GET` can do (rule R99). -/
theorem execSnsGet_cases (i : Index) (s : State) :
    (s.snsLive = false ∧ execSnsGet i s = .next (raise (.unconstructed .hall) s)) ∨
      (s.snsLive = true ∧ s.snsCap ≤ i.toNat ∧ execSnsGet i s = .next (respond .errInvalidSensor s)) ∨
        (s.snsLive = true ∧ i.toNat < s.snsCap ∧
          (((readRec s i.toNat).cal = .notReady ∧
              execSnsGet i s = .next (respond (.errCalibration (readRec s i.toNat)) s)) ∨
            ((readRec s i.toNat).cal ≠ .notReady ∧
              execSnsGet i s = .next (respond (.okRecord (readRec s i.toNat)) s)))) := by
  cases hl : s.snsLive with
  | false => exact .inl ⟨rfl, by simp [execSnsGet, withHall, hl]⟩
  | true =>
    by_cases hb : i.toNat < s.snsCap
    · refine .inr (.inr ⟨rfl, hb, ?_⟩)
      by_cases hc : (readRec s i.toNat).cal = .notReady
      · exact .inl ⟨hc, by simp [execSnsGet, withHall, hl, inBounds, sensorIndex, hb, readOut, hc]⟩
      · exact .inr ⟨hc, by simp [execSnsGet, withHall, hl, inBounds, sensorIndex, hb, readOut, hc]⟩
    · exact .inr (.inl ⟨rfl, by omega, by simp [execSnsGet, withHall, hl, inBounds, sensorIndex, hb]⟩)

/-- Everything `SNS_INIT` can do (rule R97). -/
theorem execSnsInit_cases (n : BitVec 16) (s : State) :
    (s.build.nMax < n.toNat ∧ execSnsInit n s =
        .next (respond .errFailedToResize { s with snsLive := false, snsCap := 0, recs := [] })) ∨
      (n.toNat ≤ s.build.nMax ∧ execSnsInit n s =
        .next (respond .okNone
          { s with snsLive := true, snsCap := n.toNat, recs := List.replicate n.toNat defaultRecord })) := by
  by_cases h : n.toNat > s.build.nMax
  · exact .inl ⟨h, by simp [execSnsInit, constructHall, requestedCapacity, h]⟩
  · exact .inr ⟨by omega, by simp [execSnsInit, constructHall, requestedCapacity, h]⟩

end Sys2Proof.Machine
end

