-- ==== Sys2Proof/Laws/Pins.lean ====
section
/-! SUPPORT. What a run of pin operations does, said once: if all succeed, if the `k`-th fails, and in every case
(20_memory.md rule R50; 43_matrix_scanner.md rules R105, R110 and R111). -/

namespace Sys2Proof.Machine

/-! ### Draws -/

theorem currentDraw_eq_drawAt (s : State) : currentDraw s = drawAt s 0 := by
  unfold currentDraw drawAt
  cases s.pinDraws <;> simp

/-- After one pin operation, the draws to come are those after the first. -/
@[simp] theorem drawAt_pinStep (op : PinOp) (s : State) (k : Nat) : drawAt (pinStep op s) k = drawAt s (k + 1) := by
  unfold drawAt
  cases h : s.pinDraws <;> simp [h, Nat.add_comm, Nat.add_left_comm]

/-- Writes that leave the draws alone leave the draws to come alone. -/
theorem drawAt_congr {s s' : State} (h : s'.pinDraws = s.pinDraws) (h' : s'.freeDraws = s.freeDraws) (k : Nat) :
    drawAt s' k = drawAt s k := by simp [drawAt, h, h']

@[simp] theorem drawAt_writeCell (j : Nat) (c : Cell) (s : State) (k : Nat) : drawAt (writeCell j c s) k = drawAt s k :=
  drawAt_congr rfl rfl k

theorem allSucceed_congr {s s' : State} (h : s'.pinDraws = s.pinDraws) (h' : s'.freeDraws = s.freeDraws) (n : Nat) :
    AllSucceed n s' ↔ AllSucceed n s := by simp [AllSucceed, drawAt_congr h h']

/-- The first draw of several that succeed. -/
theorem AllSucceed.current {n : Nat} {s : State} (h : AllSucceed (n + 1) s) :
    currentDraw s = .succeed (drawLevel (drawAt s 0)) := by
  have := h 0 (by omega)
  rw [currentDraw_eq_drawAt]
  cases hd : drawAt s 0 <;> simp_all [drawSucceeds, drawLevel]

theorem AllSucceed.pinStep {n : Nat} {s : State} (h : AllSucceed (n + 1) s) (op : PinOp) :
    AllSucceed n (pinStep op s) := by
  intro k hk
  simpa using h (k + 1) (by omega)

theorem AllSucceed.mono {m n : Nat} {s : State} (h : AllSucceed n s) (hmn : m ≤ n) : AllSucceed m s :=
  fun k hk => h k (by omega)

theorem firstFailAt_zero {e : PinError} {s : State} (h : FirstFailAt 0 e s) : currentDraw s = .fail e := by
  rw [currentDraw_eq_drawAt]
  exact h.2

theorem FirstFailAt.pinStep {k : Nat} {e : PinError} {s : State} (h : FirstFailAt (k + 1) e s) (op : PinOp) :
    FirstFailAt k e (pinStep op s) := ⟨h.1.pinStep op, by simpa using h.2⟩

theorem FirstFailAt.current {k : Nat} {e : PinError} {s : State} (h : FirstFailAt (k + 1) e s) :
    currentDraw s = .succeed (drawLevel (drawAt s 0)) := AllSucceed.current h.1

/-- Either the next `n` operations all succeed, or there is a first that fails. -/
theorem allSucceed_or_firstFail (n : Nat) (s : State) : AllSucceed n s ∨ ∃ k e, k < n ∧ FirstFailAt k e s := by
  induction n with
  | zero => exact .inl fun k hk => by omega
  | succ n ih =>
    rcases ih with h | ⟨k, e, hk, h⟩
    · cases hd : drawAt s n with
      | succeed b =>
        refine .inl fun k hk => ?_
        by_cases hkn : k = n
        · simp [hkn, hd, drawSucceeds]
        · exact h k (by omega)
      | fail e => exact .inr ⟨n, e, by omega, h, hd⟩
    · exact .inr ⟨k, e, by omega, h⟩

/-! ### The shadow of a run of operations -/

/-- The columns after one successful operation. -/
def colsOk : List ColDrive → PinOp → List ColDrive
  | cols, .colSet c level => cols.set c (driveOf level)
  | cols, .rowOut _ => cols
  | cols, .rowDrive _ _ => cols
  | cols, .rowIn _ => cols
  | cols, .rowRead _ => cols

/-- The rows after one successful operation. -/
def rowsOk : List RowMode → PinOp → List RowMode
  | rows, .colSet _ _ => rows
  | rows, .rowOut r => rows.set r .output
  | rows, .rowDrive _ _ => rows
  | rows, .rowIn r => rows.set r .input
  | rows, .rowRead _ => rows

/-- The columns after a failed operation. -/
def colsFail : List ColDrive → PinOp → List ColDrive
  | cols, .colSet c _ => cols.set c .unknown
  | cols, .rowOut _ => cols
  | cols, .rowDrive _ _ => cols
  | cols, .rowIn _ => cols
  | cols, .rowRead _ => cols

/-- The rows after a failed operation. -/
def rowsFail : List RowMode → PinOp → List RowMode
  | rows, .colSet _ _ => rows
  | rows, .rowOut r => rows.set r .unknown
  | rows, .rowDrive r _ => rows.set r .unknown
  | rows, .rowIn r => rows.set r .unknown
  | rows, .rowRead _ => rows

/-- The operation drives a pin; it is no read. -/
def drives : PinOp → Bool
  | .colSet _ _ => true
  | .rowOut _ => true
  | .rowDrive _ _ => true
  | .rowIn _ => true
  | .rowRead _ => false

theorem answerOf_drives (op : PinOp) (b : Bool) (h : drives op = true) : answerOf op (.succeed b) = .ok := by
  cases op <;> simp_all [drives, answerOf]

@[simp] theorem answerOf_fail (op : PinOp) (e : PinError) : answerOf op (.fail e) = .err e := by
  cases op <;> rfl

/-- The state after operations that all succeeded. -/
def afterOps (ops : List PinOp) (s : State) : State :=
  { afterDraws ops.length s with
    pinTrace := s.pinTrace ++ okTrace ops
    colDrive := ops.foldl colsOk s.colDrive
    rowMode := ops.foldl rowsOk s.rowMode }

/-- The state after operations that all succeeded and one that failed with `e`. -/
def afterFail (ops : List PinOp) (op : PinOp) (e : PinError) (s : State) : State :=
  { afterDraws (ops.length + 1) s with
    pinTrace := s.pinTrace ++ okTrace ops ++ [{ op := op, answer := .err e }]
    colDrive := colsFail (ops.foldl colsOk s.colDrive) op
    rowMode := rowsFail (ops.foldl rowsOk s.rowMode) op }

theorem afterOps_nil (s : State) : afterOps [] s = s := by
  simp [afterOps, afterDraws, okTrace]

theorem pinDraws_tail_drop (s : State) (n : Nat) :
    s.pinDraws.tail.drop n = s.pinDraws.drop (n + 1) := by
  cases s.pinDraws <;> simp

theorem freeDraws_step (s : State) (n : Nat) :
    (if s.pinDraws.isEmpty then s.freeDraws + 1 else s.freeDraws) + (n - s.pinDraws.tail.length) =
      s.freeDraws + (n + 1 - s.pinDraws.length) := by
  cases h : s.pinDraws <;> simp [Nat.add_comm, Nat.add_left_comm]

theorem pinStep_ok (op : PinOp) (s : State) (b : Bool) (hd : currentDraw s = .succeed b) (h : drives op = true) :
    (pinStep op s).pinTrace = s.pinTrace ++ [{ op := op, answer := .ok }] ∧
      (pinStep op s).colDrive = colsOk s.colDrive op ∧ (pinStep op s).rowMode = rowsOk s.rowMode op := by
  refine ⟨by simp [hd, answerOf_drives op b h], ?_, ?_⟩
  · rw [pinStep_colDrive, hd]; cases op <;> rfl
  · rw [pinStep_rowMode, hd]; cases op <;> rfl

theorem afterOps_pinStep (op : PinOp) (ops : List PinOp) (s : State) (b : Bool) (hd : currentDraw s = .succeed b)
    (h : drives op = true) : afterOps ops (pinStep op s) = afterOps (op :: ops) s := by
  obtain ⟨h1, h2, h3⟩ := pinStep_ok op s b hd h
  simp only [afterOps, afterDraws, h1, h2, h3, pinStep_pinDraws, pinStep_freeDraws, pinDraws_tail_drop, freeDraws_step,
    List.length_cons, List.foldl_cons, pinStep_build, pinStep_snsLive, pinStep_snsCap, pinStep_recs, pinStep_mtxLive,
    pinStep_curStrobe, pinStep_cells, pinStep_fault, pinStep_hostCmds, pinStep_responses]
  simp [okTrace]

theorem afterFail_pinStep (op : PinOp) (ops : List PinOp) (op' : PinOp) (e : PinError) (s : State) (b : Bool)
    (hd : currentDraw s = .succeed b) (h : drives op = true) :
    afterFail ops op' e (pinStep op s) = afterFail (op :: ops) op' e s := by
  obtain ⟨h1, h2, h3⟩ := pinStep_ok op s b hd h
  simp only [afterFail, afterDraws, h1, h2, h3, pinStep_pinDraws, pinStep_freeDraws, pinDraws_tail_drop, freeDraws_step,
    List.length_cons, List.foldl_cons, pinStep_build, pinStep_snsLive, pinStep_snsCap, pinStep_recs, pinStep_mtxLive,
    pinStep_curStrobe, pinStep_cells, pinStep_fault, pinStep_hostCmds, pinStep_responses]
  simp [okTrace]

theorem pinStep_fail (op : PinOp) (s : State) (e : PinError) (hd : currentDraw s = .fail e) :
    pinStep op s = afterFail [] op e s := by
  have := freeDraws_step s 0
  simp only [Nat.zero_sub, Nat.add_zero] at this
  cases op <;>
    simp [pinStep, hd, shadowAfter, logPin, consumeDraw, afterFail, afterDraws, okTrace, colsFail, rowsFail, answerOf,
      List.drop_one] <;> cases h : s.pinDraws <;> simp

/-- A run of operations that all succeed (rules R50, R111). -/
theorem runPins_ok (ops : List PinOp) (s : State) (hdrive : ∀ op ∈ ops, drives op = true)
    (h : AllSucceed ops.length s) : runPins ops s = (none, afterOps ops s) := by
  induction ops generalizing s with
  | nil => simp [runPins, afterOps_nil]
  | cons op ops ih =>
    have hop := hdrive op (by simp)
    rw [← afterOps_pinStep op ops s _ (AllSucceed.current h) hop]
    simp only [runPins, AllSucceed.current h]
    exact ih _ (fun op h => hdrive op (by simp [h])) (h.pinStep op)

/-- A run of operations of which the one after `pre` fails: it ends there (rule R110). -/
theorem runPins_fail (pre : List PinOp) (op : PinOp) (post : List PinOp) (e : PinError) (s : State)
    (hdrive : ∀ op ∈ pre, drives op = true) (h : FirstFailAt pre.length e s) :
    runPins (pre ++ op :: post) s = (some { op := op, e := e }, afterFail pre op e s) := by
  induction pre generalizing s with
  | nil => simp [runPins, firstFailAt_zero h, pinStep_fail op s e (firstFailAt_zero h)]
  | cons op' pre ih =>
    have hop := hdrive op' (by simp)
    rw [← afterFail_pinStep op' pre op e s _ (FirstFailAt.current h) hop]
    simp only [List.cons_append, runPins, FirstFailAt.current h]
    exact ih _ (fun op h => hdrive op (by simp [h])) (h.pinStep op')

/-- Everything a run of operations can do: all of them succeed, or a first one fails. -/
theorem runPins_cases (ops : List PinOp) (s : State) (hdrive : ∀ op ∈ ops, drives op = true) :
    (AllSucceed ops.length s ∧ runPins ops s = (none, afterOps ops s)) ∨
      ∃ pre op post e, ops = pre ++ op :: post ∧ FirstFailAt pre.length e s ∧
        runPins ops s = (some { op := op, e := e }, afterFail pre op e s) := by
  rcases allSucceed_or_firstFail ops.length s with h | ⟨k, e, hk, h⟩
  · exact .inl ⟨h, runPins_ok ops s hdrive h⟩
  · have hsplit : ops = ops.take k ++ ops[k] :: ops.drop (k + 1) := by simp
    have hlen : (ops.take k).length = k := by simp; omega
    refine .inr ⟨ops.take k, ops[k], ops.drop (k + 1), e, hsplit, by rwa [hlen], ?_⟩
    conv_lhs => rw [hsplit]
    exact runPins_fail _ _ _ _ _ (fun op h => hdrive op (List.mem_of_mem_take h)) (by rwa [hlen])

/-! ### The operations of the Matrix commands -/

theorem allColumns_drives (b : Config) (level : Level) : ∀ op ∈ allColumns b level, drives op = true := by
  simp [allColumns, drives]

theorem drainOps_drives (b : Config) : ∀ op ∈ drainOps b, drives op = true := by
  simp only [drainOps, List.mem_flatMap, List.mem_range]
  rintro op ⟨r, -, hop⟩
  simp only [drainRow, List.mem_cons, List.not_mem_nil, or_false] at hop
  rcases hop with rfl | rfl | rfl <;> rfl

@[simp] theorem allColumns_length (b : Config) (level : Level) : (allColumns b level).length = b.csize := by
  simp [allColumns]

@[simp] theorem drainOps_length (b : Config) : (drainOps b).length = 3 * b.rsize := by
  simp [drainOps, drainRow, List.length_flatMap, Nat.mul_comm]

end Sys2Proof.Machine
end

