-- ==== Sys2Proof/Laws/Matrix.lean ====
section
/-! SUPPORT. What the Matrix engine's commands but `MTX_SENSE` can do, said once (43_matrix_scanner.md rules R103 to R107
and R109 to R111). -/

namespace Sys2Proof.Machine

/-! ### Columns and rows after a run of operations -/

/-- The first `n` columns set to one level, the rest as they were. -/
theorem foldl_colSet (n : Nat) (level : Level) (cols : List ColDrive) :
    (((List.range n).map fun c => PinOp.colSet c level).foldl colsOk cols).length = cols.length ∧
      ∀ j, j < cols.length →
        (((List.range n).map fun c => PinOp.colSet c level).foldl colsOk cols)[j]? =
          if j < n then some (driveOf level) else cols[j]? := by
  induction n with
  | zero => simp
  | succ n ih =>
    simp only [List.range_succ, List.map_append, List.map_cons, List.map_nil, List.foldl_append, List.foldl_cons,
      List.foldl_nil, colsOk, List.length_set, ih.1, true_and]
    intro j hj
    rw [List.getElem?_set, ih.1]
    by_cases h : n = j
    · simp [h, hj]
    · rw [if_neg h, ih.2 j hj]
      by_cases h' : j < n
      · rw [if_pos h', if_pos (by omega)]
      · rw [if_neg h', if_neg (by omega)]

/-- Setting columns moves no row. -/
theorem foldl_colSet_rows (n : Nat) (level : Level) (rows : List RowMode) :
    ((List.range n).map fun c => PinOp.colSet c level).foldl rowsOk rows = rows := by
  induction n with
  | zero => rfl
  | succ n ih => simp [List.range_succ, rowsOk, ih]

/-- The drain moves no column. -/
theorem foldl_drain_cols (rs : List Nat) (cols : List ColDrive) : (rs.flatMap drainRow).foldl colsOk cols = cols := by
  induction rs with
  | nil => rfl
  | cons r rs ih => simp [List.flatMap_cons, drainRow, colsOk, ih]

/-- The first `n` rows drained are inputs, the rest as they were (rule R105). -/
theorem foldl_drain_rows (n : Nat) (rows : List RowMode) :
    (((List.range n).flatMap drainRow).foldl rowsOk rows).length = rows.length ∧
      ∀ j, j < rows.length →
        (((List.range n).flatMap drainRow).foldl rowsOk rows)[j]? = if j < n then some .input else rows[j]? := by
  induction n with
  | zero => simp
  | succ n ih =>
    simp only [List.range_succ, List.flatMap_append, List.flatMap_cons, List.flatMap_nil, List.append_nil, drainRow,
      List.foldl_append, List.foldl_cons, List.foldl_nil, rowsOk, List.length_set, ih.1, true_and]
    intro j hj
    rw [List.set_set, List.getElem?_set, ih.1]
    by_cases h : n = j
    · simp [h, hj]
    · rw [if_neg h, ih.2 j hj]
      by_cases h' : j < n
      · rw [if_pos h', if_pos (by omega)]
      · rw [if_neg h', if_neg (by omega)]

/-- Every row drained is an input (rule R105). -/
theorem foldl_drainOps_rows (b : Config) (rows : List RowMode) (h : rows.length = b.rsize) :
    (drainOps b).foldl rowsOk rows = List.replicate b.rsize .input := by
  obtain ⟨hlen, hget⟩ := foldl_drain_rows b.rsize rows
  apply List.ext_getElem?
  intro j
  by_cases hj : j < b.rsize
  · rw [drainOps, hget j (by omega), if_pos hj, List.getElem?_replicate, if_pos hj]
  · rw [List.getElem?_eq_none (by rw [drainOps]; omega), List.getElem?_eq_none (by simp; omega)]

/-- Every column set to one level (rules R103, R104). -/
theorem foldl_allColumns (b : Config) (level : Level) (cols : List ColDrive) (h : cols.length = b.csize) :
    (allColumns b level).foldl colsOk cols = List.replicate b.csize (driveOf level) := by
  obtain ⟨hlen, hget⟩ := foldl_colSet b.csize level cols
  apply List.ext_getElem?
  intro j
  by_cases hj : j < b.csize
  · rw [allColumns, hget j (by omega), if_pos hj, List.getElem?_replicate, if_pos hj]
  · rw [List.getElem?_eq_none (by rw [allColumns]; omega), List.getElem?_eq_none (by simp; omega)]

/-- A prefix of the columns' operations. -/
theorem allColumns_take (b : Config) (level : Level) (c : Nat) (h : c ≤ b.csize) :
    (allColumns b level).take c = (List.range c).map fun c => .colSet c level := by
  rw [allColumns, ← List.map_take, List.take_range, Nat.min_eq_left h]

theorem allColumns_getElem? (b : Config) (level : Level) (c : Nat) (h : c < b.csize) :
    (allColumns b level)[c]? = some (.colSet c level) := by
  simp [allColumns, h]

/-! ### A run of operations that fails at a known place -/

/-- A run of operations that fails at its `k`-th, `op` (rule R110). -/
theorem runPins_failAt (ops : List PinOp) (k : Nat) (op : PinOp) (e : PinError) (s : State)
    (hdrive : ∀ op ∈ ops, drives op = true) (hk : ops[k]? = some op) (h : FirstFailAt k e s) :
    runPins ops s = (some { op := op, e := e }, afterFail (ops.take k) op e s) := by
  obtain ⟨hlt, hget⟩ := List.getElem?_eq_some_iff.mp hk
  have hlen : (ops.take k).length = k := by simp; omega
  conv_lhs => rw [← List.take_append_drop k ops, List.drop_eq_getElem_cons hlt, hget]
  exact runPins_fail _ _ _ _ _ (fun op h => hdrive op (List.mem_of_mem_take h)) (by rwa [hlen])

/-- Everything a run of operations can do, with the place where it fails. -/
theorem runPins_casesAt (ops : List PinOp) (s : State) (hdrive : ∀ op ∈ ops, drives op = true) :
    (AllSucceed ops.length s ∧ runPins ops s = (none, afterOps ops s)) ∨
      ∃ k op e, ops[k]? = some op ∧ FirstFailAt k e s ∧
        runPins ops s = (some { op := op, e := e }, afterFail (ops.take k) op e s) := by
  rcases allSucceed_or_firstFail ops.length s with h | ⟨k, e, hk, h⟩
  · exact .inl ⟨h, runPins_ok ops s hdrive h⟩
  · exact .inr ⟨k, ops[k], e, by simp, h, runPins_failAt ops k _ e s hdrive (by simp) h⟩

/-! ### Fields after a run of operations -/

@[simp] theorem afterOps_build (ops : List PinOp) (s : State) : (afterOps ops s).build = s.build := rfl
@[simp] theorem afterOps_snsLive (ops : List PinOp) (s : State) : (afterOps ops s).snsLive = s.snsLive := rfl
@[simp] theorem afterOps_snsCap (ops : List PinOp) (s : State) : (afterOps ops s).snsCap = s.snsCap := rfl
@[simp] theorem afterOps_recs (ops : List PinOp) (s : State) : (afterOps ops s).recs = s.recs := rfl
@[simp] theorem afterOps_mtxLive (ops : List PinOp) (s : State) : (afterOps ops s).mtxLive = s.mtxLive := rfl
@[simp] theorem afterOps_curStrobe (ops : List PinOp) (s : State) : (afterOps ops s).curStrobe = s.curStrobe := rfl
@[simp] theorem afterOps_cells (ops : List PinOp) (s : State) : (afterOps ops s).cells = s.cells := rfl
@[simp] theorem afterOps_fault (ops : List PinOp) (s : State) : (afterOps ops s).fault = s.fault := rfl
@[simp] theorem afterOps_hostCmds (ops : List PinOp) (s : State) : (afterOps ops s).hostCmds = s.hostCmds := rfl
@[simp] theorem afterOps_responses (ops : List PinOp) (s : State) : (afterOps ops s).responses = s.responses := rfl
@[simp] theorem afterOps_colDrive (ops : List PinOp) (s : State) :
    (afterOps ops s).colDrive = ops.foldl colsOk s.colDrive := rfl
@[simp] theorem afterOps_rowMode (ops : List PinOp) (s : State) :
    (afterOps ops s).rowMode = ops.foldl rowsOk s.rowMode := rfl
@[simp] theorem afterOps_pinTrace (ops : List PinOp) (s : State) :
    (afterOps ops s).pinTrace = s.pinTrace ++ okTrace ops := rfl
@[simp] theorem afterFail_build (ops : List PinOp) (op : PinOp) (e : PinError) (s : State) :
    (afterFail ops op e s).build = s.build := rfl
@[simp] theorem afterFail_snsLive (ops : List PinOp) (op : PinOp) (e : PinError) (s : State) :
    (afterFail ops op e s).snsLive = s.snsLive := rfl
@[simp] theorem afterFail_snsCap (ops : List PinOp) (op : PinOp) (e : PinError) (s : State) :
    (afterFail ops op e s).snsCap = s.snsCap := rfl
@[simp] theorem afterFail_recs (ops : List PinOp) (op : PinOp) (e : PinError) (s : State) :
    (afterFail ops op e s).recs = s.recs := rfl
@[simp] theorem afterFail_mtxLive (ops : List PinOp) (op : PinOp) (e : PinError) (s : State) :
    (afterFail ops op e s).mtxLive = s.mtxLive := rfl
@[simp] theorem afterFail_curStrobe (ops : List PinOp) (op : PinOp) (e : PinError) (s : State) :
    (afterFail ops op e s).curStrobe = s.curStrobe := rfl
@[simp] theorem afterFail_cells (ops : List PinOp) (op : PinOp) (e : PinError) (s : State) :
    (afterFail ops op e s).cells = s.cells := rfl
@[simp] theorem afterFail_fault (ops : List PinOp) (op : PinOp) (e : PinError) (s : State) :
    (afterFail ops op e s).fault = s.fault := rfl
@[simp] theorem afterFail_hostCmds (ops : List PinOp) (op : PinOp) (e : PinError) (s : State) :
    (afterFail ops op e s).hostCmds = s.hostCmds := rfl
@[simp] theorem afterFail_responses (ops : List PinOp) (op : PinOp) (e : PinError) (s : State) :
    (afterFail ops op e s).responses = s.responses := rfl
@[simp] theorem afterFail_colDrive (ops : List PinOp) (op : PinOp) (e : PinError) (s : State) :
    (afterFail ops op e s).colDrive = colsFail (ops.foldl colsOk s.colDrive) op := rfl
@[simp] theorem afterFail_rowMode (ops : List PinOp) (op : PinOp) (e : PinError) (s : State) :
    (afterFail ops op e s).rowMode = rowsFail (ops.foldl rowsOk s.rowMode) op := rfl
@[simp] theorem afterFail_pinTrace (ops : List PinOp) (op : PinOp) (e : PinError) (s : State) :
    (afterFail ops op e s).pinTrace = s.pinTrace ++ okTrace ops ++ [{ op := op, answer := .err e }] := rfl

@[simp] theorem afterOps_pinDraws (ops : List PinOp) (s : State) :
    (afterOps ops s).pinDraws = s.pinDraws.drop ops.length := rfl
@[simp] theorem afterOps_freeDraws (ops : List PinOp) (s : State) :
    (afterOps ops s).freeDraws = s.freeDraws + (ops.length - s.pinDraws.length) := rfl
@[simp] theorem afterFail_pinDraws (ops : List PinOp) (op : PinOp) (e : PinError) (s : State) :
    (afterFail ops op e s).pinDraws = s.pinDraws.drop (ops.length + 1) := rfl
@[simp] theorem afterFail_freeDraws (ops : List PinOp) (op : PinOp) (e : PinError) (s : State) :
    (afterFail ops op e s).freeDraws = s.freeDraws + (ops.length + 1 - s.pinDraws.length) := rfl

/-- No operation changes how many columns there are. -/
theorem foldl_colsOk_length (ops : List PinOp) (cols : List ColDrive) :
    (ops.foldl colsOk cols).length = cols.length := by
  induction ops generalizing cols with
  | nil => rfl
  | cons op ops ih => rw [List.foldl_cons, ih]; cases op <;> simp [colsOk]

/-- No operation changes how many rows there are. -/
theorem foldl_rowsOk_length (ops : List PinOp) (rows : List RowMode) :
    (ops.foldl rowsOk rows).length = rows.length := by
  induction ops generalizing rows with
  | nil => rfl
  | cons op ops ih => rw [List.foldl_cons, ih]; cases op <;> simp [rowsOk]

theorem colsFail_length (cols : List ColDrive) (op : PinOp) : (colsFail cols op).length = cols.length := by
  cases op <;> simp [colsFail]

theorem rowsFail_length (rows : List RowMode) (op : PinOp) : (rowsFail rows op).length = rows.length := by
  cases op <;> simp [rowsFail]

/-! ### The commands -/

/-- The state after a successful `MTX_INIT` but for its response (rule R103). -/
def initDone (s : State) : State :=
  { afterOps (allColumns s.build .inactive) s with
    curStrobe := preFirst s.build
    cells := List.replicate (s.build.csize * s.build.rsize) debReset
    mtxLive := true }

@[simp] theorem initDone_build (s : State) : (initDone s).build = s.build := rfl
@[simp] theorem initDone_snsLive (s : State) : (initDone s).snsLive = s.snsLive := rfl
@[simp] theorem initDone_snsCap (s : State) : (initDone s).snsCap = s.snsCap := rfl
@[simp] theorem initDone_recs (s : State) : (initDone s).recs = s.recs := rfl
@[simp] theorem initDone_fault (s : State) : (initDone s).fault = s.fault := rfl
@[simp] theorem initDone_hostCmds (s : State) : (initDone s).hostCmds = s.hostCmds := rfl
@[simp] theorem initDone_responses (s : State) : (initDone s).responses = s.responses := rfl
@[simp] theorem initDone_curStrobe (s : State) : (initDone s).curStrobe = preFirst s.build := rfl
@[simp] theorem initDone_cells (s : State) :
    (initDone s).cells = List.replicate (s.build.csize * s.build.rsize) debReset := rfl
@[simp] theorem initDone_mtxLive (s : State) : (initDone s).mtxLive = true := rfl
@[simp] theorem initDone_colDrive (s : State) :
    (initDone s).colDrive = (allColumns s.build .inactive).foldl colsOk s.colDrive := rfl
@[simp] theorem initDone_rowMode (s : State) : (initDone s).rowMode = s.rowMode :=
  foldl_colSet_rows s.build.csize .inactive s.rowMode
@[simp] theorem initDone_pinTrace (s : State) :
    (initDone s).pinTrace = s.pinTrace ++ okTrace (allColumns s.build .inactive) := rfl
@[simp] theorem initDone_pinDraws (s : State) :
    (initDone s).pinDraws = s.pinDraws.drop (allColumns s.build .inactive).length := rfl
@[simp] theorem initDone_freeDraws (s : State) :
    (initDone s).freeDraws = s.freeDraws + ((allColumns s.build .inactive).length - s.pinDraws.length) := rfl

/-- Everything `MTX_INIT` can do (rule R103). -/
theorem execMtxInit_cases (s : State) :
    (AllSucceed s.build.csize s ∧ execMtxInit s = .next (respond .okNone (initDone s))) ∨
      ∃ c e, c < s.build.csize ∧ FirstFailAt c e s ∧
        execMtxInit s = .next (respond (.errIo .colSet c e)
          { afterFail ((List.range c).map fun c => .colSet c .inactive) (.colSet c .inactive) e s with
            mtxLive := false }) := by
  rcases runPins_casesAt (allColumns s.build .inactive) s (allColumns_drives _ _) with
    ⟨h, hr⟩ | ⟨k, op, e, hk, h, hr⟩
  · exact .inl ⟨by simpa using h, by simp [execMtxInit, constructMatrix, hr, initDone]⟩
  · have hlt : k < s.build.csize := by
      have := (List.getElem?_eq_some_iff.mp hk).1
      simpa using this
    rw [allColumns_getElem? _ _ _ hlt] at hk
    obtain rfl := Option.some.inj hk
    exact .inr ⟨k, e, hlt, h, by
      simp [execMtxInit, constructMatrix, hr, respondIo, kindOf, pinOf, allColumns_take _ _ _ (Nat.le_of_lt hlt)]⟩

/-- Everything `MTX_CLEAR` can do (rule R104). -/
theorem execMtxClear_cases (s : State) :
    (s.mtxLive = false ∧ execMtxClear s = .next (raise (.unconstructed .matrix) s)) ∨
      (s.mtxLive = true ∧
        ((AllSucceed s.build.csize s ∧ execMtxClear s = .next (respond .okNone
            { afterOps (allColumns s.build .inactive) s with curStrobe := preFirst s.build })) ∨
          ∃ c e, c < s.build.csize ∧ FirstFailAt c e s ∧
            execMtxClear s = .next (respond (.errIo .colSet c e)
              (afterFail ((List.range c).map fun c => .colSet c .inactive) (.colSet c .inactive) e s)))) := by
  cases hl : s.mtxLive with
  | false => exact .inl ⟨rfl, by simp [execMtxClear, withMatrix, hl]⟩
  | true =>
    refine .inr ⟨rfl, ?_⟩
    rcases runPins_casesAt (allColumns s.build .inactive) s (allColumns_drives _ _) with
      ⟨h, hr⟩ | ⟨k, op, e, hk, h, hr⟩
    · exact .inl ⟨by simpa using h, by simp [execMtxClear, withMatrix, hl, clearColumns, hr]⟩
    · have hlt : k < s.build.csize := by
        have := (List.getElem?_eq_some_iff.mp hk).1
        simpa using this
      rw [allColumns_getElem? _ _ _ hlt] at hk
      obtain rfl := Option.some.inj hk
      exact .inr ⟨k, e, hlt, h, by
        simp [execMtxClear, withMatrix, hl, clearColumns, hr, respondIo, kindOf, pinOf,
          allColumns_take _ _ _ (Nat.le_of_lt hlt)]⟩

/-- The operations of `MTX_NEXT` before the strobe index advances. -/
def offOps (b : Config) (cur : Nat) : List PinOp := .colSet cur .inactive :: drainOps b

theorem offOps_drives (b : Config) (cur : Nat) : ∀ op ∈ offOps b cur, drives op = true := by
  simp only [offOps, List.mem_cons, forall_eq_or_imp]
  exact ⟨rfl, drainOps_drives b⟩

@[simp] theorem offOps_length (b : Config) (cur : Nat) : (offOps b cur).length = 3 * b.rsize + 1 := by simp [offOps]

theorem nextOps_eq (b : Config) (cur : Nat) :
    nextOps b cur = offOps b cur ++ [.colSet (nextStrobe b cur) .active] := by simp [nextOps, offOps]

/-- The state in which `MTX_NEXT` activates the new column: the index has advanced (rule R107). -/
def advanced (s : State) : State :=
  { afterOps (offOps s.build s.curStrobe) s with curStrobe := nextStrobe s.build s.curStrobe }

/-- The last steps of `MTX_NEXT` run in the state `advanced`. -/
theorem activateNext_advanced (s : State) :
    activateNext (afterOps (offOps s.build s.curStrobe) s) =
      match runPins [.colSet (nextStrobe s.build s.curStrobe) .active] (advanced s) with
      | (some f, s1) => respondIo f s1
      | (none, s1) => respond (.okIndex s1.curStrobe) s1 := rfl

@[simp] theorem advanced_curStrobe (s : State) : (advanced s).curStrobe = nextStrobe s.build s.curStrobe := rfl

@[simp] theorem advanced_build (s : State) : (advanced s).build = s.build := rfl
@[simp] theorem advanced_snsLive (s : State) : (advanced s).snsLive = s.snsLive := rfl
@[simp] theorem advanced_snsCap (s : State) : (advanced s).snsCap = s.snsCap := rfl
@[simp] theorem advanced_recs (s : State) : (advanced s).recs = s.recs := rfl
@[simp] theorem advanced_mtxLive (s : State) : (advanced s).mtxLive = s.mtxLive := rfl
@[simp] theorem advanced_cells (s : State) : (advanced s).cells = s.cells := rfl
@[simp] theorem advanced_fault (s : State) : (advanced s).fault = s.fault := rfl
@[simp] theorem advanced_hostCmds (s : State) : (advanced s).hostCmds = s.hostCmds := rfl
@[simp] theorem advanced_responses (s : State) : (advanced s).responses = s.responses := rfl
@[simp] theorem advanced_pinTrace (s : State) :
    (advanced s).pinTrace = s.pinTrace ++ okTrace (offOps s.build s.curStrobe) := rfl
@[simp] theorem advanced_pinDraws (s : State) :
    (advanced s).pinDraws = s.pinDraws.drop (offOps s.build s.curStrobe).length := rfl
@[simp] theorem advanced_freeDraws (s : State) :
    (advanced s).freeDraws = s.freeDraws + ((offOps s.build s.curStrobe).length - s.pinDraws.length) := rfl

/-- Before the new column is driven the old one is inactive, and no other has moved (rule R107). -/
@[simp] theorem advanced_colDrive (s : State) : (advanced s).colDrive = s.colDrive.set s.curStrobe .inactive := by
  show (offOps s.build s.curStrobe).foldl colsOk s.colDrive = _
  simp [offOps, drainOps, foldl_drain_cols, colsOk, driveOf]

/-- Before the new column is driven every row is an input again (rule R105). -/
theorem advanced_rowMode (s : State) (h : s.rowMode.length = s.build.rsize) :
    (advanced s).rowMode = List.replicate s.build.rsize .input := by
  show (offOps s.build s.curStrobe).foldl rowsOk s.rowMode = _
  simp [offOps, rowsOk, foldl_drainOps_rows s.build s.rowMode h]

/-- Everything `MTX_NEXT` can do (rules R107, R110). -/
theorem execMtxNext_cases (s : State) :
    (s.mtxLive = false ∧ execMtxNext s = .next (raise (.unconstructed .matrix) s)) ∨
      (s.mtxLive = true ∧
        ((AllSucceed (3 * s.build.rsize + 2) s ∧
            execMtxNext s = .next (respond (.okIndex (nextStrobe s.build s.curStrobe))
              (afterOps [.colSet (nextStrobe s.build s.curStrobe) .active] (advanced s)))) ∨
          (∃ e, FirstFailAt (3 * s.build.rsize + 1) e s ∧
            execMtxNext s = .next (respond (.errIo .colSet (nextStrobe s.build s.curStrobe) e)
              (afterFail [] (.colSet (nextStrobe s.build s.curStrobe) .active) e (advanced s)))) ∨
          (∃ k op e, k < 3 * s.build.rsize + 1 ∧ (offOps s.build s.curStrobe)[k]? = some op ∧ FirstFailAt k e s ∧
            execMtxNext s = .next (respond (.errIo (kindOf op) (pinOf op) e)
              (afterFail ((offOps s.build s.curStrobe).take k) op e s))))) := by
  cases hl : s.mtxLive with
  | false => exact .inl ⟨rfl, by simp [execMtxNext, withMatrix, hl]⟩
  | true =>
    refine .inr ⟨rfl, ?_⟩
    have hdraw : drawAt (advanced s) 0 = drawAt s (3 * s.build.rsize + 1) := by
      simp [drawAt, advanced, afterOps, afterDraws, List.getD_eq_getElem?_getD]
    rcases runPins_casesAt (offOps s.build s.curStrobe) s (offOps_drives _ _) with
      ⟨h, hr⟩ | ⟨k, op, e, hk, h, hr⟩
    · rw [offOps_length] at h
      have hexec : execMtxNext s = .next (activateNext (afterOps (offOps s.build s.curStrobe) s)) := by
        rw [offOps] at hr ⊢
        simp [execMtxNext, withMatrix, hl, advanceStrobe, hr]
      rcases runPins_casesAt [.colSet (nextStrobe s.build s.curStrobe) .active] (advanced s) (by simp [drives]) with
        ⟨h', hr'⟩ | ⟨k, op, e, hk, h', hr'⟩
      · refine .inl ⟨fun k hk => ?_, ?_⟩
        · by_cases hk' : k = 3 * s.build.rsize + 1
          · rw [hk', ← hdraw]
            exact h' 0 (by simp)
          · exact h k (by omega)
        · simp [hexec, activateNext_advanced, hr']
      · have hk0 : k = 0 := by
          have := (List.getElem?_eq_some_iff.mp hk).1
          simpa using this
        subst hk0
        obtain rfl : PinOp.colSet (nextStrobe s.build s.curStrobe) .active = op := by simpa using hk
        refine .inr (.inl ⟨e, ⟨h, by rw [← hdraw]; exact h'.2⟩, ?_⟩)
        simp [hexec, activateNext_advanced, hr', respondIo, kindOf, pinOf]
    · have hlt : k < 3 * s.build.rsize + 1 := by
        have := (List.getElem?_eq_some_iff.mp hk).1
        simpa using this
      refine .inr (.inr ⟨k, op, e, hlt, hk, h, ?_⟩)
      rw [offOps] at hr ⊢
      simp [execMtxNext, withMatrix, hl, advanceStrobe, hr, respondIo]

/-- Everything `MTX_STROBE` can do (rule R109). -/
theorem execMtxStrobe_cases (s : State) :
    (s.mtxLive = false ∧ execMtxStrobe s = .next (raise (.unconstructed .matrix) s)) ∨
      (s.mtxLive = true ∧ execMtxStrobe s = .next (respond (.okIndex s.curStrobe) s)) := by
  cases hl : s.mtxLive with
  | false => exact .inl ⟨rfl, by simp [execMtxStrobe, withMatrix, hl]⟩
  | true => exact .inr ⟨rfl, by simp [execMtxStrobe, withMatrix, hl]⟩

/-- Rule R106: the successor is the next index, modulo the number of columns. -/
theorem nextStrobe_eq_mod (b : Config) (c : Nat) (h : c < b.csize) : nextStrobe b c = (c + 1) % b.csize := by
  unfold nextStrobe
  split
  · rw [show c + 1 = b.csize by omega, Nat.mod_self]
  · rw [Nat.mod_eq_of_lt (by omega)]

theorem nextStrobe_lt (b : Config) (c : Nat) (h : c < b.csize) : nextStrobe b c < b.csize := by
  rw [nextStrobe_eq_mod b c h]
  exact Nat.mod_lt _ (by omega)

end Sys2Proof.Machine
end

