-- ==== Sys2Proof/Laws/PerInstr.lean ====
section
/-! SUPPORT. One lemma for each command: the word of the command spells its own row of the opcode map, and that row is one
of the eight (30_encoding.md rule R58). -/

namespace Sys2Proof.Laws.Spelling

/-- The encoding of `i` spells the row of `i`, which is a row of the opcode map. -/
def Statement (i : Instr) : Prop := spells (encode i) (opcodeRow i) = true ∧ opcodeRow i ∈ opcodeRows

theorem snsInit (capacity : BitVec 16) : Statement (.snsInit capacity) := by
  refine ⟨?_, by simp [opcodeRows, opcodeRow]⟩
  have : (packFields 1#4 0#12 capacity &&& 0xFFFF0000#32) = 0x10000000#32 := by
    apply BitVec.eq_of_getLsbD_eq
    intro k hk
    simp only [packFields, BitVec.getLsbD_and, BitVec.getLsbD_append]
    interval_cases k <;> simp
  simp [spells, encode, opcodeRow, this]

theorem snsAdd (index : Index) (reading : Raw) : Statement (.snsAdd index reading) := by
  refine ⟨?_, by simp [opcodeRows, opcodeRow]⟩
  have : (packFields 2#4 index reading &&& 0xF0000000#32) = 0x20000000#32 := by
    apply BitVec.eq_of_getLsbD_eq
    intro k hk
    simp only [packFields, BitVec.getLsbD_and, BitVec.getLsbD_append]
    interval_cases k <;> simp
  simp [spells, encode, opcodeRow, this]

theorem snsGet (index : Index) : Statement (.snsGet index) := by
  refine ⟨?_, by simp [opcodeRows, opcodeRow]⟩
  have : (packFields 3#4 index 0#16 &&& 0xF000FFFF#32) = 0x30000000#32 := by
    apply BitVec.eq_of_getLsbD_eq
    intro k hk
    simp only [packFields, BitVec.getLsbD_and, BitVec.getLsbD_append]
    interval_cases k <;> simp
  simp [spells, encode, opcodeRow, this]

theorem mtxInit : Statement .mtxInit := ⟨by decide, by decide⟩

theorem mtxClear : Statement .mtxClear := ⟨by decide, by decide⟩

theorem mtxNext : Statement .mtxNext := ⟨by decide, by decide⟩

theorem mtxSense : Statement .mtxSense := ⟨by decide, by decide⟩

theorem mtxStrobe : Statement .mtxStrobe := ⟨by decide, by decide⟩

end Sys2Proof.Laws.Spelling
end

