-- ==== Sys2Proof/Laws/Sense.lean ====
section
/-! SUPPORT. What `MTX_SENSE` can do, said once (43_matrix_scanner.md rules R108, R110 and R114): the rows before the first
that fails or overflows are recorded, each into its own cell, from what that cell held before the command. -/

namespace Sys2Proof.Machine

/-- The cell that row `r` of the strobed column is recorded into (rule R29). -/
def strobedCell (s : State) (r : Nat) : Cell := readCell s (s.curStrobe * s.build.rsize + r)

/-- Where a cell stands, it is the one that row `r` is recorded into. -/
theorem strobedCell_of_getElem? {s : State} {r : Nat} {c : Cell}
    (h : s.cells[s.curStrobe * s.build.rsize + r]? = some c) : strobedCell s r = c := by
  simp [strobedCell, readCell, List.getD_eq_getElem?_getD, h]

/-- A property of every cell of a grid of `n`, said of its addresses. -/
theorem forall_cells_iff {s : State} {n : Nat} (P : Cell → Prop) (h : s.cells.length = n) :
    (∀ c ∈ s.cells, P c) ↔ ∀ k, k < n → P (readCell s k) := by
  subst h
  rw [List.forall_mem_iff_getElem]
  refine forall₂_congr fun k hk => ?_
  simp [readCell, List.getD_eq_getElem?_getD, hk]

/-- The level row `r` reads, if no read before it fails. -/
def levelOf (s : State) (r : Nat) : Bool := drawLevel (drawAt s r)

/-- What row `r` leaves in its cell, where its record does not overflow. -/
def cellAfter (s : State) (r : Nat) : Cell := (debRecord s.build (strobedCell s r) (levelOf s r)).getD debReset

/-- The first `n` rows are read and recorded without failure or overflow. -/
def Recorded (n : Nat) (s : State) : Prop :=
  ∀ r, r < n → drawAt s r = .succeed (levelOf s r) ∧
    debRecord s.build (strobedCell s r) (levelOf s r) = some (cellAfter s r)

/-- The grid after the first `n` rows. -/
def gridAfter (n : Nat) (s : State) : List Cell :=
  (List.range n).foldl (fun cells r => cells.set (s.curStrobe * s.build.rsize + r) (cellAfter s r)) s.cells

/-- The trace of the first `n` rows. -/
def readTrace (n : Nat) (s : State) : List PinEvent :=
  (List.range n).map fun r => { op := .rowRead r, answer := .level (levelOf s r) }

/-- The state after the first `n` rows. -/
def rowsDone (n : Nat) (s : State) : State :=
  { afterDraws n s with cells := gridAfter n s, pinTrace := s.pinTrace ++ readTrace n s }

@[simp] theorem rowsDone_build (n : Nat) (s : State) : (rowsDone n s).build = s.build := rfl
@[simp] theorem rowsDone_snsLive (n : Nat) (s : State) : (rowsDone n s).snsLive = s.snsLive := rfl
@[simp] theorem rowsDone_snsCap (n : Nat) (s : State) : (rowsDone n s).snsCap = s.snsCap := rfl
@[simp] theorem rowsDone_recs (n : Nat) (s : State) : (rowsDone n s).recs = s.recs := rfl
@[simp] theorem rowsDone_mtxLive (n : Nat) (s : State) : (rowsDone n s).mtxLive = s.mtxLive := rfl
@[simp] theorem rowsDone_curStrobe (n : Nat) (s : State) : (rowsDone n s).curStrobe = s.curStrobe := rfl
@[simp] theorem rowsDone_colDrive (n : Nat) (s : State) : (rowsDone n s).colDrive = s.colDrive := rfl
@[simp] theorem rowsDone_rowMode (n : Nat) (s : State) : (rowsDone n s).rowMode = s.rowMode := rfl
@[simp] theorem rowsDone_fault (n : Nat) (s : State) : (rowsDone n s).fault = s.fault := rfl
@[simp] theorem rowsDone_hostCmds (n : Nat) (s : State) : (rowsDone n s).hostCmds = s.hostCmds := rfl
@[simp] theorem rowsDone_responses (n : Nat) (s : State) : (rowsDone n s).responses = s.responses := rfl
@[simp] theorem rowsDone_cells (n : Nat) (s : State) : (rowsDone n s).cells = gridAfter n s := rfl
@[simp] theorem rowsDone_pinTrace (n : Nat) (s : State) :
    (rowsDone n s).pinTrace = s.pinTrace ++ readTrace n s := rfl
@[simp] theorem rowsDone_pinDraws (n : Nat) (s : State) : (rowsDone n s).pinDraws = s.pinDraws.drop n := rfl
@[simp] theorem rowsDone_freeDraws (n : Nat) (s : State) :
    (rowsDone n s).freeDraws = s.freeDraws + (n - s.pinDraws.length) := rfl

theorem gridAfter_length (n : Nat) (s : State) : (gridAfter n s).length = s.cells.length := by
  induction n with
  | zero => rfl
  | succ n ih => rw [gridAfter, List.range_succ, List.foldl_append]; simpa [gridAfter] using ih

theorem gridAfter_succ (n : Nat) (s : State) :
    gridAfter (n + 1) s = (gridAfter n s).set (s.curStrobe * s.build.rsize + n) (cellAfter s n) := by
  simp [gridAfter, List.range_succ]

/-- A cell of a row not among the first `n` is as it was (rule R114). -/
theorem gridAfter_other (n : Nat) (s : State) (k : Nat) (h : ∀ r, r < n → k ≠ s.curStrobe * s.build.rsize + r) :
    (gridAfter n s)[k]? = s.cells[k]? := by
  induction n with
  | zero => rfl
  | succ n ih =>
    rw [gridAfter_succ, List.getElem?_set_ne (h n (by omega)).symm]
    exact ih fun r hr => h r (by omega)

/-- The cell of each of the first `n` rows holds its record (rule R114). -/
theorem gridAfter_own (n : Nat) (s : State) (r : Nat) (hr : r < n)
    (hlen : s.curStrobe * s.build.rsize + r < s.cells.length) :
    (gridAfter n s)[s.curStrobe * s.build.rsize + r]? = some (cellAfter s r) := by
  induction n with
  | zero => omega
  | succ n ih =>
    rw [gridAfter_succ]
    by_cases h : r = n
    · subst h
      rw [List.getElem?_set_self (by rw [gridAfter_length]; exact hlen)]
    · rw [List.getElem?_set_ne (by omega)]
      exact ih (by omega)

theorem drawAt_rowsDone (n k : Nat) (s : State) : drawAt (rowsDone n s) k = drawAt s (n + k) := by
  simp only [drawAt, rowsDone, afterDraws, List.getD_eq_getElem?_getD, List.getElem?_drop, List.length_drop]
  congr 2
  omega

theorem strobedCell_rowsDone (n : Nat) (s : State) : strobedCell (rowsDone n s) n = strobedCell s n := by
  have := gridAfter_other n s (s.curStrobe * s.build.rsize + n) (fun r hr => by omega)
  simp [strobedCell, readCell, rowsDone, afterDraws, List.getD_eq_getElem?_getD, this]

theorem rowsDone_zero (s : State) : rowsDone 0 s = s := by
  simp [rowsDone, afterDraws, gridAfter, readTrace]

/-- A row read leaves the shadow alone (rule R111). -/
theorem pinStep_rowRead (r : Nat) (s : State) :
    pinStep (.rowRead r) s = logPin (.rowRead r) (currentDraw s) (consumeDraw s) := by
  unfold pinStep
  cases currentDraw s <;> rfl

/-- One more row recorded. -/
theorem rowsDone_succ (n : Nat) (s : State) (h : drawAt s n = .succeed (levelOf s n)) :
    writeCell (cellAddr s.build s.curStrobe n) (cellAfter s n) (pinStep (.rowRead n) (rowsDone n s)) =
      rowsDone (n + 1) s := by
  have hd : currentDraw (rowsDone n s) = .succeed (levelOf s n) := by
    rw [currentDraw_eq_drawAt, drawAt_rowsDone, Nat.add_zero, h]
  rw [pinStep_rowRead, hd]
  simp [logPin, consumeDraw, writeCell, rowsDone, afterDraws, answerOf, gridAfter_succ, cellAddr, readTrace,
    List.range_succ]
  split <;> omega

/-- The rows of a list, then those of another. -/
theorem senseRows_append (rows rows' : List Nat) (ev : List KeyEvent) (s : State) :
    senseRows (rows ++ rows') ev s =
      match senseRows rows ev s with
      | .done ev' s' => senseRows rows' ev' s'
      | .ioFailed f s' => .ioFailed f s'
      | .cellOverflow k s' => .cellOverflow k s' := by
  induction rows generalizing ev s with
  | nil => rfl
  | cons r rows ih =>
    simp only [List.cons_append, senseRows]
    cases currentDraw s with
    | fail e => rfl
    | succeed level =>
      cases hr : debRecord s.build (readCell s (cellAddr s.build s.curStrobe r)) level with
      | none => simp [hr]
      | some c => simpa [hr] using ih _ _

/-- The first `n` rows, all recorded (rule R108). -/
theorem senseRows_recorded (n : Nat) (s : State) (h : Recorded n s) :
    senseRows (List.range n) [] s = .done ((List.range n).map fun r => keyEvent (cellAfter s r)) (rowsDone n s) := by
  induction n with
  | zero => simp [senseRows, rowsDone_zero]
  | succ n ih =>
    have hn := h n (by omega)
    have hd : currentDraw (rowsDone n s) = .succeed (levelOf s n) := by
      rw [currentDraw_eq_drawAt, drawAt_rowsDone, Nat.add_zero, hn.1]
    have hc : readCell (rowsDone n s) (cellAddr (rowsDone n s).build (rowsDone n s).curStrobe n) = strobedCell s n :=
      strobedCell_rowsDone n s
    rw [List.range_succ, senseRows_append, ih fun r hr => h r (by omega)]
    simp only [senseRows, hd, hc]
    rw [show (rowsDone n s).build = s.build from rfl, hn.2]
    simp only [List.map_append, List.map_cons, List.map_nil]
    rw [show (rowsDone n s).curStrobe = s.curStrobe from rfl, rowsDone_succ n s hn.1]

theorem range_split {n m : Nat} (h : n < m) :
    List.range m = List.range n ++ n :: List.range' (n + 1) (m - n - 1) := by
  have := List.range'_append_1 (s := 0) (m := n) (n := m - n)
  rw [List.range_eq_range', List.range_eq_range', ← List.range'_succ, show m - n - 1 + 1 = m - n by omega]
  rw [Nat.zero_add] at this
  rw [this]
  congr 1
  omega

/-- The first rows recorded, and the read of the next one fails (rule R110). -/
theorem senseRows_fails (n m : Nat) (e : PinError) (s : State) (hn : n < m) (h : Recorded n s)
    (hf : drawAt s n = .fail e) :
    senseRows (List.range m) [] s =
      .ioFailed { op := .rowRead n, e := e } (pinStep (.rowRead n) (rowsDone n s)) := by
  have hd : currentDraw (rowsDone n s) = .fail e := by
    rw [currentDraw_eq_drawAt, drawAt_rowsDone, Nat.add_zero, hf]
  rw [range_split hn, senseRows_append, senseRows_recorded n s h]
  simp [senseRows, hd]

/-- The first rows recorded, and the record of the next one overflows (rule R132). -/
theorem senseRows_overflows (n m : Nat) (s : State) (hn : n < m) (h : Recorded n s)
    (hd : drawAt s n = .succeed (levelOf s n)) (ho : debRecord s.build (strobedCell s n) (levelOf s n) = none) :
    senseRows (List.range m) [] s =
      .cellOverflow (cellAddr s.build s.curStrobe n) (pinStep (.rowRead n) (rowsDone n s)) := by
  have hd' : currentDraw (rowsDone n s) = .succeed (levelOf s n) := by
    rw [currentDraw_eq_drawAt, drawAt_rowsDone, Nat.add_zero, hd]
  have hc : readCell (rowsDone n s) (cellAddr (rowsDone n s).build (rowsDone n s).curStrobe n) = strobedCell s n :=
    strobedCell_rowsDone n s
  rw [range_split hn, senseRows_append, senseRows_recorded n s h]
  simp only [senseRows, hd', hc]
  rw [show (rowsDone n s).build = s.build from rfl, ho]
  rfl

/-- All rows are recorded, or there is a first that fails or overflows. -/
theorem recorded_or_first (m : Nat) (s : State) :
    Recorded m s ∨ ∃ n, n < m ∧ Recorded n s ∧
      ((∃ e, drawAt s n = .fail e) ∨
        (drawAt s n = .succeed (levelOf s n) ∧ debRecord s.build (strobedCell s n) (levelOf s n) = none)) := by
  induction m with
  | zero => exact .inl fun r hr => by omega
  | succ m ih =>
    rcases ih with h | ⟨n, hn, h⟩
    · cases hd : drawAt s m with
      | fail e => exact .inr ⟨m, by omega, h, .inl ⟨e, hd⟩⟩
      | succeed level =>
        have hl : levelOf s m = level := by simp [levelOf, hd, drawLevel]
        cases hr : debRecord s.build (strobedCell s m) (levelOf s m) with
        | none => exact .inr ⟨m, by omega, h, .inr ⟨by rw [hd, hl], hr⟩⟩
        | some c =>
          refine .inl fun r hr' => ?_
          by_cases hrm : r = m
          · subst hrm
            exact ⟨by rw [hd, hl], by simp [cellAfter, hr]⟩
          · exact h r (by omega)
    · exact .inr ⟨n, by omega, h⟩

/-- Everything `MTX_SENSE` can do (rules R108, R110, R132). -/
theorem execMtxSense_cases (s : State) :
    (s.mtxLive = false ∧ execMtxSense s = .next (raise (.unconstructed .matrix) s)) ∨
      (s.mtxLive = true ∧
        ((Recorded s.build.rsize s ∧ execMtxSense s = .next (respond
            (.okEvents ((List.range s.build.rsize).map fun r => keyEvent (cellAfter s r))) (rowsDone s.build.rsize s))) ∨
          (∃ n e, n < s.build.rsize ∧ Recorded n s ∧ drawAt s n = .fail e ∧
            execMtxSense s = .next (respond (.errIo .rowRead n e) (pinStep (.rowRead n) (rowsDone n s)))) ∨
          (∃ n, n < s.build.rsize ∧ Recorded n s ∧ drawAt s n = .succeed (levelOf s n) ∧
            debRecord s.build (strobedCell s n) (levelOf s n) = none ∧
            execMtxSense s = .next (raise (.counterOverflow (.cell (s.curStrobe * s.build.rsize + n)))
              (pinStep (.rowRead n) (rowsDone n s)))))) := by
  cases hl : s.mtxLive with
  | false => exact .inl ⟨rfl, by simp [execMtxSense, withMatrix, hl]⟩
  | true =>
    refine .inr ⟨rfl, ?_⟩
    rcases recorded_or_first s.build.rsize s with h | ⟨n, hn, h, ⟨e, he⟩ | ⟨hd, ho⟩⟩
    · exact .inl ⟨h, by simp [execMtxSense, withMatrix, hl, senseColumn, senseRows_recorded _ _ h]⟩
    · exact .inr (.inl ⟨n, e, hn, h, he, by
        simp [execMtxSense, withMatrix, hl, senseColumn, senseRows_fails n _ e s hn h he, respondIo, kindOf, pinOf]⟩)
    · exact .inr (.inr ⟨n, hn, h, hd, ho, by
        simp [execMtxSense, withMatrix, hl, senseColumn, senseRows_overflows n _ s hn h hd ho, cellAddr]⟩)

end Sys2Proof.Machine
end

