-- ==== Sys2Proof/Laws/Step.lean ====
section
/-! SUPPORT. Everything a step can do, said once (00_scope.md rule R7; 60_exceptions.md rule R132). -/

namespace Sys2Proof.Machine

/-- Every command of every state ends with a next state: a response or the fault mark (rule R15). -/
theorem exec_next (i : Instr) (s : State) : ∃ t, exec i s = .next t := by
  cases i <;> exact ⟨_, rfl⟩

/-- A command has one next state. -/
theorem next_inj {s t : State} (h : (Host.Outcome.next s : Host.Outcome State Fault Refusal) = .next t) : s = t := by
  injection h

/-- No command touches the words the host has yet to issue (rules R53, R155). -/
theorem exec_hostCmds {i : Instr} {s t : State} (h : exec i s = .next t) : t.hostCmds = s.hostCmds := by
  cases i with
  | snsInit n =>
    rcases execSnsInit_cases n s with ⟨-, h'⟩ | ⟨-, h'⟩ <;> (obtain rfl := next_inj (h.symm.trans h'); simp)
  | snsAdd i r =>
    rcases execSnsAdd_cases i r s with ⟨-, h'⟩ | ⟨-, -, h'⟩ | ⟨-, -, h'⟩ <;> obtain rfl := next_inj (h.symm.trans h')
    · simp
    · simp
    · simp only [addReading, sensorBatch]
      repeat' split
      all_goals simp
  | snsGet i =>
    rcases execSnsGet_cases i s with ⟨-, h'⟩ | ⟨-, -, h'⟩ | ⟨-, -, ⟨-, h'⟩ | ⟨-, h'⟩⟩ <;>
      (obtain rfl := next_inj (h.symm.trans h'); simp)
  | mtxInit =>
    rcases execMtxInit_cases s with ⟨-, h'⟩ | ⟨_, _, -, -, h'⟩ <;> (obtain rfl := next_inj (h.symm.trans h'); simp)
  | mtxClear =>
    rcases execMtxClear_cases s with ⟨-, h'⟩ | ⟨-, ⟨-, h'⟩ | ⟨_, _, -, -, h'⟩⟩ <;>
      (obtain rfl := next_inj (h.symm.trans h'); simp)
  | mtxNext =>
    rcases execMtxNext_cases s with ⟨-, h'⟩ | ⟨-, ⟨-, h'⟩ | ⟨_, -, h'⟩ | ⟨_, _, _, -, -, -, h'⟩⟩ <;>
      (obtain rfl := next_inj (h.symm.trans h'); simp)
  | mtxSense =>
    rcases execMtxSense_cases s with ⟨-, h'⟩ | ⟨-, ⟨-, h'⟩ | ⟨_, _, -, -, -, h'⟩ | ⟨_, -, -, -, -, h'⟩⟩ <;>
      (obtain rfl := next_inj (h.symm.trans h'); simp)
  | mtxStrobe =>
    rcases execMtxStrobe_cases s with ⟨-, h'⟩ | ⟨-, h'⟩ <;> (obtain rfl := next_inj (h.symm.trans h'); simp)

/-- A step with a next state: no command is left, or one was taken and run (rules R61, R133). -/
theorem step_cases {s t : State} (h : step s = .next t) :
    s.build.wf = true ∧ s.fault = none ∧
      ((s.hostCmds = [] ∧ t = s) ∨
        ∃ w rest, s.hostCmds = w :: rest ∧
          ((∃ i, decode w = .cmd i ∧ exec i { s with hostCmds := rest } = .next t) ∨
            (∃ r, decode w = .illegal r ∧ t = answerIllegal { s with hostCmds := rest }))) := by
  unfold step at h
  split at h
  · rename_i hwf
    split at h
    · cases h
    · rename_i hf
      refine ⟨hwf, hf, ?_⟩
      cases hc : s.hostCmds with
      | nil =>
        simp [takeCommand, hc] at h
        exact .inl ⟨rfl, h.symm⟩
      | cons w rest =>
        simp [takeCommand, hc, runWord] at h
        refine .inr ⟨w, rest, rfl, ?_⟩
        cases hd : decode w with
        | cmd i => exact .inl ⟨i, rfl, by simpa [hd] using h⟩
        | illegal r => exact .inr ⟨r, rfl, by simpa [hd] using h.symm⟩
  · cases h

/-- A step of a well-formed build that is not faulted and has a command runs the command's word. -/
theorem step_run {s : State} {w : Word} {rest : List Word} (hwf : s.build.wf = true) (hf : s.fault = none)
    (hc : s.hostCmds = w :: rest) : step s = runWord w { s with hostCmds := rest } := by
  simp [step, hwf, hf, takeCommand, hc]

end Sys2Proof.Machine
end

