-- ==== Sys2Proof/Tests/Slice0.lean ====
section
/-! SUPPORT. Tests of the model. Expected values are those of 95_test_vectors.md (each test names its vector) or of the
worked examples of the rule named; none is a run of the model. The second half is one witness for each statement of
Certificates/Slice0/Obligations.lean that has hypotheses: concrete states and operands that meet them. -/

namespace Sys2Proof.Tests

open Sys2Proof Sys2Proof.Machine

/-! ### Builds: one ill-formed build for each check of rule R11 -/

theorem test_reference_wf : Config.reference.wf = true := by decide

theorem test_sc_zero_refused : { Config.reference with sc := 0 }.scOk = false := by decide

/-- V-FLT-06. -/
theorem test_sc_65536_refused : { Config.reference with sc := 65536 }.wf = false := by decide

theorem test_mx_zero_refused : { Config.reference with mx := 0 }.thresholdsOk = false := by decide

theorem test_falling_table_refused :
    { Config.reference with
      lin := [{ len := 1, start := 5, rise := 0, run := 1 }, { len := 1, start := 4, rise := 0, run := 1 }] }.tableOk =
      false := by decide

theorem test_empty_table_refused : { Config.reference with lin := [] }.tableOk = false := by decide

theorem test_capacity_4097_refused : { Config.reference with nMax := 4097 }.capacityOk = false := by decide

theorem test_no_column_refused : { Config.reference with csize := 0 }.sizesOk = false := by decide

theorem test_long_debounce_refused : { Config.reference with deb := 4294967296 }.durationsOk = false := by decide

/-- The step refuses the build of V-FLT-06. -/
theorem test_step_refuses_build :
    (match step (State.powerOn { Config.reference with sc := 65536 }) with
      | .refused .illFormedBuild => true
      | _ => false) = true := by decide

/-! ### Decoding: 95_test_vectors.md section 2.1 -/

/-- V-ENC-01, 02, 03, 04, 10, and the words of programs P2 and P4. -/
theorem test_decode_words :
    decode 0x10000004#32 = .cmd (.snsInit 4) ∧ decode 0x200305DC#32 = .cmd (.snsAdd 3 1500) ∧
      decode 0x2FFFFFFF#32 = .cmd (.snsAdd 4095 65535) ∧ decode 0x30020000#32 = .cmd (.snsGet 2) ∧
      decode 0x40000000#32 = .cmd .mtxInit ∧ decode 0x50000000#32 = .cmd .mtxClear ∧
      decode 0x60000000#32 = .cmd .mtxNext ∧ decode 0x70000000#32 = .cmd .mtxSense ∧
      decode 0x80000000#32 = .cmd .mtxStrobe := by decide

/-- V-ENC-05 to 09. -/
theorem test_illegal_words :
    decode 0x30000001#32 = .illegal (.mustBeZero 3) ∧ decode 0x10010000#32 = .illegal (.mustBeZero 1) ∧
      decode 0x41000000#32 = .illegal (.mustBeZero 4) ∧ decode 0x00000000#32 = .illegal (.reservedOp 0) ∧
      decode 0x90000000#32 = .illegal (.reservedOp 9) ∧ decode 0xF0000000#32 = .illegal (.reservedOp 15) := by decide

theorem test_decodeTableWord :
    decodeTableWord 32 0x200305DC = some (.snsAdd 3 1500) ∧ decodeTableWord 32 0x30000001 = none := by decide

/-- Rules R66 and R67 at the edges of the fields, and a line of text. -/
theorem test_assembler :
    asmWords Config.reference (.snsAdd 4095 65535) = some [0x2FFFFFFF#32] ∧
      asmWords Config.reference (.snsAdd 4096 0) = none ∧ asmWords Config.reference (.snsAdd 0 65536) = none ∧
      asmWords Config.reference (.snsInit 65536) = none ∧
      asmWords Config.reference (.feed 0 2000) = some [0x200007D0#32, 0x200007D0#32] ∧
      assembleLine Config.reference "SNS_ADD 0, 0x5DC ; P1".toList = some [0x200005DC#32] := by decide

/-- Rule R62's codes through the response of a status, and rule R64's codes 1 and 12. -/
theorem test_codes :
    statusCode .magnetTooWeak = 6#3 ∧ responseCode (.okAnalysis nullAnalysis) = 1 ∧ responseCode .errIllegal = 12 ∧
      pinOpCode .rowRead = 4 := by decide

/-! ### States of the tests -/

/-- The state after a command, or the state before it where there is none. -/
def after (i : Instr) (s : State) : State :=
  match exec i s with
  | .next t => t
  | .fault _ => s
  | .refused _ => s

/-- The answer of the last command, if it gave one. -/
def answer (s : State) : Option Response := s.responses.getLast?

/-- CFG-A after `SNS_INIT 4` (V-SNS-01), its sensor 0 with the record `d`. -/
def hallState (d : SenseData) : State :=
  { State.reset with
    snsLive := true, snsCap := 4, recs := [d, defaultRecord, defaultRecord, defaultRecord] }

/-- The default record with one reading in its accumulator. -/
def halfFull (r : Raw) : SenseData := { defaultRecord with acc := { sum := r.setWidth 32, count := 1 } }

/-- A record in `MagnetDetected` with one reading in its accumulator. -/
def detected (r mn : Raw) (a : SenseAnalysis) : SenseData :=
  { analysis := a, cal := .magnetDetected, acc := { sum := r.setWidth 32, count := 1 },
    stats := { min := mn, max := mn, samples := 1 } }

/-- The analysis of the second batch of V-KIN-01. -/
def secondAnalysis : SenseAnalysis := { raw := 1502, distance := 2, velocity := 2, acceleration := 1, jerk := 1 }

/-- CFG-A after `MTX_INIT` and `MTX_NEXT` (V-MTX-04), with the draws of the operations to come. -/
def matrixState (draws : List PinDraw) : State :=
  { State.reset with
    mtxLive := true, curStrobe := 0, cells := List.replicate 6 debReset
    colDrive := [.active, .inactive, .inactive], rowMode := [.input, .input], pinDraws := draws }

/-- A draw that succeeds, a read of the inactive level. -/
def ok : PinDraw := .succeed false

/-- The error `E1` of the vectors. -/
def e1 : PinError := { value := 1 }

/-! ### The Hall engine: sections 2.2 to 2.5 -/

/-- V-SNS-02. -/
theorem test_snsInit_too_large :
    answer (after (.snsInit 5) State.reset) = some .errFailedToResize ∧
      (after (.snsInit 5) State.reset).snsLive = false := by decide

/-- V-SNS-01. -/
theorem test_snsInit :
    answer (after (.snsInit 4) State.reset) = some .okNone ∧
      (after (.snsInit 4) State.reset).recs = List.replicate 4 defaultRecord := by decide

/-- P1 step 2: the second batch, of which the first reading is in the accumulator. -/
theorem test_snsAdd_analysis :
    answer (after (.snsAdd 0 1502)
      (hallState (detected 1502 1500 { raw := 1500, distance := 0, velocity := 0, acceleration := 0, jerk := 0 }))) =
      some (.okAnalysis secondAnalysis) := by decide

/-- P3 step 8, on sensor 0: the snapshot is the record after the update. -/
theorem test_snsAdd_calibration :
    answer (after (.snsAdd 0 50) (hallState (halfFull 50))) =
      some (.errCalibration
        { analysis := { raw := 50, distance := 0, velocity := 0, acceleration := 0, jerk := 0 }, cal := .sensorMissing,
          acc := { sum := 0, count := 0 }, stats := { min := 65535, max := 0, samples := 1 } }) := by decide

/-- P3 step 5: `SNS_GET 0` before any batch. -/
theorem test_snsGet_not_ready :
    answer (after (.snsGet 0) (hallState defaultRecord)) = some (.errCalibration defaultRecord) := by decide

/-- P3 step 4: `SNS_GET 5` with capacity 4. -/
theorem test_snsGet_out_of_bounds :
    answer (after (.snsGet 5) (hallState defaultRecord)) = some .errInvalidSensor := by decide

/-- V-CAL-01 to 19. -/
theorem test_calNext :
    ([(.magnetDetected, 4095, .magnetTooStrong), (.magnetDetected, 4094, .magnetDetected),
      (.magnetDetected, 4096, .magnetTooStrong), (.magnetDetected, 800, .magnetDetected),
      (.magnetDetected, 799, .magnetTooWeak), (.notReady, 3001, .sensorBroken),
      (.magnetTooStrong, 3001, .magnetTooStrong), (.notReady, 3000, .magnetDetected),
      (.notReady, 99, .sensorMissing), (.notReady, 100, .magnetWrongPoleOrMissing),
      (.notReady, 999, .magnetWrongPoleOrMissing), (.notReady, 1000, .magnetDetected),
      (.magnetTooWeak, 999, .magnetTooWeak), (.magnetTooWeak, 99, .sensorMissing),
      (.magnetTooWeak, 3001, .sensorBroken), (.magnetTooStrong, 500, .magnetWrongPoleOrMissing),
      (.magnetTooStrong, 1000, .magnetDetected), (.sensorMissing, 500, .magnetWrongPoleOrMissing),
      (.sensorBroken, 2000, .magnetDetected)] : List (CalibrationStatus × Nat × CalibrationStatus)).all
      (fun v => decide (calNext Config.reference v.1 v.2.1 = v.2.2)) = true := by decide

/-- V-CAL-20. -/
theorem test_ramp :
    statuses Config.reference .notReady [50, 500, 2000, 3500, 4100, 5000] =
      [.sensorMissing, .magnetWrongPoleOrMissing, .magnetDetected, .magnetDetected, .magnetTooStrong,
        .magnetTooStrong] := by decide

/-- Section 2.3's examples of `tdiv`. -/
theorem test_truncDiv :
    truncDiv (-1) 2 = 0 ∧ truncDiv (-3) 2 = -1 ∧ truncDiv 3 2 = 1 ∧ truncDiv (-4) 2 = -2 ∧
      truncDiv (2 ^ 31 - 1) 2 = 2 ^ 30 - 1 := by decide

/-! ### The Matrix engine: section 2.6 -/

/-- V-MTX-01. -/
theorem test_mtxInit :
    (after .mtxInit { State.reset with pinDraws := [ok, ok, ok] }).curStrobe = 2 ∧
      (after .mtxInit { State.reset with pinDraws := [ok, ok, ok] }).pinTrace =
        [{ op := .colSet 0 .inactive, answer := .ok }, { op := .colSet 1 .inactive, answer := .ok },
          { op := .colSet 2 .inactive, answer := .ok }] := by decide

/-- V-MTX-13. -/
theorem test_mtxInit_fails :
    answer (after .mtxInit (matrixState [ok, .fail e1])) = some (.errIo .colSet 1 e1) ∧
      (after .mtxInit (matrixState [ok, .fail e1])).mtxLive = false := by decide

/-- V-MTX-05. -/
theorem test_mtxClear :
    (after .mtxClear { matrixState [ok, ok, ok] with curStrobe := 1 }).curStrobe = 2 ∧
      (after .mtxClear (matrixState [ok, ok, ok])).colDrive = [.inactive, .inactive, .inactive] := by decide

/-- V-MTX-10. -/
theorem test_mtxNext_fails :
    answer (after .mtxNext (matrixState [ok, ok, ok, ok, ok, ok, ok, .fail e1])) = some (.errIo .colSet 1 e1) ∧
      (after .mtxNext (matrixState [ok, ok, ok, ok, ok, ok, ok, .fail e1])).colDrive =
        [.inactive, .unknown, .inactive] := by decide

/-- V-MTX-04's trace, from `cur_strobe = 2`. -/
theorem test_mtxNext :
    (after .mtxNext { matrixState [ok, ok, ok, ok, ok, ok, ok, ok] with curStrobe := 2 }).pinTrace.map (·.op) =
      [.colSet 2 .inactive, .rowOut 0, .rowDrive 0 .inactive, .rowIn 0, .rowOut 1, .rowDrive 1 .inactive, .rowIn 1,
        .colSet 0 .active] := by decide

/-- V-MTX-07. -/
theorem test_mtxSense :
    answer (after .mtxSense (matrixState [.succeed true, ok])) = some (.okEvents [.off false 1, .off true 1]) ∧
      (after .mtxSense (matrixState [.succeed true, ok])).cells.take 2 =
        [{ conf := .off, pend := 1, cyc := 1, idle := false, icnt := 0 },
          { conf := .off, pend := 0, cyc := 1, idle := true, icnt := 1 }] := by decide

/-- V-MTX-12. -/
theorem test_mtxSense_fails :
    answer (after .mtxSense (matrixState [.succeed true, .fail e1])) = some (.errIo .rowRead 1 e1) := by decide

/-- V-MTX-11. -/
theorem test_mtxStrobe :
    answer (after .mtxStrobe { matrixState [] with curStrobe := 1 }) = some (.okIndex 1) := by decide

/-- V-MTX-09: an unconstructed engine faults, with no response. -/
theorem test_unconstructed :
    (after .mtxSense State.reset).fault = some (.unconstructed .matrix) ∧ answer (after .mtxSense State.reset) = none := by
  decide

/-- V-DEB-03 and V-DEB-10. -/
theorem test_debouncer :
    (debFeed Config.reference debReset { disturbed := false, agreeing := 0, sinceFlip := 0 }
        [true, true, true, false, false, false, false]).map (·.1) =
      some { conf := .off, pend := 0, cyc := 2, idle := true, icnt := 2 } ∧
      (debFeed { Config.reference with deb := 3, idle := 3 } debReset
          { disturbed := false, agreeing := 0, sinceFlip := 0 } [true, false, false, false, false]).map (·.1) =
        some { conf := .off, pend := 0, cyc := 5, idle := true, icnt := 3 } := by decide

/-- V-DEB-11. -/
theorem test_counter_overflow :
    debRecord Config.reference { conf := .off, pend := 0, cyc := 4294967295, idle := true, icnt := 2 } false = none := by
  decide

/-! ### A step -/

/-- The word 0x200305DC is run as the first command after reset: V-FLT-01's fault. -/
theorem test_first_word :
    (match step (State.reset.withFetchWord 32 0x200305DC) with
      | .next t => decide (t.fault = some (.unconstructed .hall)) && decide (t.hostCmds = [])
      | _ => false) = true := by decide

/-- P3 step 11: decode comes before construction. -/
theorem test_illegal_first_word :
    (match step (State.reset.withFetchWord 32 0x41000000) with
      | .next t => decide (answer t = some .errIllegal)
      | _ => false) = true := by decide

/-! ### Witnesses: states and operands that meet the hypotheses of the statements -/

/-- The analysis with the kinematic fields of a state no run reaches, for the statements about every state. -/
def oldAnalysis (d v a : Dist) : SenseAnalysis := { raw := 0, distance := d, velocity := v, acceleration := a, jerk := 0 }

/-- A build whose table takes the two extreme values (V-FLT-03). -/
def extremeBuild : Config :=
  { Config.reference with
    lin := [{ len := 2000, start := -2147483648, rise := 0, run := 1 },
      { len := 2096, start := 2147483647, rise := 0, run := 1 }] }

/-- A build whose distances reach the greatest `sW_DIST`. -/
def tallBuild : Config :=
  { Config.reference with
    lin := [{ len := 2000, start := 0, rise := 0, run := 1 }, { len := 2096, start := 2147483647, rise := 0, run := 1 }] }

/-- A build with a table of 1024 entries (V-FLT-02). -/
def shortBuild : Config := { Config.reference with lin := [{ len := 1024, start := 0, rise := 1, run := 1 }] }

/-- `hallState` for another build. -/
def hallOf (b : Config) (d : SenseData) : State := { hallState d with build := b }

theorem referenceBuild : WellFormedBuild Config.reference := (wf_iff _).mp (by decide)

theorem extremeWellFormed : WellFormedBuild extremeBuild := (wf_iff _).mp (by decide)

theorem tallWellFormed : WellFormedBuild tallBuild := (wf_iff _).mp (by decide)

theorem shortWellFormed : WellFormedBuild shortBuild := (wf_iff _).mp (by decide)

theorem hallInv_hallOf {b : Config} {d : SenseData} (hb : WellFormedBuild b) (hn : b.nMax = 4) (hd : RecOk b d) :
    HallInv (hallOf b d) := by
  intro _
  refine ⟨⟨rfl, by simp [hallOf, hallState, hn], fun h => by simp [hallOf, hallState] at h⟩, fun i hi => ?_⟩
  have := hb.sc_pos
  have hdef : RecOk b defaultRecord := by simp [RecOk, KinZero, defaultRecord, nullAnalysis]; omega
  have hi' : i < 4 := hi
  interval_cases i <;> first | exact hd | exact hdef

theorem recOk_halfFull (b : Config) (hb : b.sc = 2) (r : Raw) : RecOk b (halfFull r) := by
  have := r.isLt
  simp [RecOk, KinZero, halfFull, defaultRecord, nullAnalysis, hb]
  omega

theorem recOk_detected (b : Config) (hb : b.sc = 2) (r mn : Raw) (a : SenseAnalysis) : RecOk b (detected r mn a) := by
  have := r.isLt
  simp [RecOk, detected, hb]
  omega

theorem batch_halfFull {b : Config} (hb : WellFormedBuild b) (hn : b.nMax = 4) (hs : b.sc = 2) (r : Raw) :
    BatchCompletes (hallOf b (halfFull r)) 0 :=
  { build := hb, inv := hallInv_hallOf hb hn (recOk_halfFull b hs r), noFault := rfl, live := rfl
    bounds := show 0 < 4 by decide, complete := hs.symm }

theorem batch_detected {b : Config} (hb : WellFormedBuild b) (hn : b.nMax = 4) (hs : b.sc = 2) (r mn : Raw)
    (a : SenseAnalysis) : BatchCompletes (hallOf b (detected r mn a)) 0 :=
  { build := hb, inv := hallInv_hallOf hb hn (recOk_detected b hs r mn a), noFault := rfl, live := rfl
    bounds := show 0 < 4 by decide, complete := hs.symm }

theorem matrixInv_matrixState (draws : List PinDraw) : MatrixInv (matrixState draws) := by
  intro _
  refine ⟨⟨rfl, rfl, rfl⟩, fun _ => ⟨show 0 < 3 by decide, fun c hc => ?_⟩⟩
  obtain rfl := (List.mem_replicate.mp hc).2
  exact cellOk_debReset _

theorem matrixReady (draws : List PinDraw) : MatrixReady (matrixState draws) :=
  { build := referenceBuild, inv := matrixInv_matrixState draws, noFault := rfl, live := rfl }

theorem othersInactive_matrixState (draws : List PinDraw) : OthersInactive (matrixState draws) := by
  intro _ c hc hne
  have hc' : c < 3 := hc
  have hne' : c ≠ 0 := hne
  interval_cases c <;> first | exact absurd rfl hne' | rfl

theorem witness_EncodeAfterDecodeIsIdentity : decode 0x2FFFFFFF#32 = .cmd (.snsAdd 4095 65535) := by decide

theorem witness_DecodedOperandsAreWordFields :
    decode 0x1000FFFF#32 = .cmd (.snsInit 65535) ∧ decode 0x2FFFFFFF#32 = .cmd (.snsAdd 4095 65535) ∧
      decode 0x3FFF0000#32 = .cmd (.snsGet 4095) ∧ decode 0x80000000#32 = .cmd .mtxStrobe := by decide

/-- The edges of the fields. -/
theorem witness_AssembledWordsDecodeToTheLine :
    (65535 ≤ 65535 ∧ 65535 < 65536) ∧ (4095 ≤ 4095 ∧ 4095 < 4096) ∧
      4294967295 < 2 ^ 32 ∧ 2 ^ 32 ≤ 4294967296 := by decide

theorem witness_StepRunsDecodedCommand :
    (State.reset.withFetchWord 32 0x10000004).build.wf = true ∧ (State.reset.withFetchWord 32 0x10000004).fault = none ∧
      (State.reset.withFetchWord 32 0x10000004).hostCmds = [0x10000004#32] ∧
      decode 0x10000004#32 = .cmd (.snsInit 4) := by decide

theorem witness_IllegalWordAnswersErrIllegal :
    (State.reset.withFetchWord 32 0).build.wf = true ∧ (State.reset.withFetchWord 32 0).fault = none ∧
      (State.reset.withFetchWord 32 0).hostCmds = [0#32] ∧ decode 0#32 = .illegal (.reservedOp 0) := by decide

theorem witness_FaultedBlockTakesNoStep :
    (raise (.unconstructed .hall) State.reset).fault = some (.unconstructed .hall) ∧
      (raise (.unconstructed .hall) State.reset).build.wf = true := by decide

theorem witness_CommandEndsInResponseOrFault : State.reset.fault = none := rfl

theorem witness_BuildFixedAndHistoryKept : ∃ t, step (State.reset.withFetchWord 32 0x10000004) = .next t := ⟨_, rfl⟩

theorem witness_SuccessfulRunAnswersEachCommand :
    ∃ t, Sys2Proof.core.run 1 (State.reset.withFetchWord 32 0x10000004) = .next t ∧ EndsSuccessfully t :=
  ⟨_, rfl, rfl, rfl⟩

theorem witness_RunTakesOneStepPerCommand : State.reset.build.wf = true := by decide

theorem witness_PowerOnMeetsInvariants : Config.reference.wf = true := by decide

theorem witness_ConstructionOrderDoesNotMatter :
    ∃ t t' u u', exec (.snsInit 4) (matrixState [ok, ok, ok]) = .next t ∧ exec .mtxInit t = .next u ∧
      exec .mtxInit (matrixState [ok, ok, ok]) = .next t' ∧ exec (.snsInit 4) t' = .next u' :=
  ⟨_, _, _, _, rfl, rfl, rfl, rfl⟩

theorem witness_SnsInitConstructsOrFails :
    (4#16).toNat ≤ State.reset.build.nMax ∧ State.reset.build.nMax < (5#16).toNat := by decide

theorem witness_UnconstructedEngineFaults :
    (isHall (.snsAdd 0 1) = true ∧ State.reset.snsLive = false) ∧
      isHall .mtxSense = false ∧ State.reset.mtxLive = false := by decide

theorem witness_OutOfBoundsSensorRefused :
    (hallState defaultRecord).snsLive = true ∧ (hallState defaultRecord).snsCap ≤ (4 : Index).toNat := by decide

theorem witness_IncompleteBatchChangesOnlyAccumulator :
    WellFormedBuild (hallOf Config.reference defaultRecord).build ∧ HallInv (hallOf Config.reference defaultRecord) ∧
      (hallOf Config.reference defaultRecord).fault = none ∧ (hallOf Config.reference defaultRecord).snsLive = true ∧
      (3 : Index).toNat < (hallOf Config.reference defaultRecord).snsCap ∧
      (readRec (hallOf Config.reference defaultRecord) 3).acc.count.toNat + 1 ≠ Config.reference.sc :=
  ⟨referenceBuild,
    hallInv_hallOf referenceBuild rfl (by simp [RecOk, KinZero, defaultRecord, nullAnalysis, Config.reference]),
    rfl, rfl, by decide, by decide⟩

/-- 50 and 50: an average below `NS`. -/
theorem witness_UnusableBatchResetsAndReports :
    BatchCompletes (hallOf Config.reference (halfFull 50)) (0 : Index).toNat ∧
      (readRec (hallOf Config.reference (halfFull 50)) 0).stats.samples.toNat ≠ 2 ^ 32 - 1 ∧
      batchStatus (hallOf Config.reference (halfFull 50)) 0 50 ≠ .magnetDetected :=
  ⟨batch_halfFull referenceBuild rfl rfl 50, by decide, by decide⟩

/-- P1 step 2. -/
theorem witness_UsableBatchComputesKinematics :
    let s := hallOf Config.reference (detected 1502 1500 (oldAnalysis 0 0 0))
    BatchCompletes s (0 : Index).toNat ∧ (readRec s 0).stats.samples.toNat ≠ 2 ^ 32 - 1 ∧
      batchStatus s 0 1502 = .magnetDetected ∧ batchAverage s 0 1502 < tableSize s.build.lin ∧
      InDist (batchDistance s 0 1502) ∧ InDist (batchVelocity s 0 1502) ∧ InDist (batchVelocityDiff s 0 1502) ∧
      InDist (batchAcceleration s 0 1502) ∧ InDist (batchJerk s 0 1502) :=
  ⟨batch_detected referenceBuild rfl rfl _ _ _, by decide, by decide, by decide, by unfold InDist; decide,
    by unfold InDist; decide, by unfold InDist; decide, by unfold InDist; decide, by unfold InDist; decide⟩

/-- CFG-A with one reading in sensor 0's accumulator and its counter at its maximum (V-FLT-04). -/
def fullCounter : State :=
  hallOf Config.reference { halfFull 1500 with stats := { min := 65535, max := 0, samples := 4294967295 } }

theorem batch_fullCounter : BatchCompletes fullCounter 0 :=
  { build := referenceBuild
    inv := hallInv_hallOf referenceBuild rfl
      (by simp [RecOk, KinZero, halfFull, defaultRecord, nullAnalysis, Config.reference])
    noFault := rfl, live := rfl, bounds := by decide, complete := rfl }

/-- V-FLT-04, and V-FLT-02 at the first sample past the table. -/
theorem witness_BatchCounterAndTableFaults :
    (BatchCompletes fullCounter (0 : Index).toNat ∧ (readRec fullCounter 0).stats.samples.toNat = 2 ^ 32 - 1) ∧
    BatchCompletes (hallOf shortBuild (halfFull 1024)) (0 : Index).toNat ∧
      (readRec (hallOf shortBuild (halfFull 1024)) 0).stats.samples.toNat ≠ 2 ^ 32 - 1 ∧
      batchStatus (hallOf shortBuild (halfFull 1024)) 0 1024 = .magnetDetected ∧
      tableSize shortBuild.lin ≤ batchAverage (hallOf shortBuild (halfFull 1024)) 0 1024 :=
  ⟨⟨batch_fullCounter, by decide⟩, batch_halfFull shortWellFormed rfl rfl 1024, by decide, by decide, by decide⟩

/-- V-FLT-03: the distance `2^32 − 1`. -/
theorem witness_FirstKinematicOverflowFaults_distance :
    let s := hallOf extremeBuild (detected 2000 1500 (oldAnalysis 0 0 0))
    BatchCompletes s (0 : Index).toNat ∧ (readRec s 0).stats.samples.toNat ≠ 2 ^ 32 - 1 ∧
      batchStatus s 0 2000 = .magnetDetected ∧
      batchAverage s 0 2000 < tableSize s.build.lin ∧ ¬ InDist (batchDistance s 0 2000) :=
  ⟨batch_detected extremeWellFormed rfl rfl _ _ _, by decide, by decide, by decide, by unfold InDist; decide⟩

/-- The distance `2^31 − 1` after the distance −1. -/
theorem witness_FirstKinematicOverflowFaults_velocity :
    let s := hallOf tallBuild (detected 2000 1500 (oldAnalysis (-1) 0 0))
    BatchCompletes s (0 : Index).toNat ∧ (readRec s 0).stats.samples.toNat ≠ 2 ^ 32 - 1 ∧
      batchStatus s 0 2000 = .magnetDetected ∧
      batchAverage s 0 2000 < tableSize s.build.lin ∧ InDist (batchDistance s 0 2000) ∧
      ¬ InDist (batchVelocity s 0 2000) :=
  ⟨batch_detected tallWellFormed rfl rfl _ _ _, by decide, by decide, by decide, by unfold InDist; decide,
    by unfold InDist; decide⟩

/-- The velocity `2^31 − 1` after the velocity −1. -/
theorem witness_FirstKinematicOverflowFaults_velocityDiff :
    let s := hallOf tallBuild (detected 2000 1500 (oldAnalysis 0 (-1) 0))
    BatchCompletes s (0 : Index).toNat ∧ (readRec s 0).stats.samples.toNat ≠ 2 ^ 32 - 1 ∧
      batchStatus s 0 2000 = .magnetDetected ∧
      batchAverage s 0 2000 < tableSize s.build.lin ∧ InDist (batchDistance s 0 2000) ∧
      InDist (batchVelocity s 0 2000) ∧ ¬ InDist (batchVelocityDiff s 0 2000) :=
  ⟨batch_detected tallWellFormed rfl rfl _ _ _, by decide, by decide, by decide, by unfold InDist; decide,
    by unfold InDist; decide, by unfold InDist; decide⟩

/-- The acceleration `2^30 − 1` after the acceleration `−2^31`. -/
theorem witness_FirstKinematicOverflowFaults_jerk :
    let s := hallOf tallBuild (detected 2000 1500 (oldAnalysis 0 0 (-2147483648)))
    BatchCompletes s (0 : Index).toNat ∧ (readRec s 0).stats.samples.toNat ≠ 2 ^ 32 - 1 ∧
      batchStatus s 0 2000 = .magnetDetected ∧
      batchAverage s 0 2000 < tableSize s.build.lin ∧ InDist (batchDistance s 0 2000) ∧
      InDist (batchVelocity s 0 2000) ∧ InDist (batchVelocityDiff s 0 2000) ∧ ¬ InDist (batchJerk s 0 2000) :=
  ⟨batch_detected tallWellFormed rfl rfl _ _ _, by decide, by decide, by decide, by unfold InDist; decide,
    by unfold InDist; decide, by unfold InDist; decide, by unfold InDist; decide⟩

theorem witness_SnsGetReadsRecord :
    (hallState defaultRecord).recs[(3 : Index).toNat]? = some defaultRecord ∧ defaultRecord.cal = .notReady ∧
      (hallState (detected 0 0 secondAnalysis)).recs[(0 : Index).toNat]? = some (detected 0 0 secondAnalysis) ∧
      (detected 0 0 secondAnalysis).cal ≠ .notReady ∧
      (hallState defaultRecord).snsLive = true ∧ (3 : Index).toNat < (hallState defaultRecord).snsCap ∧
      (hallState (detected 0 0 secondAnalysis)).snsLive = true := by decide

/-- CFG-A at the edges of the regions of rules R73 and R74; `test_calNext` has the statuses there. -/
theorem witness_CalNextTable :
    let b := Config.reference
    1 ≤ b.mx ∧ b.mx ≤ 4095 + 1 ∧ (4094 + 1 < b.mx ∧ b.mmt ≤ 4094) ∧ (799 + 1 < b.mx ∧ 799 < b.mmt) ∧
      b.mxok < 3001 ∧ (99 ≤ b.mxok ∧ 99 < b.ns) ∧ (100 ≤ b.mxok ∧ b.ns ≤ 100 ∧ 100 < b.mnok) ∧
      (3000 ≤ b.mxok ∧ b.ns ≤ 3000 ∧ b.mnok ≤ 3000) := by decide

theorem witness_LatchesAreExact : CalibrationStatus.magnetTooStrong ≠ .magnetDetected := by decide

/-- CFG-A is ordered, and V-CAL-20's ramp rises. -/
theorem witness_IncreasingRampPattern :
    OrderedThresholds Config.reference ∧ [50, 500, 2000, 3500, 4100, 5000].Pairwise (· < ·) :=
  ⟨by unfold OrderedThresholds; decide, by decide⟩

theorem witness_AccumulatorAveragesEachBatch :
    WellFormedBuild Config.reference ∧ ([1504] : List Raw).length + 1 = Config.reference.sc := ⟨referenceBuild, rfl⟩

theorem witness_DistanceNeverNegative :
    let s := hallState (detected 1502 1500 (oldAnalysis 0 0 0))
    ∃ t, exec (.snsAdd 0 1502) s = .next t ∧ t.responses = s.responses ++ [.okAnalysis secondAnalysis] :=
  ⟨_, rfl, by decide⟩

theorem witness_FirstUsableBatchIsZero :
    let s := hallOf Config.reference (halfFull 1500)
    BatchCompletes s (0 : Index).toNat ∧ (readRec s 0).stats.samples.toNat ≠ 2 ^ 32 - 1 ∧
      (readRec s 0).cal ≠ .magnetDetected ∧ batchStatus s 0 1500 = .magnetDetected ∧
      batchAverage s 0 1500 < tableSize s.build.lin :=
  ⟨batch_halfFull referenceBuild rfl rfl 1500, by decide, by decide, by decide, by decide⟩

theorem witness_SpanBoundExcludesOverflow :
    2 * span Config.reference ≤ 2 ^ 31 - 1 ∧ HallInv (State.reset.withFetchWord 32 0x10000004) ∧
      KinInv (State.reset.withFetchWord 32 0x10000004) ∧
      ∃ t, step (State.reset.withFetchWord 32 0x10000004) = .next t :=
  ⟨by decide, fun _ => ⟨⟨rfl, Nat.zero_le _, fun _ => rfl⟩, fun i hi => absurd hi (Nat.not_lt_zero i)⟩,
    fun _ i hi => absurd hi (Nat.not_lt_zero i), _, rfl⟩

theorem witness_SamplesCountCompletedBatches :
    let s := hallOf Config.reference (halfFull 1500)
    HallInv s ∧ s.fault = none ∧ 0 < s.snsCap ∧ ∃ t, exec (.snsAdd 0 1500) s = .next t ∧ t.fault = none :=
  ⟨(batch_halfFull referenceBuild rfl rfl 1500).inv, rfl, by decide, _, rfl, by decide⟩

theorem witness_OnlySnsInitChangesCapacity :
    ∃ t, exec (.snsGet 0) (hallState defaultRecord) = .next t ∧ t.fault = none := ⟨_, rfl, by decide⟩

/-- A state that differs from `hallState defaultRecord` in sensor 1. -/
def otherSensor : State := { hallState defaultRecord with recs := [defaultRecord, halfFull 9, defaultRecord, defaultRecord] }

theorem witness_SensorsAreIndependent :
    let s := hallState defaultRecord
    (s.build = otherSensor.build ∧ s.snsLive = otherSensor.snsLive ∧ s.snsCap = otherSensor.snsCap ∧ HallShape s ∧
      HallShape otherSensor ∧ readRec s (0 : Index).toNat = readRec otherSensor (0 : Index).toNat ∧
      s.fault = otherSensor.fault ∧ s.recs ≠ otherSensor.recs) ∧
    (∃ t t', exec (.snsAdd 0 7) s = .next t ∧ exec (.snsAdd 0 7) otherSensor = .next t' ∧ t.fault = none) ∧
      ∃ t t', exec (.snsGet 0) s = .next t ∧ exec (.snsGet 0) otherSensor = .next t' ∧ t.fault = none :=
  ⟨⟨rfl, rfl, rfl, ⟨rfl, by decide, fun h => by cases h⟩, ⟨rfl, by decide, fun h => by cases h⟩, rfl, rfl, by decide⟩,
    ⟨_, _, rfl, rfl, by decide⟩, _, _, rfl, rfl, by decide⟩

theorem witness_StepKeepsHallInvariant :
    let s := (hallOf Config.reference (halfFull 1500)).withFetchWord 32 0x200005DC
    HallInv s ∧ ∃ t, step s = .next t ∧ t.fault = none :=
  ⟨(batch_halfFull referenceBuild rfl rfl 1500).inv, _, rfl, by decide⟩

theorem witness_EnginesShareNoState :
    (∃ t, exec (.snsGet 0) (hallState defaultRecord) = .next t ∧ t.fault = none) ∧
      ∃ t, exec .mtxStrobe (matrixState []) = .next t ∧ t.fault = none := ⟨⟨_, rfl, by decide⟩, _, rfl, by decide⟩

/-- Two states with one Hall engine and different matrices, and two with one matrix and different Hall engines. -/
theorem witness_EnginesDoNotInterfere :
    (SameHall (hallState defaultRecord) { hallState defaultRecord with mtxLive := true } ∧
        ∃ t t', exec (.snsAdd 0 7) (hallState defaultRecord) = .next t ∧
          exec (.snsAdd 0 7) { hallState defaultRecord with mtxLive := true } = .next t' ∧ t.fault = none) ∧
      SameMatrix (matrixState [ok, ok]) { matrixState [ok, ok] with snsLive := true } ∧
        ∃ t t', exec .mtxSense (matrixState [ok, ok]) = .next t ∧
          exec .mtxSense { matrixState [ok, ok] with snsLive := true } = .next t' ∧ t.fault = none :=
  ⟨⟨⟨rfl, rfl, rfl, rfl⟩, _, _, rfl, rfl, by decide⟩, ⟨rfl, rfl, rfl, rfl, rfl, rfl, rfl, rfl⟩,
    _, _, rfl, rfl, by decide⟩

/-- The listed draws succeed. -/
theorem allSucceed_of {n : Nat} {s : State} (h : n ≤ s.pinDraws.length)
    (hd : s.pinDraws.all drawSucceeds = true) : AllSucceed n s := by
  intro k hk
  rw [drawAt, List.getD_eq_getElem?_getD, List.getElem?_eq_getElem (by omega)]
  exact List.all_eq_true.mp hd _ (List.getElem_mem _)

/-- The listed draws before the `k`-th succeed, and the `k`-th fails. -/
theorem firstFailAt_of {draws : List PinDraw} {k : Nat} {e : PinError} {s : State} (hs : s.pinDraws = draws)
    (hk : draws[k]? = some (.fail e)) (hd : (draws.take k).all drawSucceeds = true) : FirstFailAt k e s := by
  obtain ⟨hlt, -⟩ := List.getElem?_eq_some_iff.mp hk
  refine ⟨fun j hj => ?_, by simp [drawAt, hs, List.getD_eq_getElem?_getD, hk]⟩
  rw [drawAt, hs, List.getD_eq_getElem?_getD, List.getElem?_eq_getElem (by omega)]
  exact List.all_eq_true.mp hd _ (List.mem_take_iff_getElem.mpr ⟨j, by omega, rfl⟩)

theorem witness_MtxInitConstructsOrFails :
    (State.reset.colDrive.length = State.reset.build.csize) ∧
      AllSucceed 3 { State.reset with pinDraws := [ok, ok, ok] } ∧
      FirstFailAt 0 e1 { State.reset with pinDraws := [.fail e1] } ∧
      FirstFailAt 2 e1 { State.reset with pinDraws := [ok, ok, .fail e1] } :=
  ⟨rfl, allSucceed_of (by decide) (by decide), firstFailAt_of rfl rfl rfl, firstFailAt_of rfl rfl rfl⟩

theorem witness_MtxClearResetsStrobe :
    (matrixState []).mtxLive = true ∧ (matrixState []).colDrive.length = (matrixState []).build.csize ∧
      AllSucceed 3 (matrixState [ok, ok, ok]) ∧ FirstFailAt 0 e1 (matrixState [.fail e1]) ∧
      FirstFailAt 2 e1 (matrixState [ok, ok, .fail e1]) :=
  ⟨rfl, rfl, allSucceed_of (by decide) (by decide), firstFailAt_of rfl rfl rfl, firstFailAt_of rfl rfl rfl⟩

theorem witness_MtxNextAdvancesStrobe :
    MatrixReady (matrixState [ok, ok, ok, ok, ok, ok, ok, ok]) ∧
      AllSucceed (2 + 3 * Config.reference.rsize) (matrixState [ok, ok, ok, ok, ok, ok, ok, ok]) :=
  ⟨matrixReady _, allSucceed_of (by decide) (by decide)⟩

/-- The first operation, one of the drain's, and the last. -/
theorem witness_MtxNextFailureKeepsEarlierSteps :
    (MatrixReady (matrixState [.fail e1]) ∧ (nextOps Config.reference 0)[0]? = some (.colSet 0 .inactive) ∧
      FirstFailAt 0 e1 (matrixState [.fail e1])) ∧
    (MatrixReady (matrixState [ok, ok, .fail e1]) ∧ (nextOps Config.reference 0)[2]? = some (.rowDrive 0 .inactive) ∧
      FirstFailAt 2 e1 (matrixState [ok, ok, .fail e1])) ∧
    MatrixReady (matrixState [ok, ok, ok, ok, ok, ok, ok, .fail e1]) ∧
      (nextOps Config.reference 0)[7]? = some (.colSet 1 .active) ∧
      FirstFailAt 7 e1 (matrixState [ok, ok, ok, ok, ok, ok, ok, .fail e1]) :=
  ⟨⟨matrixReady _, by decide, firstFailAt_of rfl rfl rfl⟩, ⟨matrixReady _, by decide, firstFailAt_of rfl rfl rfl⟩,
    matrixReady _, by decide, firstFailAt_of rfl rfl rfl⟩

/-- Two rows read inactive. -/
theorem witness_MtxSenseRecordsEachRow :
    MatrixReady (matrixState [ok, ok]) ∧ AllSucceed 2 (matrixState [ok, ok]) ∧
      ∃ c', ∀ r, r < 2 → ∃ c, (matrixState [ok, ok]).cells[r]? = some c ∧
        debRecord Config.reference c (drawLevel (drawAt (matrixState [ok, ok]) r)) = some c' :=
  ⟨matrixReady _, allSucceed_of (by decide) (by decide), { conf := .off, pend := 0, cyc := 1, idle := true, icnt := 1 },
    fun r hr => ⟨debReset, by interval_cases r <;> decide⟩⟩

/-- The read of the first row and of the last row fails, and the record of the first row overflows. -/
theorem witness_MtxSenseStopsAtFirstFailure :
    (MatrixReady (matrixState [.fail e1]) ∧ FirstFailAt 0 e1 (matrixState [.fail e1])) ∧
    (MatrixReady (matrixState [ok, .fail e1]) ∧ FirstFailAt 1 e1 (matrixState [ok, .fail e1]) ∧
      (matrixState [ok, .fail e1]).cells[0]? = some debReset ∧
      debRecord Config.reference debReset (drawLevel (drawAt (matrixState [ok, .fail e1]) 0)) =
        some { conf := .off, pend := 0, cyc := 1, idle := true, icnt := 1 }) ∧
    let s := { matrixState [ok] with cells := List.replicate 6 { debReset with cyc := 4294967295 } }
    MatrixReady s ∧ s.cells[0]? = some { debReset with cyc := 4294967295 } ∧ AllSucceed 1 s ∧
      debRecord Config.reference { debReset with cyc := 4294967295 } (drawLevel (drawAt s 0)) = none := by
  refine ⟨⟨matrixReady _, firstFailAt_of rfl rfl rfl⟩, ⟨matrixReady _, firstFailAt_of rfl rfl rfl, by decide, by decide⟩,
    ⟨referenceBuild, fun _ => ⟨⟨rfl, rfl, rfl⟩, fun _ => ⟨by decide, fun c hc => ?_⟩⟩, rfl, rfl⟩,
    by decide, allSucceed_of (by decide) (by decide), by decide⟩
  obtain rfl := (List.mem_replicate.mp hc).2
  exact ⟨by decide, by decide, fun h => by cases h⟩

theorem witness_MtxStrobeReadsIndex : (matrixState []).mtxLive = true := rfl

theorem witness_StrobeSuccessorIsCircular : 0 < Config.reference.csize ∧ 2 < Config.reference.csize := by decide

/-- A failing operation of each kind. -/
theorem witness_ErrIoReportsFirstFailure :
    (∃ t, exec .mtxSense (matrixState [ok, .fail e1]) = .next t ∧ t.responses = [.errIo .rowRead 1 e1]) ∧
    (∃ t, exec .mtxNext (matrixState [.fail e1]) = .next t ∧ t.responses = [.errIo .colSet 0 e1]) ∧
    (∃ t, exec .mtxNext (matrixState [ok, ok, ok, ok, .fail e1]) = .next t ∧ t.responses = [.errIo .rowOut 1 e1]) ∧
    (∃ t, exec .mtxNext (matrixState [ok, ok, .fail e1]) = .next t ∧ t.responses = [.errIo .rowDrive 0 e1]) ∧
    ∃ t, exec .mtxNext (matrixState [ok, ok, ok, .fail e1]) = .next t ∧ t.responses = [.errIo .rowIn 0 e1] :=
  ⟨⟨_, rfl, by decide⟩, ⟨_, rfl, by decide⟩, ⟨_, rfl, by decide⟩, ⟨_, rfl, by decide⟩, _, rfl, by decide⟩

theorem witness_StepKeepsMatrixInvariant :
    let s := (matrixState [ok, ok]).withFetchWord 32 0x70000000
    MatrixInv s ∧ ∃ t, step s = .next t ∧ t.fault = none ∧ t.mtxLive = true :=
  ⟨matrixInv_matrixState [ok, ok], _, rfl, by decide, by decide⟩

theorem witness_OtherColumnsStayInactive :
    WellFormedBuild Config.reference ∧ MatrixInv (matrixState [.fail e1]) ∧ OthersInactive (matrixState [.fail e1]) ∧
      ∃ t, exec .mtxNext (matrixState [.fail e1]) = .next t ∧ t.fault = none ∧ t.mtxLive = true :=
  ⟨referenceBuild, matrixInv_matrixState _, othersInactive_matrixState _, _, rfl, by decide, by decide⟩

theorem witness_OneActiveColumn :
    WellFormedBuild Config.reference ∧ (MatrixInv (matrixState [ok, ok, ok, ok, ok, ok, ok, ok]) ∧
      OthersInactive (matrixState [ok, ok, ok, ok, ok, ok, ok, ok]) ∧
      ∃ t, exec .mtxNext (matrixState [ok, ok, ok, ok, ok, ok, ok, ok]) = .next t ∧ t.responses = [.okIndex 1]) ∧
    (MatrixInv (matrixState [ok, ok, ok]) ∧
      ∃ t, exec .mtxInit (matrixState [ok, ok, ok]) = .next t ∧ t.responses = [.okNone]) ∧
    ∃ t, exec .mtxClear (matrixState [ok, ok, ok]) = .next t ∧ t.responses = [.okNone] :=
  ⟨referenceBuild, ⟨matrixInv_matrixState _, othersInactive_matrixState _, _, rfl, by decide⟩,
    ⟨matrixInv_matrixState _, _, rfl, by decide⟩, _, rfl, by decide⟩

/-- V-DEB-01: the record that flips. -/
theorem witness_FlipExactlyAtDebounce :
    debRecord Config.reference { conf := .off, pend := 1, cyc := 1, idle := false, icnt := 0 } true =
      some { conf := .on, pend := 0, cyc := 0, idle := false, icnt := 0 } := by decide

theorem witness_StableLevelFlipsOnce :
    Config.reference.deb ≤ 2 ^ 32 - 1 ∧ debReset.pend.toNat = 0 ∧ rawState true ≠ debReset.conf ∧
      debReset.cyc.toNat + max Config.reference.deb 1 ≤ 2 ^ 32 - 1 ∧ 1 < max Config.reference.deb 1 := by decide

theorem witness_ShortBounceIsForgotten :
    Config.reference.deb ≤ 2 ^ 32 - 1 ∧ debReset.pend.toNat = 0 ∧ rawState true ≠ debReset.conf ∧
      1 < max Config.reference.deb 1 ∧ debReset.cyc.toNat + 1 < 2 ^ 32 - 1 := by decide

/-- V-DEB-03. -/
theorem witness_IdleAndCyclesFollowHistory :
    Config.reference.deb ≤ 2 ^ 32 - 1 ∧ Config.reference.idle ≤ 2 ^ 32 - 1 ∧
      ∃ h, debFeed Config.reference debReset { disturbed := false, agreeing := 0, sinceFlip := 0 }
        [true, true, true, false, false, false, false] =
          some ({ conf := .off, pend := 0, cyc := 2, idle := true, icnt := 2 }, h) :=
  ⟨by decide, by decide, { disturbed := true, agreeing := 2, sinceFlip := 2 }, by decide⟩

/-- Two stretches: 0, 0, 1 and then 5. -/
theorem witness_TableReadsItsEntries :
    let table : List LinSeg := [{ len := 3, start := 0, rise := 1, run := 2 }, { len := 1, start := 5, rise := 0, run := 1 }]
    table = [{ len := 3, start := 0, rise := 1, run := 2 }] ++ { len := 1, start := 5, rise := 0, run := 1 } :: [] ∧
      0 < 1 ∧ tableSize table = 4 ∧ linEntry table 2 = some 1 ∧ linEntry table 3 = some 5 ∧ linEntry table 4 = none := by
  decide

end Sys2Proof.Tests
end

/-! PROOFS. The scope of the model (00_scope.md): which builds are refused, what a step runs, how a command ends, how long a
run lasts, and the table a build writes. -/

namespace Sys2Proof.Machine

/-! ### The branches of a step -/

theorem step_of_not_wf {s : State} (h : ¬ s.build.wf = true) : step s = .refused .illFormedBuild := by
  simp [step, h]

theorem step_of_fault {s : State} {f : Fault} (hwf : s.build.wf = true) (hf : s.fault = some f) : step s = .fault f := by
  simp [step, hwf, hf]

theorem step_of_no_command {s : State} (hwf : s.build.wf = true) (h : EndsSuccessfully s) : step s = .next s := by
  obtain ⟨hc, hf⟩ := h
  simp [step, hwf, hf, takeCommand, hc]

theorem runWord_of_cmd {w : Word} {i : Instr} (h : decode w = .cmd i) (s : State) : runWord w s = exec i s := by
  simp [runWord, h]

theorem runWord_of_illegal {w : Word} {r : Illegal} (h : decode w = .illegal r) (s : State) :
    runWord w s = .next (answerIllegal s) := by
  simp [runWord, h]

/-- Settles O9. -/
theorem stepRunsDecodedCommand : Obligations.StepRunsDecodedCommand := by
  intro s w rest i hwf hf hc hd
  rw [step_run hwf hf hc, runWord_of_cmd hd]

/-! ### Refused builds -/

/-- Every word of every state has a next state, a legal one and an illegal one (rules R15, R130). -/
theorem runWord_next (w : Word) (s : State) : ∃ t, runWord w s = .next t := by
  cases hd : decode w with
  | cmd i =>
    rw [runWord_of_cmd hd]
    exact exec_next i s
  | illegal r => exact ⟨_, runWord_of_illegal hd s⟩

theorem step_ne_refused_of_wf {s : State} (hwf : s.build.wf = true) (r : Refusal) : step s ≠ .refused r := by
  cases hf : s.fault with
  | some f => simp [step_of_fault hwf hf]
  | none =>
    cases hc : s.hostCmds with
    | nil => simp [step_of_no_command hwf ⟨hc, hf⟩]
    | cons w rest =>
      obtain ⟨t, ht⟩ := runWord_next w { s with hostCmds := rest }
      simp [step_run hwf hf hc, ht]

/-- Settles O11: the check `Config.wf` is the six items of rule R11, and it is the only source of a refusal. -/
theorem exactlyIllFormedBuildsRefused : Obligations.ExactlyIllFormedBuildsRefused := by
  intro s
  rw [← wf_iff]
  exact ⟨fun h hwf => step_ne_refused_of_wf hwf _ h, step_of_not_wf⟩

/-! ### How a command ends -/

/-- What a command keeps from `s` on, up to the state `u` in which it responds or raises a fault: no response and no fault
comes earlier, no build parameter is written (rule R32), and the pin trace is only added to (rule R50). -/
structure KeptUntilEnd (s u : State) : Prop where
  build     : u.build = s.build
  fault     : u.fault = s.fault
  responses : u.responses = s.responses
  pinTrace  : s.pinTrace <+: u.pinTrace

theorem KeptUntilEnd.refl (s : State) : KeptUntilEnd s s := ⟨rfl, rfl, rfl, List.prefix_refl _⟩

theorem KeptUntilEnd.writeRec {s u : State} (h : KeptUntilEnd s u) (i : Nat) (d : SenseData) :
    KeptUntilEnd s (writeRec i d u) := ⟨h.build, h.fault, h.responses, h.pinTrace⟩

theorem KeptUntilEnd.pinStep {s u : State} (h : KeptUntilEnd s u) (op : PinOp) : KeptUntilEnd s (pinStep op u) where
  build := by simpa using h.build
  fault := by simpa using h.fault
  responses := by simpa using h.responses
  pinTrace := h.pinTrace.trans (by simp)

theorem KeptUntilEnd.afterOps {s u : State} (h : KeptUntilEnd s u) (ops : List PinOp) :
    KeptUntilEnd s (afterOps ops u) := ⟨h.build, h.fault, h.responses, h.pinTrace.trans (by simp)⟩

theorem KeptUntilEnd.afterFail {s u : State} (h : KeptUntilEnd s u) (ops : List PinOp) (op : PinOp) (e : PinError) :
    KeptUntilEnd s (afterFail ops op e u) := ⟨h.build, h.fault, h.responses, h.pinTrace.trans (by simp)⟩

theorem keptUntilEnd_initDone (s : State) : KeptUntilEnd s (initDone s) := ⟨rfl, rfl, rfl, by simp⟩

theorem keptUntilEnd_advanced (s : State) : KeptUntilEnd s (advanced s) := ⟨rfl, rfl, rfl, by simp⟩

theorem keptUntilEnd_rowsDone (n : Nat) (s : State) : KeptUntilEnd s (rowsDone n s) := ⟨rfl, rfl, rfl, by simp⟩

/-- The two ends of a command: one response with a code rule R64 gives it, or one fault rule R131 gives it. -/
inductive CommandEnd (i : Instr) (s : State) : State → Prop where
  | response {u : State} (r : Response) (kept : KeptUntilEnd s u) (code : responseCode r ∈ codesOf i) :
      CommandEnd i s (respond r u)
  | fault {u : State} (f : Fault) (kept : KeptUntilEnd s u) (raised : mayRaise i f = true) :
      CommandEnd i s (raise f u)

/-- A batch of the sensor of `SNS_ADD` ends only in faults the command may raise (rules R72, R83, R84). -/
theorem addMayRaise_of_batchRecord {b : Config} {index : Index} {s : Raw} {d : SenseData} {f : Fault}
    (h : batchRecord b index.toNat s d = .faulted f) : addMayRaise index f = true := by
  rcases batchRecord_cases b index.toNat s d with ⟨-, h'⟩ | ⟨-, ⟨-, h'⟩ | ⟨-, ⟨g, hg, h'⟩ | ⟨a, -, h'⟩⟩⟩ <;>
    rw [h'] at h <;> cases h
  case inl => simp [addMayRaise]
  case inr.inr.inl =>
    rcases analyze_cases b s (statsWithSample s d.stats).min d.analysis with
      ⟨x, -, ha, -⟩ | ⟨-, -, ⟨field, -, ha⟩ | ⟨-, ha⟩⟩ <;> rw [ha] at hg <;> cases hg <;> rfl

/-- A completed batch ends as `SNS_ADD` may end (rule R70). -/
theorem sensorBatch_ends (index : Index) (reading avg : Raw) {s u : State} (hu : KeptUntilEnd s u) :
    CommandEnd (.snsAdd index reading) s (sensorBatch index.toNat avg u) := by
  unfold sensorBatch
  split
  case h_1 f hb => exact .fault f hu (addMayRaise_of_batchRecord hb)
  case h_2 d _ => exact .response _ (hu.writeRec _ _) (by simp [responseCode, codesOf])
  case h_3 d _ => exact .response _ (hu.writeRec _ _) (by simp [responseCode, codesOf])

/-- A reading ends as `SNS_ADD` may end, whether or not it completes a batch and whether or not a record stands there. -/
theorem addReading_ends (index : Index) (reading : Raw) (s : State) :
    CommandEnd (.snsAdd index reading) s (addReading index.toNat reading s) := by
  unfold addReading
  split
  · exact .response _ ((KeptUntilEnd.refl s).writeRec _ _) (by simp [responseCode, codesOf])
  · exact sensorBatch_ends index reading _ ((KeptUntilEnd.refl s).writeRec _ _)

/-- Every command of every state has a next state, and ends there in one of the two ways (rule R15). -/
theorem exec_ends (i : Instr) (s : State) : ∃ t, exec i s = .next t ∧ CommandEnd i s t := by
  have kept := KeptUntilEnd.refl s
  cases i with
  | snsInit n =>
    rcases execSnsInit_cases n s with ⟨-, h⟩ | ⟨-, h⟩ <;>
      exact ⟨_, h, .response _ ⟨rfl, rfl, rfl, List.prefix_refl _⟩ (by simp [responseCode, codesOf])⟩
  | snsAdd index reading =>
    rcases execSnsAdd_cases index reading s with ⟨-, h⟩ | ⟨-, -, h⟩ | ⟨-, -, h⟩
    · exact ⟨_, h, .fault _ kept rfl⟩
    · exact ⟨_, h, .response _ kept (by simp [responseCode, codesOf])⟩
    · exact ⟨_, h, addReading_ends index reading s⟩
  | snsGet index =>
    rcases execSnsGet_cases index s with ⟨-, h⟩ | ⟨-, -, h⟩ | ⟨-, -, ⟨-, h⟩ | ⟨-, h⟩⟩
    · exact ⟨_, h, .fault _ kept rfl⟩
    all_goals exact ⟨_, h, .response _ kept (by simp [responseCode, codesOf])⟩
  | mtxInit =>
    rcases execMtxInit_cases s with ⟨-, h⟩ | ⟨c, e, -, -, h⟩
    · exact ⟨_, h, .response _ (keptUntilEnd_initDone s) (by simp [responseCode, codesOf])⟩
    · have failed := kept.afterFail ((List.range c).map fun c => .colSet c .inactive) (.colSet c .inactive) e
      exact ⟨_, h, .response _ ⟨failed.build, failed.fault, failed.responses, failed.pinTrace⟩
        (by simp [responseCode, codesOf])⟩
  | mtxClear =>
    rcases execMtxClear_cases s with ⟨-, h⟩ | ⟨-, ⟨-, h⟩ | ⟨c, e, -, -, h⟩⟩
    · exact ⟨_, h, .fault _ kept rfl⟩
    · have done := kept.afterOps (allColumns s.build .inactive)
      exact ⟨_, h, .response _ ⟨done.build, done.fault, done.responses, done.pinTrace⟩
        (by simp [responseCode, codesOf])⟩
    · exact ⟨_, h, .response _ (kept.afterFail _ _ e) (by simp [responseCode, codesOf])⟩
  | mtxNext =>
    have adv := keptUntilEnd_advanced s
    rcases execMtxNext_cases s with ⟨-, h⟩ | ⟨-, ⟨-, h⟩ | ⟨e, -, h⟩ | ⟨k, op, e, -, -, -, h⟩⟩
    · exact ⟨_, h, .fault _ kept rfl⟩
    · exact ⟨_, h, .response _ (adv.afterOps _) (by simp [responseCode, codesOf])⟩
    · exact ⟨_, h, .response _ (adv.afterFail _ _ e) (by simp [responseCode, codesOf])⟩
    · exact ⟨_, h, .response _ (kept.afterFail _ op e) (by simp [responseCode, codesOf])⟩
  | mtxSense =>
    rcases execMtxSense_cases s with ⟨-, h⟩ | ⟨-, ⟨-, h⟩ | ⟨n, e, -, -, -, h⟩ | ⟨n, -, -, -, -, h⟩⟩
    · exact ⟨_, h, .fault _ kept rfl⟩
    · exact ⟨_, h, .response _ (keptUntilEnd_rowsDone _ s) (by simp [responseCode, codesOf])⟩
    · exact ⟨_, h, .response _ ((keptUntilEnd_rowsDone n s).pinStep _) (by simp [responseCode, codesOf])⟩
    · exact ⟨_, h, .fault _ ((keptUntilEnd_rowsDone n s).pinStep _) rfl⟩
  | mtxStrobe =>
    rcases execMtxStrobe_cases s with ⟨-, h⟩ | ⟨-, h⟩
    · exact ⟨_, h, .fault _ kept rfl⟩
    · exact ⟨_, h, .response _ kept (by simp [responseCode, codesOf])⟩

/-- Settles O13, from the two ends of a command. -/
theorem commandEndsInResponseOrFault : Obligations.CommandEndsInResponseOrFault := by
  intro i s hf
  obtain ⟨t, ht, hend⟩ := exec_ends i s
  refine ⟨t, ht, ?_⟩
  cases hend with
  | response r kept code => exact .inl ⟨kept.fault.trans hf, r, by simp [kept.responses], code⟩
  | fault f kept raised => exact .inr ⟨f, rfl, raised, kept.responses⟩

/-! ### The length of a run -/

/-- No command writes a build parameter (rule R32). -/
theorem exec_build {i : Instr} {s t : State} (h : exec i s = .next t) : t.build = s.build := by
  obtain ⟨t', ht', hend⟩ := exec_ends i s
  obtain rfl := next_inj (ht'.symm.trans h)
  cases hend with
  | response r kept code => exact kept.build
  | fault f kept raised => exact kept.build

/-- A block that is not faulted takes its next word, legal or not, and keeps its build (rules R7, R32). -/
theorem step_takes_one_word {s : State} {w : Word} {rest : List Word} (hwf : s.build.wf = true) (hf : s.fault = none)
    (hc : s.hostCmds = w :: rest) : ∃ t, step s = .next t ∧ t.hostCmds = rest ∧ t.build = s.build := by
  rw [step_run hwf hf hc]
  cases hd : decode w with
  | cmd i =>
    rw [runWord_of_cmd hd]
    obtain ⟨t, ht⟩ := exec_next i { s with hostCmds := rest }
    have hbuild := exec_build ht
    exact ⟨t, ht, exec_hostCmds ht, hbuild⟩
  | illegal r => exact ⟨_, runWord_of_illegal hd _, rfl, rfl⟩

theorem run_succ_of_next {s t : State} (k : Nat) (h : step s = .next t) :
    Sys2Proof.core.run (k + 1) s = Sys2Proof.core.run k t := by
  have hstep : Sys2Proof.core.step s = .next t := h
  simp only [Host.Core.run, hstep]

theorem run_succ_of_fault {s : State} {f : Fault} (k : Nat) (h : step s = .fault f) :
    Sys2Proof.core.run (k + 1) s = .fault f := by
  have hstep : Sys2Proof.core.step s = .fault f := h
  simp only [Host.Core.run, hstep]

/-- A run that has ended successfully stays where it is (rule R155). -/
theorem run_of_endsSuccessfully {s : State} (hwf : s.build.wf = true) (h : EndsSuccessfully s) (n : Nat) :
    Sys2Proof.core.run n s = .next s := by
  induction n with
  | zero => rfl
  | succ n ih => rw [run_succ_of_next n (step_of_no_command hwf h), ih]

/-- Settles O16, by induction on the words the host has yet to issue. -/
theorem runTakesOneStepPerCommand : Obligations.RunTakesOneStepPerCommand := by
  intro s extra hwf
  induction hc : s.hostCmds generalizing s with
  | nil =>
    rw [List.length_nil, Nat.zero_add]
    cases extra with
    | zero => exact .inr ⟨s, rfl, hc, fun h => absurd rfl h⟩
    | succ k =>
      cases hf : s.fault with
      | some f => exact .inl ⟨f, run_succ_of_fault k (step_of_fault hwf hf)⟩
      | none => exact .inr ⟨s, run_of_endsSuccessfully hwf ⟨hc, hf⟩ _, hc, fun _ => hf⟩
  | cons w rest ih =>
    rw [List.length_cons, Nat.add_right_comm]
    cases hf : s.fault with
    | some f => exact .inl ⟨f, run_succ_of_fault _ (step_of_fault hwf hf)⟩
    | none =>
      obtain ⟨t, ht, hrest, hbuild⟩ := step_takes_one_word hwf hf hc
      rw [run_succ_of_next _ ht]
      exact ih t (hbuild ▸ hwf) hrest

/-! ### The table -/

/-- The number of entries is the total length of the stretches (rule R8). -/
theorem tableSize_eq_sum (table : List LinSeg) : tableSize table = (table.map LinSeg.len).sum := by
  induction table with
  | nil => rfl
  | cons g gs ih => simp [tableSize, ih]

/-- Past the entries of the first stretches come those of the ones after them. -/
theorem linEntry_append (before after : List LinSeg) (k : Nat) :
    linEntry (before ++ after) (tableSize before + k) = linEntry after k := by
  induction before with
  | nil => simp [tableSize]
  | cons g gs ih => simp [tableSize, linEntry, Nat.add_assoc, ih]

theorem linEntry_cons_of_lt (g : LinSeg) (gs : List LinSeg) {k : Nat} (h : k < g.len) :
    linEntry (g :: gs) k = some (segEntry g k) := by
  simp [linEntry, h]

/-- Settles O60, by induction on the stretches before the one that holds the entry. -/
theorem tableReadsItsEntries : Obligations.TableReadsItsEntries := by
  intro table
  refine ⟨tableSize_eq_sum table, fun x => ?_, ?_⟩
  · rw [← Option.isSome_iff_exists, linEntry_isSome_iff]
  · rintro before after g k rfl hk
    rw [linEntry_append, linEntry_cons_of_lt g after hk, segEntry]

end Sys2Proof.Machine

/-! PROOFS. The state (10_state.md): the invariants of the two engines at power-on and after every step, what no step
changes, and the cells that `MTX_SENSE` writes. -/

namespace Sys2Proof.Machine

/-! ### The Hall engine's invariant -/

/-- The Hall engine's invariant without the fault mark: it stands after every command, a faulting one included. -/
def HallOk (s : State) : Prop := HallShape s ∧ ∀ i, i < s.snsCap → RecOk s.build (readRec s i)

theorem hallInv_iff (s : State) : HallInv s ↔ (s.fault = none → HallOk s) := Iff.rfl

/-- The Hall engine's invariant is about the Hall engine alone. -/
theorem HallOk.congr {s t : State} (h : HallOk s) (same : SameHall s t) : HallOk t := by
  obtain ⟨hbuild, hlive, hcap, hrecs⟩ := same
  simpa [HallOk, HallShape, readRec, hbuild, hlive, hcap, hrecs] using h

theorem HallOk.inBounds {s : State} (h : HallOk s) {i : Nat} (hi : i < s.snsCap) : i < s.recs.length := by
  obtain ⟨⟨hlen, -, -⟩, -⟩ := h
  omega

/-- Writing a record that meets rules R25, R26 and R100 keeps the invariant, whatever the index. -/
theorem HallOk.writeRec {s : State} (h : HallOk s) (i : Nat) {d : SenseData} (hd : RecOk s.build d) :
    HallOk (writeRec i d s) := by
  obtain ⟨⟨hlen, hcap, hlive⟩, hrec⟩ := h
  refine ⟨⟨by simpa using hlen, hcap, hlive⟩, fun j (hj : j < s.snsCap) => ?_⟩
  by_cases hji : j = i
  · subst hji
    rwa [readRec_writeRec_self j d s (by omega)]
  · rw [readRec_writeRec_other i j d s hji]
    exact hrec j hj

theorem HallOk.respond {s : State} (h : HallOk s) (r : Response) : HallOk (respond r s) := h
theorem HallOk.raise {s : State} (h : HallOk s) (f : Fault) : HallOk (raise f s) := h

/-! ### The records a reading leaves -/

/-- Rules R73 and R74 never give `InvalidIndex` (rule R100). -/
theorem calNext_ne_invalidIndex (b : Config) (cur : CalibrationStatus) (s : Nat) : calNext b cur s ≠ .invalidIndex := by
  unfold calNext calNormal calCalibrating
  repeat' split
  all_goals simp

/-- An empty accumulator meets rule R26, so only the status, the kinematics and the statistics are left to check. -/
theorem recOk_of_acc_empty {b : Config} (hb : WellFormedBuild b) {d : SenseData} (hacc : d.acc = { sum := 0, count := 0 })
    (hcal : d.cal ≠ .invalidIndex)
    (hzero : d.cal ≠ .magnetDetected → KinZero d.analysis ∧ d.stats.min = 0xFFFF#16 ∧ d.stats.max = 0) : RecOk b d := by
  have hsc : 0 < b.sc := hb.sc_pos
  exact ⟨hcal, hzero, by simpa [hacc] using hsc, by simp [hacc]⟩

theorem recOk_defaultRecord {b : Config} (hb : WellFormedBuild b) : RecOk b defaultRecord := by
  exact recOk_of_acc_empty hb rfl (by simp [defaultRecord]) fun _ => ⟨⟨rfl, rfl, rfl, rfl⟩, rfl, rfl⟩

theorem recOk_emptied {b : Config} (hb : WellFormedBuild b) {d : SenseData} (hd : RecOk b d) : RecOk b (emptied d) := by
  obtain ⟨hcal, hzero, -, -⟩ := hd
  exact recOk_of_acc_empty hb rfl hcal hzero

theorem recOk_unusableRecord {b : Config} (hb : WellFormedBuild b) (avg : Raw) (d : SenseData) :
    RecOk b (unusableRecord b avg (emptied d)) :=
  recOk_of_acc_empty hb rfl (calNext_ne_invalidIndex _ _ _) fun _ => ⟨⟨rfl, rfl, rfl, rfl⟩, rfl, rfl⟩

theorem recOk_usableRecord {b : Config} (hb : WellFormedBuild b) (avg : Raw) (a : SenseAnalysis) (d : SenseData) :
    RecOk b (usableRecord avg a (emptied d)) :=
  recOk_of_acc_empty hb rfl (by simp [usableRecord]) fun h => absurd rfl h

/-- A reading that completes no batch keeps the accumulator below `SC` readings, its sum in range (rules R26, R94). -/
theorem recOk_accumulated {b : Config} (hb : WellFormedBuild b) {d : SenseData} (hd : RecOk b d) (r : Raw)
    (hc : d.acc.count.toNat + 1 ≠ b.sc) :
    RecOk b { d with acc := { sum := BitVec.ofNat 32 (d.acc.sum.toNat + r.toNat),
                              count := BitVec.ofNat 16 (d.acc.count.toNat + 1) } } := by
  obtain ⟨hcal, hzero, hcount, hsum⟩ := hd
  obtain ⟨hbound, hsumLt, hcountLt⟩ := acc_no_overflow hb r hcount hsum
  refine ⟨hcal, hzero, ?_, ?_⟩ <;> simp only [BitVec.toNat_ofNat, Nat.mod_eq_of_lt hsumLt, Nat.mod_eq_of_lt hcountLt]
  · omega
  · exact hbound

theorem addReading_keeps_hallOk {s : State} (hb : WellFormedBuild s.build) (h : HallOk s) {i : Nat} (hi : i < s.snsCap)
    (r : Raw) : HallOk (addReading i r s) := by
  have hrec : RecOk s.build (readRec s i) := h.2 i hi
  rcases addReading_cases i r s (h.inBounds hi) with
    ⟨hc, ht⟩ | ⟨-, ⟨-, ht⟩ | ⟨-, ⟨-, ht⟩ | ⟨-, ⟨f, -, ht⟩ | ⟨a, -, ht⟩⟩⟩⟩ <;> rw [ht]
  · exact (h.writeRec i (recOk_accumulated hb hrec r hc)).respond _
  · exact (h.writeRec i (recOk_emptied hb hrec)).raise _
  · exact (h.writeRec i (recOk_unusableRecord hb _ _)).respond _
  · exact (h.writeRec i (recOk_emptied hb hrec)).raise _
  · exact (h.writeRec i (recOk_usableRecord hb _ a _)).respond _

/-! ### What a command to one engine leaves of the other -/

/-- A Matrix command, a failing or faulting one included, leaves the Hall engine alone (rule R49). -/
theorem exec_matrix_sameHall {i : Instr} {s t : State} (hi : isHall i = false) (h : exec i s = .next t) :
    SameHall s t := by
  cases i with
  | snsInit n => cases hi
  | snsAdd index reading => cases hi
  | snsGet index => cases hi
  | mtxInit =>
    rcases execMtxInit_cases s with ⟨-, h'⟩ | ⟨c, e, -, -, h'⟩ <;> obtain rfl := next_inj (h'.symm.trans h) <;>
      simp [SameHall]
  | mtxClear =>
    rcases execMtxClear_cases s with ⟨-, h'⟩ | ⟨-, ⟨-, h'⟩ | ⟨c, e, -, -, h'⟩⟩ <;>
      obtain rfl := next_inj (h'.symm.trans h) <;> simp [SameHall]
  | mtxNext =>
    rcases execMtxNext_cases s with ⟨-, h'⟩ | ⟨-, ⟨-, h'⟩ | ⟨e, -, h'⟩ | ⟨k, op, e, -, -, -, h'⟩⟩ <;>
      obtain rfl := next_inj (h'.symm.trans h) <;> simp [SameHall]
  | mtxSense =>
    rcases execMtxSense_cases s with ⟨-, h'⟩ | ⟨-, ⟨-, h'⟩ | ⟨n, e, -, -, -, h'⟩ | ⟨n, -, -, -, -, h'⟩⟩ <;>
      obtain rfl := next_inj (h'.symm.trans h) <;> simp [SameHall]
  | mtxStrobe =>
    rcases execMtxStrobe_cases s with ⟨-, h'⟩ | ⟨-, h'⟩ <;> obtain rfl := next_inj (h'.symm.trans h) <;>
      simp [SameHall]

theorem SameMatrix.refl (s : State) : SameMatrix s s := ⟨rfl, rfl, rfl, rfl, rfl, rfl, rfl, rfl⟩

theorem sensorBatch_sameMatrix (i : Nat) (avg : Raw) (s : State) : SameMatrix s (sensorBatch i avg s) := by
  unfold sensorBatch
  split <;> exact SameMatrix.refl s

theorem addReading_sameMatrix (i : Nat) (r : Raw) (s : State) : SameMatrix s (addReading i r s) := by
  unfold addReading
  split
  · exact SameMatrix.refl s
  · next avg a _ => exact sensorBatch_sameMatrix i avg (writeRec i { readRec s i with acc := a } s)

/-- A Hall command, a failing or faulting one included, leaves the Matrix engine and its draws alone (rule R49). -/
theorem exec_hall_sameMatrix {i : Instr} {s t : State} (hi : isHall i = true) (h : exec i s = .next t) :
    SameMatrix s t := by
  cases i with
  | snsInit n =>
    rcases execSnsInit_cases n s with ⟨-, h'⟩ | ⟨-, h'⟩ <;> obtain rfl := next_inj (h'.symm.trans h) <;>
      exact SameMatrix.refl s
  | snsAdd index reading =>
    rcases execSnsAdd_cases index reading s with ⟨-, h'⟩ | ⟨-, -, h'⟩ | ⟨-, -, h'⟩ <;>
      obtain rfl := next_inj (h'.symm.trans h)
    · exact SameMatrix.refl s
    · exact SameMatrix.refl s
    · exact addReading_sameMatrix _ _ s
  | snsGet index =>
    rcases execSnsGet_cases index s with ⟨-, h'⟩ | ⟨-, -, h'⟩ | ⟨-, -, ⟨-, h'⟩ | ⟨-, h'⟩⟩ <;>
      obtain rfl := next_inj (h'.symm.trans h) <;> exact SameMatrix.refl s
  | mtxInit => cases hi
  | mtxClear => cases hi
  | mtxNext => cases hi
  | mtxSense => cases hi
  | mtxStrobe => cases hi

/-! ### Every command keeps the Hall engine's invariant -/

theorem exec_keeps_hallOk {i : Instr} {s t : State} (hb : WellFormedBuild s.build) (h : HallOk s)
    (hexec : exec i s = .next t) : HallOk t := by
  cases i with
  | snsInit n =>
    rcases execSnsInit_cases n s with ⟨-, ht⟩ | ⟨hn, ht⟩ <;> obtain rfl := next_inj (ht.symm.trans hexec)
    · exact ⟨⟨rfl, Nat.zero_le _, fun _ => rfl⟩, fun j hj => absurd hj (Nat.not_lt_zero j)⟩
    · refine ⟨⟨by simp, hn, fun hl => by simp at hl⟩, fun j (hj : j < n.toNat) => ?_⟩
      simpa [readRec, List.getD_eq_getElem?_getD, List.getElem?_replicate, hj] using recOk_defaultRecord hb
  | snsAdd index reading =>
    rcases execSnsAdd_cases index reading s with ⟨-, ht⟩ | ⟨-, -, ht⟩ | ⟨-, hi, ht⟩ <;>
      obtain rfl := next_inj (ht.symm.trans hexec)
    · exact h.raise _
    · exact h.respond _
    · exact addReading_keeps_hallOk hb h hi reading
  | snsGet index =>
    rcases execSnsGet_cases index s with ⟨-, ht⟩ | ⟨-, -, ht⟩ | ⟨-, -, ⟨-, ht⟩ | ⟨-, ht⟩⟩ <;>
      obtain rfl := next_inj (ht.symm.trans hexec)
    · exact h.raise _
    all_goals exact h.respond _
  | mtxInit => exact h.congr (exec_matrix_sameHall rfl hexec)
  | mtxClear => exact h.congr (exec_matrix_sameHall rfl hexec)
  | mtxNext => exact h.congr (exec_matrix_sameHall rfl hexec)
  | mtxSense => exact h.congr (exec_matrix_sameHall rfl hexec)
  | mtxStrobe => exact h.congr (exec_matrix_sameHall rfl hexec)

/-! ### From commands to steps -/

/-- What holds of `s`, survives taking the next word, an illegal word and every command of a well-formed build, holds after
every step. -/
theorem step_keeps (P : State → Prop) {s t : State} (hs : s.fault = none → P s)
    (take : ∀ rest, P s → P { s with hostCmds := rest })
    (illegal : ∀ u, P u → P (answerIllegal u))
    (exec_keeps : ∀ i u v, WellFormedBuild u.build → P u → exec i u = .next v → P v)
    (h : step s = .next t) : P t := by
  obtain ⟨hwf, hf, hrun⟩ := step_cases h
  have hP := hs hf
  rcases hrun with ⟨-, rfl⟩ | ⟨w, rest, -, ⟨i, -, hexec⟩ | ⟨r, -, rfl⟩⟩
  · exact hP
  · exact exec_keeps i { s with hostCmds := rest } t ((wf_iff s.build).mp hwf) (take rest hP) hexec
  · exact illegal _ (take rest hP)

/-- Settles O39: every command, a faulting one included, keeps `HallOk`. -/
theorem stepKeepsHallInvariant : Obligations.StepKeepsHallInvariant := by
  intro s t hinv hstep
  have ht : HallOk t := step_keeps HallOk ((hallInv_iff s).mp hinv) (fun _ h => h) (fun _ h => h.respond _)
    (fun _ _ _ hb h hexec => exec_keeps_hallOk hb h hexec) hstep
  exact (hallInv_iff t).mpr fun _ => ht

/-! ### The Matrix engine's invariant -/

/-- The Matrix engine's invariant without the fault mark: it stands after every command, a faulting one included. -/
def MatrixOk (s : State) : Prop :=
  MatrixShape s ∧ (s.mtxLive = true → s.curStrobe < s.build.csize ∧ ∀ c ∈ s.cells, CellOk s.build c)

theorem matrixInv_iff (s : State) : MatrixInv s ↔ (s.fault = none → MatrixOk s) := Iff.rfl

/-- The Matrix engine's invariant is about the Matrix engine alone. -/
theorem MatrixOk.congr {s t : State} (h : MatrixOk s) (same : SameMatrix s t) : MatrixOk t := by
  obtain ⟨hbuild, hlive, hcur, hcells, hdrive, hmode, -, -⟩ := same
  simpa [MatrixOk, MatrixShape, hbuild, hlive, hcur, hcells, hdrive, hmode] using h

theorem MatrixOk.respond {s : State} (h : MatrixOk s) (r : Response) : MatrixOk (respond r s) := h
theorem MatrixOk.raise {s : State} (h : MatrixOk s) (f : Fault) : MatrixOk (raise f s) := h

/-- Pin operations that succeed write shadows and no cell (rule R111). -/
theorem MatrixOk.afterOps {s : State} (h : MatrixOk s) (ops : List PinOp) : MatrixOk (afterOps ops s) := by
  simpa [MatrixOk, MatrixShape, foldl_colsOk_length, foldl_rowsOk_length] using h

/-- A failing pin operation writes a shadow and no cell (rule R111). -/
theorem MatrixOk.afterFail {s : State} (h : MatrixOk s) (ops : List PinOp) (op : PinOp) (e : PinError) :
    MatrixOk (afterFail ops op e s) := by
  simpa [MatrixOk, MatrixShape, colsFail_length, rowsFail_length, foldl_colsOk_length, foldl_rowsOk_length] using h

theorem MatrixOk.pinStep {s : State} (h : MatrixOk s) (op : PinOp) : MatrixOk (pinStep op s) := by
  simpa [MatrixOk, MatrixShape] using h

/-- An unconstructed matrix has its shape and nothing more to keep. -/
theorem MatrixOk.unconstruct {s : State} (h : MatrixOk s) : MatrixOk { s with mtxLive := false } :=
  ⟨h.1, fun hl => by simp at hl⟩

/-- Writing a strobe index that is in range (rule R112). -/
theorem MatrixOk.setStrobe {s : State} (h : MatrixOk s) {c : Nat} (hc : s.mtxLive = true → c < s.build.csize) :
    MatrixOk { s with curStrobe := c } := by
  obtain ⟨hshape, hlive⟩ := h
  exact ⟨hshape, fun hl => ⟨hc hl, (hlive hl).2⟩⟩

/-- The pre-first position is an index of a well-formed build (rule R106). -/
theorem preFirst_lt {b : Config} (hb : WellFormedBuild b) : preFirst b < b.csize := by
  have := hb.columns
  unfold preFirst
  omega

theorem MatrixOk.advanced {s : State} (h : MatrixOk s) : MatrixOk (advanced s) := by
  refine (h.afterOps (offOps s.build s.curStrobe)).setStrobe fun hl => ?_
  obtain ⟨hcur, -⟩ := h.2 hl
  exact nextStrobe_lt _ _ hcur

/-- A successful construction writes every cell (rule R103), so nothing is asked of those that stood before. -/
theorem MatrixOk.initDone {s : State} (hb : WellFormedBuild s.build) (h : MatrixOk s) : MatrixOk (initDone s) := by
  obtain ⟨⟨hdrive, hmode, -⟩, -⟩ := h
  refine ⟨⟨?_, ?_, by simp⟩, fun _ => ⟨preFirst_lt hb, fun c hc => ?_⟩⟩
  · simpa [foldl_colsOk_length] using hdrive
  · simpa using hmode
  · obtain rfl := List.eq_of_mem_replicate hc
    exact cellOk_debReset _

/-! ### The cells that a column's rows leave -/

/-- A cell read is in its ranges, one that stands in the grid or `DEB_RESET`. -/
theorem cellOk_readCell {s : State} (h : ∀ c ∈ s.cells, CellOk s.build c) (k : Nat) : CellOk s.build (readCell s k) := by
  by_cases hk : k < s.cells.length
  · exact (forall_cells_iff (CellOk s.build) rfl).mp h k hk
  · rw [readCell, List.getD_eq_default _ _ (by omega)]
    exact cellOk_debReset _

/-- The cells of the rows recorded are in their ranges (rules R28, R117), and the others are as they were. -/
theorem cellOk_gridAfter {s : State} (hb : WellFormedBuild s.build) (h : ∀ c ∈ s.cells, CellOk s.build c) {n : Nat}
    (hrec : Recorded n s) : ∀ c ∈ gridAfter n s, CellOk s.build c := by
  induction n with
  | zero => exact h
  | succ n ih =>
    intro c hc
    rw [gridAfter_succ] at hc
    rcases List.mem_or_eq_of_mem_set hc with hc | rfl
    · exact ih (fun r hr => hrec r (by omega)) c hc
    · obtain ⟨-, hdeb⟩ := hrec n (by omega)
      exact cellOk_debRecord hb (cellOk_readCell h _) hdeb

theorem MatrixOk.rowsDone {s : State} (hb : WellFormedBuild s.build) (h : MatrixOk s) {n : Nat} (hrec : Recorded n s) :
    MatrixOk (rowsDone n s) := by
  obtain ⟨⟨hdrive, hmode, hcells⟩, hlive⟩ := h
  refine ⟨⟨hdrive, hmode, (gridAfter_length n s).trans hcells⟩, fun hl => ?_⟩
  obtain ⟨hcur, hok⟩ := hlive hl
  exact ⟨hcur, cellOk_gridAfter hb hok hrec⟩

/-! ### Every command keeps the Matrix engine's invariant -/

theorem exec_keeps_matrixOk {i : Instr} {s t : State} (hb : WellFormedBuild s.build) (h : MatrixOk s)
    (hexec : exec i s = .next t) : MatrixOk t := by
  cases i with
  | snsInit n => exact h.congr (exec_hall_sameMatrix rfl hexec)
  | snsAdd index reading => exact h.congr (exec_hall_sameMatrix rfl hexec)
  | snsGet index => exact h.congr (exec_hall_sameMatrix rfl hexec)
  | mtxInit =>
    rcases execMtxInit_cases s with ⟨-, ht⟩ | ⟨c, e, -, -, ht⟩ <;> obtain rfl := next_inj (ht.symm.trans hexec)
    · exact (h.initDone hb).respond _
    · exact (h.afterFail _ _ e).unconstruct.respond _
  | mtxClear =>
    rcases execMtxClear_cases s with ⟨-, ht⟩ | ⟨-, ⟨-, ht⟩ | ⟨c, e, -, -, ht⟩⟩ <;>
      obtain rfl := next_inj (ht.symm.trans hexec)
    · exact h.raise _
    · exact ((h.afterOps _).setStrobe fun _ => preFirst_lt hb).respond _
    · exact (h.afterFail _ _ e).respond _
  | mtxNext =>
    rcases execMtxNext_cases s with ⟨-, ht⟩ | ⟨-, ⟨-, ht⟩ | ⟨e, -, ht⟩ | ⟨k, op, e, -, -, -, ht⟩⟩ <;>
      obtain rfl := next_inj (ht.symm.trans hexec)
    · exact h.raise _
    · exact (h.advanced.afterOps _).respond _
    · exact (h.advanced.afterFail _ _ e).respond _
    · exact (h.afterFail _ op e).respond _
  | mtxSense =>
    rcases execMtxSense_cases s with
        ⟨-, ht⟩ | ⟨-, ⟨hrec, ht⟩ | ⟨n, e, -, hrec, -, ht⟩ | ⟨n, -, hrec, -, -, ht⟩⟩ <;>
      obtain rfl := next_inj (ht.symm.trans hexec)
    · exact h.raise _
    · exact (h.rowsDone hb hrec).respond _
    · exact ((h.rowsDone hb hrec).pinStep _).respond _
    · exact ((h.rowsDone hb hrec).pinStep _).raise _
  | mtxStrobe =>
    rcases execMtxStrobe_cases s with ⟨-, ht⟩ | ⟨-, ht⟩ <;> obtain rfl := next_inj (ht.symm.trans hexec)
    · exact h.raise _
    · exact h.respond _

/-- Settles O52: every command, a faulting one included, keeps `MatrixOk`. -/
theorem stepKeepsMatrixInvariant : Obligations.StepKeepsMatrixInvariant := by
  intro s t hinv hstep
  have ht : MatrixOk t := step_keeps MatrixOk ((matrixInv_iff s).mp hinv) (fun _ h => h) (fun _ h => h.respond _)
    (fun _ _ _ hb h hexec => exec_keeps_matrixOk hb h hexec) hstep
  exact (matrixInv_iff t).mpr fun _ => ht

/-! ### What no step changes -/

/-- A command writes no build parameter and only adds to the responses and the pin trace (rules R32, R50). -/
theorem exec_keeps_history {i : Instr} {s t : State} (h : exec i s = .next t) :
    t.build = s.build ∧ s.responses <+: t.responses ∧ s.pinTrace <+: t.pinTrace := by
  obtain ⟨t', ht', hend⟩ := exec_ends i s
  obtain rfl := next_inj (ht'.symm.trans h)
  cases hend with
  | response r kept code => exact ⟨kept.build, by simp [kept.responses], kept.pinTrace⟩
  | fault f kept raised => exact ⟨kept.build, by simp [kept.responses], kept.pinTrace⟩

/-- Settles O14. -/
theorem buildFixedAndHistoryKept : Obligations.BuildFixedAndHistoryKept := by
  intro s t hstep
  obtain ⟨-, -, ⟨-, rfl⟩ | ⟨w, rest, -, ⟨i, -, hexec⟩ | ⟨r, -, rfl⟩⟩⟩ := step_cases hstep
  · exact ⟨rfl, List.prefix_refl _, List.prefix_refl _⟩
  · exact exec_keeps_history (s := { s with hostCmds := rest }) hexec
  · exact ⟨rfl, by simp [answerIllegal], List.prefix_refl _⟩

/-! ### A column sensed -/

/-- The event of a cell in the two forms of rule R63. -/
theorem keyEvent_eq (c : Cell) : keyEvent c = if c.conf = .on then .on c.cyc else .off c.idle c.cyc := by
  unfold keyEvent
  cases c.conf <;> rfl

/-- Rows whose reads succeed and whose records, each from the cell that stands in the grid, give `cell'` are recorded, and
`cell'` is what they leave. -/
theorem recorded_of_cells {s : State} {n : Nat} {cell' : Nat → Cell} (hdraw : AllSucceed n s)
    (hcell : ∀ r, r < n → ∃ c, s.cells[s.curStrobe * s.build.rsize + r]? = some c ∧
      debRecord s.build c (drawLevel (drawAt s r)) = some (cell' r)) :
    Recorded n s ∧ ∀ r, r < n → cellAfter s r = cell' r := by
  have hdeb : ∀ r, r < n → debRecord s.build (strobedCell s r) (levelOf s r) = some (cell' r) := by
    intro r hr
    obtain ⟨c, hc, hrec⟩ := hcell r hr
    rwa [strobedCell_of_getElem? hc]
  have hafter : ∀ r, r < n → cellAfter s r = cell' r := fun r hr => by simp [cellAfter, hdeb r hr]
  refine ⟨fun r hr => ⟨?_, by rw [hafter r hr, hdeb r hr]⟩, hafter⟩
  have hs := hdraw r hr
  cases hd : drawAt s r with
  | succeed level => simp [levelOf, hd, drawLevel]
  | fail e => simp [hd, drawSucceeds] at hs

/-- `MTX_SENSE` with every row recorded (rule R108). -/
theorem exec_mtxSense_of_recorded {s : State} (hl : s.mtxLive = true) (h : Recorded s.build.rsize s) :
    exec .mtxSense s = .next (respond
      (.okEvents ((List.range s.build.rsize).map fun r => keyEvent (cellAfter s r))) (rowsDone s.build.rsize s)) := by
  simp [exec, execMtxSense, withMatrix, hl, senseColumn, senseRows_recorded _ _ h]

/-- Settles O46: the grid is `gridAfter`, each recorded cell at its own address. -/
theorem mtxSenseRecordsEachRow : Obligations.MtxSenseRecordsEachRow := by
  intro s cell' hready hdraw hcell
  obtain ⟨hrec, hafter⟩ := recorded_of_cells hdraw hcell
  have hevents : ((List.range s.build.rsize).map fun r => keyEvent (cellAfter s r)) =
      (List.range s.build.rsize).map fun r =>
        if (cell' r).conf = .on then .on (cell' r).cyc else .off (cell' r).idle (cell' r).cyc :=
    List.map_congr_left fun r hr => by rw [hafter r (List.mem_range.mp hr), keyEvent_eq]
  refine ⟨gridAfter s.build.rsize s, ?_, gridAfter_length _ s, fun r hr => ?_, fun k hk => gridAfter_other _ s k hk⟩
  · rw [exec_mtxSense_of_recorded hready.live hrec, hevents]
    rfl
  · obtain ⟨c, hc, -⟩ := hcell r hr
    rw [gridAfter_own _ s r hr (List.getElem?_eq_some_iff.mp hc).1, hafter r hr]

/-! ### A faulted block, and power-on -/

/-- Settles O12. -/
theorem faultedBlockTakesNoStep : Obligations.FaultedBlockTakesNoStep := by
  intro s f hf
  refine ⟨fun hwf => step_of_fault hwf hf, fun t ht => ?_⟩
  obtain ⟨-, hnone, -⟩ := step_cases ht
  simp [hf] at hnone

/-- No index is below the capacity at power-on, so what holds of every record holds (rule R143). -/
theorem forall_recs_powerOn (b : Config) (P : Nat → Prop) : ∀ i, i < (State.powerOn b).snsCap → P i :=
  fun i hi => absurd hi (Nat.not_lt_zero i)

theorem hallOk_powerOn (b : Config) : HallOk (State.powerOn b) :=
  ⟨⟨rfl, Nat.zero_le _, fun _ => rfl⟩, forall_recs_powerOn b _⟩

/-- At power-on the matrix has its shape and is unconstructed (rules R36, R143). -/
theorem matrixOk_powerOn (b : Config) : MatrixOk (State.powerOn b) := by
  simp [MatrixOk, MatrixShape, State.powerOn]

theorem othersInactive_powerOn (b : Config) : OthersInactive (State.powerOn b) := by
  simp [OthersInactive, State.powerOn]

theorem wellFormedBuild_reference : WellFormedBuild Config.reference :=
  (wf_iff Config.reference).mp (by decide)

/-- Settles O18: at power-on neither engine is constructed. -/
theorem powerOnMeetsInvariants : Obligations.PowerOnMeetsInvariants :=
  ⟨fun b _ => ⟨fun _ => hallOk_powerOn b, fun _ => matrixOk_powerOn b, fun _ => forall_recs_powerOn b _,
    othersInactive_powerOn b⟩, rfl, wellFormedBuild_reference⟩

end Sys2Proof.Machine

/-! PROOFS. The memory (20_memory.md): the two engines share no state, and neither sees the other (rule R49). -/

namespace Sys2Proof.Machine

theorem SameHall.symm {s t : State} (h : SameHall s t) : SameHall t s := by
  obtain ⟨hbuild, hlive, hcap, hrecs⟩ := h
  exact ⟨hbuild.symm, hlive.symm, hcap.symm, hrecs.symm⟩

theorem SameMatrix.symm {s t : State} (h : SameMatrix s t) : SameMatrix t s := by
  obtain ⟨hbuild, hlive, hcur, hcells, hdrive, hmode, hdraws, hfree⟩ := h
  exact ⟨hbuild.symm, hlive.symm, hcur.symm, hcells.symm, hdrive.symm, hmode.symm, hdraws.symm, hfree.symm⟩

/-! ### The Hall engine alone

A Hall command runs on the Hall engine by itself, and the rest of the state is put back afterwards. -/

/-- The Hall engine of `u`, with everything else as it stands in `o`: the responses of `u` follow those of `o`. -/
def hallInto (o u : State) : State :=
  { o with
    build := u.build, snsLive := u.snsLive, snsCap := u.snsCap, recs := u.recs, fault := u.fault
    responses := o.responses ++ u.responses }

/-- The Hall engine of `s`, with nothing else in the state and no response given. -/
def hallAlone (s : State) : State :=
  { State.powerOn s.build with snsLive := s.snsLive, snsCap := s.snsCap, recs := s.recs, fault := s.fault }

theorem hallInto_hallAlone (s : State) : hallInto s (hallAlone s) = s := by
  simp [hallInto, hallAlone, State.powerOn]

theorem hallAlone_congr {s s' : State} (hf : s.fault = s'.fault) (h : SameHall s s') : hallAlone s = hallAlone s' := by
  obtain ⟨hbuild, hlive, hcap, hrecs⟩ := h
  simp [hallAlone, hf, hbuild, hlive, hcap, hrecs]

section
variable (o u : State)

@[simp] theorem hallInto_build : (hallInto o u).build = u.build := rfl
@[simp] theorem hallInto_snsLive : (hallInto o u).snsLive = u.snsLive := rfl
@[simp] theorem inBounds_hallInto (i : Nat) : inBounds (hallInto o u) i = inBounds u i := rfl
@[simp] theorem readRec_hallInto (i : Nat) : readRec (hallInto o u) i = readRec u i := rfl
@[simp] theorem raise_hallInto (f : Fault) : raise f (hallInto o u) = hallInto o (raise f u) := rfl
@[simp] theorem writeRec_hallInto (i : Nat) (d : SenseData) :
    writeRec i d (hallInto o u) = hallInto o (writeRec i d u) := rfl
@[simp] theorem respond_hallInto (r : Response) : respond r (hallInto o u) = hallInto o (respond r u) := by
  simp [respond, hallInto]

theorem constructHall_hallInto (n : Nat) : constructHall n (hallInto o u) = hallInto o (constructHall n u) := by
  by_cases h : n > u.build.nMax
  · simp [constructHall, h, respond, hallInto]
  · simp [constructHall, h, respond, hallInto]

theorem sensorBatch_hallInto (i : Nat) (avg : Raw) :
    sensorBatch i avg (hallInto o u) = hallInto o (sensorBatch i avg u) := by
  simp only [sensorBatch, hallInto_build, readRec_hallInto]
  cases batchRecord u.build i avg (readRec u i) <;> simp

theorem addReading_hallInto (i : Nat) (r : Raw) : addReading i r (hallInto o u) = hallInto o (addReading i r u) := by
  simp only [addReading, hallInto_build, readRec_hallInto]
  cases accAdd u.build (readRec u i).acc r <;> simp [sensorBatch_hallInto]

theorem readOut_hallInto (i : Nat) : readOut i (hallInto o u) = hallInto o (readOut i u) := by
  by_cases h : (readRec u i).cal = .notReady
  · simp [readOut, h]
  · simp [readOut, h]

theorem withHall_hallInto {run run' : State} (h : run' = hallInto o run) :
    withHall (hallInto o u) run' = hallInto o (withHall u run) := by
  simp only [withHall, hallInto_snsLive, h]
  split <;> simp

end

/-- A Hall command neither reads nor writes what stands outside its engine (rules R49, R129). -/
theorem exec_hallInto {c : Instr} (hc : isHall c = true) (o : State) {u t : State} (h : exec c u = .next t) :
    exec c (hallInto o u) = .next (hallInto o t) := by
  cases c with
  | snsInit n =>
    obtain rfl := next_inj h
    exact congrArg _ (constructHall_hallInto o u _)
  | snsAdd i r =>
    obtain rfl := next_inj h
    refine congrArg _ (withHall_hallInto o u ?_)
    rw [inBounds_hallInto, addReading_hallInto, respond_hallInto, apply_ite (hallInto o)]
  | snsGet i =>
    obtain rfl := next_inj h
    refine congrArg _ (withHall_hallInto o u ?_)
    rw [inBounds_hallInto, readOut_hallInto, respond_hallInto, apply_ite (hallInto o)]
  | mtxInit => cases hc
  | mtxClear => cases hc
  | mtxNext => cases hc
  | mtxSense => cases hc
  | mtxStrobe => cases hc

/-- What a Hall command leaves is what it leaves of its engine alone, put back into the state. -/
theorem exec_hall_eq {c : Instr} (hc : isHall c = true) {s t u : State} (hs : exec c s = .next t)
    (hu : exec c (hallAlone s) = .next u) : t = hallInto s u := by
  have h := exec_hallInto hc s hu
  rw [hallInto_hallAlone] at h
  exact next_inj (hs.symm.trans h)

/-! ### The Matrix engine alone

A Matrix command runs on the Matrix engine and the draws by themselves, in the same way. -/

/-- The Matrix engine and the draws of `u`, with everything else as it stands in `o`: the responses and pin events of `u`
follow those of `o`. -/
def matrixInto (o u : State) : State :=
  { u with
    snsLive := o.snsLive, snsCap := o.snsCap, recs := o.recs, hostCmds := o.hostCmds
    responses := o.responses ++ u.responses, pinTrace := o.pinTrace ++ u.pinTrace }

/-- The Matrix engine and the draws of `s`, with nothing else in the state, no response given and no pin event. -/
def matrixAlone (s : State) : State :=
  { s with snsLive := false, snsCap := 0, recs := [], hostCmds := [], responses := [], pinTrace := [] }

theorem matrixInto_matrixAlone (s : State) : matrixInto s (matrixAlone s) = s := by
  simp [matrixInto, matrixAlone]

theorem matrixAlone_congr {s s' : State} (hf : s.fault = s'.fault) (h : SameMatrix s s') :
    matrixAlone s = matrixAlone s' := by
  obtain ⟨hbuild, hlive, hcur, hcells, hdrive, hmode, hdraws, hfree⟩ := h
  simp [matrixAlone, hf, hbuild, hlive, hcur, hcells, hdrive, hmode, hdraws, hfree]

/-- The rows of `MTX_SENSE`, with the state they leave put into `o`. -/
def SenseResult.into (o : State) : SenseResult → SenseResult
  | .done ev u => .done ev (matrixInto o u)
  | .ioFailed f u => .ioFailed f (matrixInto o u)
  | .cellOverflow k u => .cellOverflow k (matrixInto o u)

section
variable (o u : State)

@[simp] theorem matrixInto_build : (matrixInto o u).build = u.build := rfl
@[simp] theorem matrixInto_mtxLive : (matrixInto o u).mtxLive = u.mtxLive := rfl
@[simp] theorem matrixInto_curStrobe : (matrixInto o u).curStrobe = u.curStrobe := rfl
@[simp] theorem currentDraw_matrixInto : currentDraw (matrixInto o u) = currentDraw u := rfl
@[simp] theorem readCell_matrixInto (k : Nat) : readCell (matrixInto o u) k = readCell u k := rfl
theorem setStrobe_matrixInto (c : Nat) :
    { matrixInto o u with curStrobe := c } = matrixInto o { u with curStrobe := c } := rfl
@[simp] theorem raise_matrixInto (f : Fault) : raise f (matrixInto o u) = matrixInto o (raise f u) := rfl
@[simp] theorem writeCell_matrixInto (k : Nat) (c : Cell) :
    writeCell k c (matrixInto o u) = matrixInto o (writeCell k c u) := rfl
@[simp] theorem respond_matrixInto (r : Response) : respond r (matrixInto o u) = matrixInto o (respond r u) := by
  simp [respond, matrixInto]
@[simp] theorem respondIo_matrixInto (f : PinFailure) :
    respondIo f (matrixInto o u) = matrixInto o (respondIo f u) := respond_matrixInto o u _

@[simp] theorem logPin_matrixInto (op : PinOp) (d : PinDraw) :
    logPin op d (matrixInto o u) = matrixInto o (logPin op d u) := by
  simp [logPin, matrixInto]

/-- The shadow is the Matrix engine's own (rule R30). -/
theorem shadowAfter_matrixInto (op : PinOp) (d : PinDraw) :
    shadowAfter op d (matrixInto o u) = matrixInto o (shadowAfter op d u) := by
  cases op <;> cases d <;> rfl

@[simp] theorem pinStep_matrixInto (op : PinOp) : pinStep op (matrixInto o u) = matrixInto o (pinStep op u) := by
  rw [pinStep, pinStep, ← shadowAfter_matrixInto, ← logPin_matrixInto]
  rfl

theorem runPins_matrixInto (ops : List PinOp) :
    runPins ops (matrixInto o u) = ((runPins ops u).1, matrixInto o (runPins ops u).2) := by
  induction ops generalizing u with
  | nil => rfl
  | cons op ops ih =>
    simp only [runPins, currentDraw_matrixInto, pinStep_matrixInto]
    cases currentDraw u with
    | fail e => rfl
    | succeed level => exact ih (pinStep op u)

theorem constructMatrix_matrixInto : constructMatrix (matrixInto o u) = matrixInto o (constructMatrix u) := by
  simp only [constructMatrix, matrixInto_build, runPins_matrixInto]
  rcases runPins (allColumns u.build .inactive) u with ⟨_ | f, u1⟩
  · exact respond_matrixInto o { u1 with curStrobe := _, cells := _, mtxLive := true } _
  · exact respondIo_matrixInto o { u1 with mtxLive := false } f

theorem clearColumns_matrixInto : clearColumns (matrixInto o u) = matrixInto o (clearColumns u) := by
  simp only [clearColumns, matrixInto_build, runPins_matrixInto]
  rcases runPins (allColumns u.build .inactive) u with ⟨_ | f, u1⟩
  · exact respond_matrixInto o { u1 with curStrobe := preFirst u.build } _
  · exact respondIo_matrixInto o u1 f

theorem activateNext_matrixInto : activateNext (matrixInto o u) = matrixInto o (activateNext u) := by
  rw [activateNext, setStrobe_matrixInto, runPins_matrixInto, activateNext]
  simp only [matrixInto_build, matrixInto_curStrobe]
  rcases runPins [.colSet (nextStrobe u.build u.curStrobe) .active]
    { u with curStrobe := nextStrobe u.build u.curStrobe } with ⟨_ | f, u1⟩
  · exact respond_matrixInto o u1 _
  · exact respondIo_matrixInto o u1 f

theorem advanceStrobe_matrixInto : advanceStrobe (matrixInto o u) = matrixInto o (advanceStrobe u) := by
  simp only [advanceStrobe, matrixInto_build, matrixInto_curStrobe, runPins_matrixInto]
  rcases runPins (.colSet u.curStrobe .inactive :: drainOps u.build) u with ⟨_ | f, u1⟩
  · exact activateNext_matrixInto o u1
  · exact respondIo_matrixInto o u1 f

theorem senseRows_matrixInto (rows : List Nat) (ev : List KeyEvent) :
    senseRows rows ev (matrixInto o u) = (senseRows rows ev u).into o := by
  induction rows generalizing ev u with
  | nil => rfl
  | cons r rows ih =>
    cases hd : currentDraw u with
    | fail e => simp [senseRows, hd, SenseResult.into]
    | succeed level =>
      cases hc : debRecord u.build (readCell u (cellAddr u.build u.curStrobe r)) level with
      | none => simp [senseRows, hd, hc, SenseResult.into]
      | some c => simp [senseRows, hd, hc, ih]

theorem senseColumn_matrixInto : senseColumn (matrixInto o u) = matrixInto o (senseColumn u) := by
  simp only [senseColumn, matrixInto_build, senseRows_matrixInto]
  cases senseRows (List.range u.build.rsize) [] u <;> simp [SenseResult.into]

theorem withMatrix_matrixInto {run run' : State} (h : run' = matrixInto o run) :
    withMatrix (matrixInto o u) run' = matrixInto o (withMatrix u run) := by
  simp only [withMatrix, matrixInto_mtxLive, h]
  split <;> simp

end

/-- A Matrix command neither reads nor writes what stands outside its engine and the draws (rule R49). -/
theorem exec_matrixInto {c : Instr} (hc : isHall c = false) (o : State) {u t : State} (h : exec c u = .next t) :
    exec c (matrixInto o u) = .next (matrixInto o t) := by
  cases c with
  | snsInit n => cases hc
  | snsAdd i r => cases hc
  | snsGet i => cases hc
  | mtxInit =>
    obtain rfl := next_inj h
    exact congrArg _ (constructMatrix_matrixInto o u)
  | mtxClear =>
    obtain rfl := next_inj h
    exact congrArg _ (withMatrix_matrixInto o u (clearColumns_matrixInto o u))
  | mtxNext =>
    obtain rfl := next_inj h
    exact congrArg _ (withMatrix_matrixInto o u (advanceStrobe_matrixInto o u))
  | mtxSense =>
    obtain rfl := next_inj h
    exact congrArg _ (withMatrix_matrixInto o u (senseColumn_matrixInto o u))
  | mtxStrobe =>
    obtain rfl := next_inj h
    exact congrArg _ (withMatrix_matrixInto o u (respond_matrixInto o u _))

/-- What a Matrix command leaves is what it leaves of its engine alone, put back into the state. -/
theorem exec_matrix_eq {c : Instr} (hc : isHall c = false) {s t u : State} (hs : exec c s = .next t)
    (hu : exec c (matrixAlone s) = .next u) : t = matrixInto s u := by
  have h := exec_matrixInto hc s hu
  rw [matrixInto_matrixAlone] at h
  exact next_inj (hs.symm.trans h)

/-! ### The two obligations -/

/-- A Hall command issues no pin operation (rule R129). -/
theorem exec_hall_pinTrace {c : Instr} (hc : isHall c = true) {s t : State} (h : exec c s = .next t) :
    t.pinTrace = s.pinTrace := by
  obtain ⟨u, hu⟩ := exec_next c (hallAlone s)
  rw [exec_hall_eq hc h hu]
  rfl

/-- Settles O40. -/
theorem enginesShareNoState : Obligations.EnginesShareNoState := by
  intro c s t h _
  exact ⟨fun hc => ⟨(exec_hall_sameMatrix hc h).symm, exec_hall_pinTrace hc h⟩,
    fun hc => (exec_matrix_sameHall hc h).symm⟩

/-- Settles O41: both commands leave what one run of the engine alone leaves, each put back into its own state. -/
theorem enginesDoNotInterfere : Obligations.EnginesDoNotInterfere := by
  intro c s s' t t' hf h h'
  refine ⟨fun hc same => ?_, fun hc same => ?_⟩
  · obtain ⟨u, hu⟩ := exec_next c (hallAlone s)
    have ht := exec_hall_eq hc h hu
    have ht' := exec_hall_eq hc h' (hallAlone_congr hf same ▸ hu)
    subst ht ht'
    exact ⟨rfl, by simp [hallInto], fun _ => ⟨rfl, rfl, rfl, rfl⟩⟩
  · obtain ⟨u, hu⟩ := exec_next c (matrixAlone s)
    have ht := exec_matrix_eq hc h hu
    have ht' := exec_matrix_eq hc h' (matrixAlone_congr hf same ▸ hu)
    subst ht ht'
    exact ⟨rfl, by simp [matrixInto], by simp [matrixInto], fun _ => ⟨rfl, rfl, rfl, rfl, rfl, rfl, rfl, rfl⟩⟩

end Sys2Proof.Machine

/-! PROOFS. The encoding (30_encoding.md): the decoder against the encoder, the opcode map, the operands and the illegal
words, the assembler, the codes, and how the words of a run are answered. -/

namespace Sys2Proof

/-! ### Words and their fields -/

theorem packFields_inj {op op' : BitVec 4} {idx idx' : Index} {data data' : BitVec 16} :
    packFields op idx data = packFields op' idx' data' ↔ op = op' ∧ idx = idx' ∧ data = data' := by
  refine ⟨fun h => ⟨?_, ?_, ?_⟩, fun ⟨hop, hidx, hdata⟩ => by rw [hop, hidx, hdata]⟩
  · simpa [opField_packFields] using congrArg opField h
  · simpa [idxField_packFields] using congrArg idxField h
  · simpa [dataField_packFields] using congrArg dataField h

/-- A mask laid out from three fields masks each field of a word on its own (rules R56, R58). -/
theorem packFields_and (op op' : BitVec 4) (idx idx' : Index) (data data' : BitVec 16) :
    packFields op idx data &&& packFields op' idx' data' = packFields (op &&& op') (idx &&& idx') (data &&& data') :=
  (BitVec.and_append).trans (congrArg (· ++ (data &&& data')) BitVec.and_append)

/-- A word is laid out from its fields, however they are written (rule R56). -/
theorem packFields_eq_of_fields {w : Word} {op : BitVec 4} {idx : Index} {data : BitVec 16} (hop : opField w = op)
    (hidx : idxField w = idx) (hdata : dataField w = data) : packFields op idx data = w := by
  rw [← hop, ← hidx, ← hdata, packFields_fields]

/-! ### The decoder and the encoder -/

@[simp] theorem whenZero_true (op : BitVec 4) (i : Instr) : whenZero true op i = .cmd i := rfl

theorem decode_encode (i : Instr) : decode (encode i) = .cmd i := by
  cases i <;> simp [encode, decode, opField_packFields, idxField_packFields, dataField_packFields]

theorem decode_of_encode_eq {i : Instr} {w : Word} (h : encode i = w) : decode w = .cmd i := h ▸ decode_encode i

/-- What makes a word illegal, in numbers: a reserved `OP`, or a nonzero field where the row of its `OP` wants zero
(rules R59, R60, R68). -/
def IllegalNumber (n : Nat) : Prop :=
  (n / 2 ^ 28 = 0 ∨ 9 ≤ n / 2 ^ 28) ∨ (n / 2 ^ 28 = 1 ∧ n / 2 ^ 16 % 2 ^ 12 ≠ 0) ∨ (n / 2 ^ 28 = 3 ∧ n % 2 ^ 16 ≠ 0) ∨
    (4 ≤ n / 2 ^ 28 ∧ n / 2 ^ 28 ≤ 8 ∧ n % 2 ^ 28 ≠ 0)

/-- Everything a row of the decoder with a must-be-zero field can do (rule R60). -/
theorem whenZero_cases (zero : Bool) (op : BitVec 4) (i : Instr) :
    (zero = true ∧ whenZero zero op i = .cmd i) ∨ (zero = false ∧ whenZero zero op i = .illegal (.mustBeZero op)) := by
  cases zero
  · exact .inr ⟨rfl, rfl⟩
  · exact .inl ⟨rfl, rfl⟩

/-- What decoding `w` to `d` says of the word: a command's word is the encoder's, an illegal word is one in numbers. -/
def Explains (w : Word) : Decoded → Prop
  | .cmd i => encode i = w
  | .illegal _ => IllegalNumber w.toNat

theorem explains_whenZero {w : Word} {zero : Bool} {op : BitVec 4} {i : Instr} (hcmd : zero = true → encode i = w)
    (hillegal : zero = false → IllegalNumber w.toNat) : Explains w (whenZero zero op i) := by
  rcases whenZero_cases zero op i with ⟨hz, h⟩ | ⟨hz, h⟩ <;> rw [h]
  · exact hcmd hz
  · exact hillegal hz

theorem opField_eq_ofNat {w : Word} {n : Nat} (h : (opField w).toNat = n) : opField w = BitVec.ofNat 4 n := by
  simp [← h]

/-- A row with no operand: `OP` alone, and the 28 bits below it zero (rules R58, R60). -/
theorem explains_operandFree {w : Word} {n : Nat} {i : Instr} (hop : (opField w).toNat = n) (hlow : 4 ≤ n)
    (hhigh : n ≤ 8) (henc : encode i = packFields (BitVec.ofNat 4 n) 0#12 0#16) :
    Explains w (whenZero (idxField w == 0#12 && dataField w == 0#16) (opField w) i) := by
  refine explains_whenZero (fun hz => ?_) (fun hz => .inr (.inr (.inr ?_)))
  · simp only [Bool.and_eq_true, beq_iff_eq] at hz
    rw [henc, packFields_eq_of_fields (opField_eq_ofNat hop) hz.1 hz.2]
  · simp only [Bool.and_eq_false_imp, beq_iff_eq, beq_eq_false_iff_ne, ne_eq, ← BitVec.toNat_inj, idxField_toNat,
      dataField_toNat, BitVec.toNat_ofNat] at hz
    rw [opField_toNat] at hop
    omega

/-- The decoder, row by row (rules R58 to R60). -/
theorem decode_explains (w : Word) : Explains w (decode w) := by
  unfold decode
  dsimp only
  split
  case h_1 hop =>
    refine explains_whenZero (fun hz => packFields_eq_of_fields (opField_eq_ofNat hop) (by simpa using hz) rfl)
      (fun hz => .inr (.inl ⟨by rwa [← opField_toNat], ?_⟩))
    rw [← idxField_toNat]
    simpa [← BitVec.toNat_inj] using hz
  case h_2 hop => exact packFields_eq_of_fields (opField_eq_ofNat hop) rfl rfl
  case h_3 hop =>
    refine explains_whenZero (fun hz => packFields_eq_of_fields (opField_eq_ofNat hop) rfl (by simpa using hz))
      (fun hz => .inr (.inr (.inl ⟨by rwa [← opField_toNat], ?_⟩)))
    rw [← dataField_toNat]
    simpa [← BitVec.toNat_inj] using hz
  case h_4 hop => exact explains_operandFree hop (by omega) (by omega) rfl
  case h_5 hop => exact explains_operandFree hop (by omega) (by omega) rfl
  case h_6 hop => exact explains_operandFree hop (by omega) (by omega) rfl
  case h_7 hop => exact explains_operandFree hop (by omega) (by omega) rfl
  case h_8 hop => exact explains_operandFree hop (by omega) (by omega) rfl
  case h_9 =>
    simp only [imp_false] at *
    refine .inl ?_
    rw [← opField_toNat]
    omega

theorem encode_of_decode {w : Word} {i : Instr} (h : decode w = .cmd i) : encode i = w := by
  simpa [h, Explains] using decode_explains w

theorem illegalNumber_of_decode {w : Word} {r : Illegal} (h : decode w = .illegal r) : IllegalNumber w.toNat := by
  simpa [h, Explains] using decode_explains w

theorem decode_eq_cmd_iff {w : Word} {i : Instr} : decode w = .cmd i ↔ encode i = w :=
  ⟨encode_of_decode, decode_of_encode_eq⟩

/-- The number of a command's word (rules R56, R57). -/
def wordNumber : Instr → Nat
  | .snsInit capacity => 1 * 2 ^ 28 + capacity.toNat
  | .snsAdd index reading => 2 * 2 ^ 28 + index.toNat * 2 ^ 16 + reading.toNat
  | .snsGet index => 3 * 2 ^ 28 + index.toNat * 2 ^ 16
  | .mtxInit => 4 * 2 ^ 28
  | .mtxClear => 5 * 2 ^ 28
  | .mtxNext => 6 * 2 ^ 28
  | .mtxSense => 7 * 2 ^ 28
  | .mtxStrobe => 8 * 2 ^ 28

theorem encode_toNat (i : Instr) : (encode i).toNat = wordNumber i := by
  cases i <;> simp [encode, packFields_toNat, wordNumber]

theorem encode_not_illegalNumber (i : Instr) : ¬ IllegalNumber (encode i).toNat := by
  rw [encode_toNat, IllegalNumber]
  cases i with
  | snsInit capacity => have := capacity.isLt; simp only [wordNumber]; omega
  | snsAdd index reading => have := index.isLt; have := reading.isLt; simp only [wordNumber]; omega
  | snsGet index => have := index.isLt; simp only [wordNumber]; omega
  | _ => simp only [wordNumber]; omega

/-- Settles O1. -/
theorem decodeAfterEncodeIsIdentity : Obligations.DecodeAfterEncodeIsIdentity := decode_encode

/-- Settles O2. -/
theorem encodeAfterDecodeIsIdentity : Obligations.EncodeAfterDecodeIsIdentity := fun _ _ => encode_of_decode

/-- Settles O4: the word is the encoder's, so its number is that of the operands. -/
theorem decodedOperandsAreWordFields : Obligations.DecodedOperandsAreWordFields := by
  intro w i h
  have hw := encode_toNat i
  rw [encode_of_decode h] at hw
  cases i with
  | snsInit capacity => have := capacity.isLt; simp only [wordNumber] at hw ⊢; omega
  | snsAdd index reading => have := index.isLt; have := reading.isLt; simp only [wordNumber] at hw ⊢; omega
  | snsGet index => have := index.isLt; simp only [wordNumber] at hw ⊢; omega
  | _ => simp [hw, wordNumber]

/-- Settles O5: an illegal word is one in numbers, and no command's word is. -/
theorem illegalExactlyReservedOrNonzero : Obligations.IllegalExactlyReservedOrNonzero := by
  intro w
  refine ⟨fun ⟨r, h⟩ => illegalNumber_of_decode h, fun hw => ?_⟩
  cases hd : decode w with
  | cmd i => exact absurd (encode_of_decode hd ▸ hw) (encode_not_illegalNumber i)
  | illegal r => exact ⟨r, rfl⟩

/-- Settles O6: each word is the encoder's for its command. -/
theorem sampleWordsDecode : Obligations.SampleWordsDecode :=
  ⟨decode_of_encode_eq (by decide), decode_of_encode_eq (by decide), decode_of_encode_eq (by decide),
    decode_of_encode_eq (by decide), decode_of_encode_eq (by decide), decode_of_encode_eq (by decide),
    decode_of_encode_eq (by decide), decode_of_encode_eq (by decide)⟩

/-! ### The opcode map -/

theorem spells_iff (w : Word) (r : OpcodeRow) : spells w r = true ↔ w &&& r.mask = r.bits := by simp [spells]

/-- The word of a command spells the command's row (rule R58). -/
theorem spells_encode (i : Instr) : spells (encode i) (opcodeRow i) = true := by
  cases i with
  | snsInit capacity => exact (Laws.Spelling.snsInit capacity).1
  | snsAdd index reading => exact (Laws.Spelling.snsAdd index reading).1
  | snsGet index => exact (Laws.Spelling.snsGet index).1
  | mtxInit => exact Laws.Spelling.mtxInit.1
  | mtxClear => exact Laws.Spelling.mtxClear.1
  | mtxNext => exact Laws.Spelling.mtxNext.1
  | mtxSense => exact Laws.Spelling.mtxSense.1
  | mtxStrobe => exact Laws.Spelling.mtxStrobe.1

/-- Masking a word with a row's mask, field by field: the fields are the row's wherever the mask holds (rule R58). -/
theorem fields_of_masked {w bits mask : Word} (h : w &&& mask = bits) :
    opField w &&& opField mask = opField bits ∧ idxField w &&& idxField mask = idxField bits ∧
      dataField w &&& dataField mask = dataField bits := by
  rwa [← packFields_fields w, ← packFields_fields mask, ← packFields_fields bits, packFields_and, packFields_inj] at h

/-- A mask of ones masks nothing. -/
theorem eq_of_masked {n : Nat} {x mask bits y : BitVec n} (h : x &&& mask = bits) (hmask : mask = BitVec.allOnes n)
    (hbits : bits = y) : x = y := by
  rw [← hbits, ← h, hmask, BitVec.and_allOnes]

/-- A word that spells a command's row is the word of a command of that row: where the mask holds, its fields are the
row's, and the others are operands (rule R58). -/
theorem exists_encode_of_spells {w : Word} {i : Instr} (h : spells w (opcodeRow i) = true) :
    ∃ j, encode j = w ∧ opcodeRow j = opcodeRow i := by
  rw [spells_iff] at h
  cases i with
  | snsInit capacity =>
    obtain ⟨hop, hidx, -⟩ := fields_of_masked (bits := 0x10000000#32) (mask := 0xFFFF0000#32) h
    exact ⟨.snsInit (dataField w), packFields_eq_of_fields (eq_of_masked hop (by decide) (by decide))
      (eq_of_masked hidx (by decide) (by decide)) rfl, rfl⟩
  | snsAdd index reading =>
    obtain ⟨hop, -, -⟩ := fields_of_masked (bits := 0x20000000#32) (mask := 0xF0000000#32) h
    exact ⟨.snsAdd (idxField w) (dataField w),
      packFields_eq_of_fields (eq_of_masked hop (by decide) (by decide)) rfl rfl, rfl⟩
  | snsGet index =>
    obtain ⟨hop, -, hdata⟩ := fields_of_masked (bits := 0x30000000#32) (mask := 0xF000FFFF#32) h
    exact ⟨.snsGet (idxField w), packFields_eq_of_fields (eq_of_masked hop (by decide) (by decide)) rfl
      (eq_of_masked hdata (by decide) (by decide)), rfl⟩
  | mtxInit => exact ⟨.mtxInit, (eq_of_masked h rfl (by decide)).symm, rfl⟩
  | mtxClear => exact ⟨.mtxClear, (eq_of_masked h rfl (by decide)).symm, rfl⟩
  | mtxNext => exact ⟨.mtxNext, (eq_of_masked h rfl (by decide)).symm, rfl⟩
  | mtxSense => exact ⟨.mtxSense, (eq_of_masked h rfl (by decide)).symm, rfl⟩
  | mtxStrobe => exact ⟨.mtxStrobe, (eq_of_masked h rfl (by decide)).symm, rfl⟩

theorem exists_opcodeRow_of_mem {r : OpcodeRow} (h : r ∈ opcodeRows) : ∃ i, opcodeRow i = r := by
  simp only [opcodeRows, List.mem_cons, List.not_mem_nil, or_false] at h
  rcases h with h | h | h | h | h | h | h | h <;> exact ⟨_, h.symm⟩

/-- A word spells a row exactly if it decodes to a command of that row (rule R58). -/
theorem spells_iff_decode {w : Word} {r : OpcodeRow} (hr : r ∈ opcodeRows) :
    spells w r = true ↔ ∃ i, decode w = .cmd i ∧ opcodeRow i = r := by
  obtain ⟨i, rfl⟩ := exists_opcodeRow_of_mem hr
  simp only [decode_eq_cmd_iff]
  refine ⟨exists_encode_of_spells, ?_⟩
  rintro ⟨j, rfl, hrow⟩
  exact hrow ▸ spells_encode j

/-- Settles O3: a word that matches two rows decodes to a command of each, and it decodes to one command. -/
theorem decodeFollowsOpcodeMap : Obligations.DecodeFollowsOpcodeMap := by
  intro w
  refine ⟨fun r hr => spells_iff_decode hr, fun r hr r' hr' h h' => ?_⟩
  obtain ⟨i, hi, rfl⟩ := (spells_iff_decode hr).mp h
  obtain ⟨j, hj, rfl⟩ := (spells_iff_decode hr').mp h'
  rw [hi, Decoded.cmd.injEq] at hj
  rw [hj]

end Sys2Proof

namespace Sys2Proof.Machine

/-! ### The assembler and the codes -/

theorem whenFits_of_fits {fits : Bool} (h : fits = true) (ws : List Word) : whenFits fits ws = some ws := by
  simp [whenFits, h]

theorem whenFits_of_not_fits {fits : Bool} (h : fits = false) (ws : List Word) : whenFits fits ws = none := by
  simp [whenFits, h]

theorem addFits_iff {index reading : Nat} : addFits index reading = true ↔ index ≤ 4095 ∧ reading ≤ 65535 := by
  simp [addFits]

theorem addFits_eq_false_iff {index reading : Nat} :
    addFits index reading = false ↔ 4095 < index ∨ 65535 < reading := by
  rw [← Bool.not_eq_true, addFits_iff]
  omega

/-- A form of one command whose operands fit gives one word, that of the command (rule R66). -/
theorem assembles_one {line : Option (List Word)} {i : Instr} (h : line = some [encode i]) :
    ∃ w, line = some [w] ∧ decode w = .cmd i := ⟨encode i, h, decode_encode i⟩

/-- Settles O7, form by form; every word of an assembled line is an encoder's word. -/
theorem assembledWordsDecodeToTheLine : Obligations.AssembledWordsDecodeToTheLine := by
  intro b n i r
  refine ⟨fun hn => assembles_one ?_, fun hn => ?_, fun hi hr => ?_, fun h => ?_, fun hi => assembles_one ?_,
    fun hi => ?_, assembles_one rfl, assembles_one rfl, assembles_one rfl, assembles_one rfl, assembles_one rfl,
    fun hn => ?_, fun hn => ?_, ?_⟩
  · exact whenFits_of_fits (decide_eq_true hn) _
  · exact whenFits_of_not_fits (decide_eq_false (by omega)) _
  · have hfits := addFits_iff.mpr ⟨hi, hr⟩
    exact ⟨addWord i r, decode_encode _, whenFits_of_fits hfits _, whenFits_of_fits hfits _⟩
  · have hfits := addFits_eq_false_iff.mpr h
    exact ⟨whenFits_of_not_fits hfits _, whenFits_of_not_fits hfits _⟩
  · exact whenFits_of_fits (decide_eq_true hi) _
  · exact whenFits_of_not_fits (decide_eq_false (by omega)) _
  · exact ⟨BitVec.ofNat 32 n, whenFits_of_fits (decide_eq_true (by omega)) _, by simpa using Nat.mod_eq_of_lt hn⟩
  · exact whenFits_of_not_fits (decide_eq_false (by omega)) _
  · exact ⟨_, _, decode_encode .mtxNext, decode_encode .mtxSense, rfl, rfl⟩

/-- Settles O8: every entry of the three tables is the code's own defining equation. -/
theorem codesFollowTheTables : Obligations.CodesFollowTheTables :=
  ⟨rfl, rfl, rfl, rfl, rfl, rfl, rfl, rfl, rfl, rfl, rfl, rfl, rfl,
    fun _ _ _ _ _ _ => ⟨rfl, rfl, rfl, rfl, rfl, rfl, rfl, rfl, rfl, rfl⟩⟩

/-! ### An illegal word -/

/-- Settles O10. -/
theorem illegalWordAnswersErrIllegal : Obligations.IllegalWordAnswersErrIllegal := by
  intro s w rest r hwf hf hc hd
  rw [step_run hwf hf hc, runWord_of_illegal hd]
  rfl

/-! ### The responses of a run -/

theorem run_succ_cases {k : Nat} {s t : State} (h : Sys2Proof.core.run (k + 1) s = .next t) :
    ∃ u, step s = .next u ∧ Sys2Proof.core.run k u = .next t := by
  cases hs : step s with
  | next u => exact ⟨u, rfl, by rwa [run_succ_of_next k hs] at h⟩
  | fault f => simp [run_succ_of_fault k hs] at h
  | refused r =>
    have hstep : Sys2Proof.core.step s = .refused r := hs
    simp [Host.Core.run, hstep] at h

/-- A command that raises no fault answers once (rules R15, R64). -/
theorem exec_answers_once {i : Instr} {s t : State} (hs : s.fault = none) (h : exec i s = .next t)
    (ht : t.fault = none) : t.responses.length = s.responses.length + 1 := by
  obtain ⟨t', ht', hend⟩ := commandEndsInResponseOrFault i s hs
  obtain rfl := next_inj (ht'.symm.trans h)
  rcases hend with ⟨-, r, hr, -⟩ | ⟨f, hf, -⟩
  · simp [hr]
  · simp [hf] at ht

/-- A step that raises no fault answers each word it takes. -/
theorem step_answers_taken {s t : State} (h : step s = .next t) (ht : t.fault = none) :
    t.responses.length + t.hostCmds.length = s.responses.length + s.hostCmds.length := by
  obtain ⟨-, hf, ⟨-, rfl⟩ | ⟨w, rest, hc, ⟨i, -, hexec⟩ | ⟨r, -, rfl⟩⟩⟩ := step_cases h
  · rfl
  · have hanswer := exec_answers_once (s := { s with hostCmds := rest }) hf hexec ht
    rw [hanswer, exec_hostCmds hexec, hc, List.length_cons]
    dsimp only
    omega
  · simp [answerIllegal, hc]
    omega

/-- A run that raises no fault answers each word it takes, by induction on its steps: a step that goes on starts from a
state with no fault. -/
theorem run_answers_taken {n : Nat} {s t : State} (h : Sys2Proof.core.run n s = .next t) (ht : t.fault = none) :
    s.fault = none ∧ t.responses.length + t.hostCmds.length = s.responses.length + s.hostCmds.length := by
  induction n generalizing s with
  | zero =>
    obtain rfl := next_inj h
    exact ⟨ht, rfl⟩
  | succ n ih =>
    obtain ⟨u, hstep, hrun⟩ := run_succ_cases h
    obtain ⟨hu, hcount⟩ := ih hrun
    obtain ⟨-, hs, -⟩ := step_cases hstep
    exact ⟨hs, hcount.trans (step_answers_taken hstep hu)⟩

/-- Settles O15. -/
theorem successfulRunAnswersEachCommand : Obligations.SuccessfulRunAnswersEachCommand := by
  intro n s t h ⟨hc, hf⟩
  simpa [hc] using (run_answers_taken h hf).2

end Sys2Proof.Machine

/-! PROOFS. What a failing pin operation leaves done of `MTX_NEXT` (43_matrix_scanner.md rules R107, R110 and R111). -/

namespace Sys2Proof.Machine

/-! ### The first failing operation -/

/-- There is one first failing operation, with one error. -/
theorem FirstFailAt.unique {k k' : Nat} {e e' : PinError} {s : State} (h : FirstFailAt k e s)
    (h' : FirstFailAt k' e' s) : k = k' ∧ e = e' := by
  obtain ⟨hbefore, hfail⟩ := h
  obtain ⟨hbefore', hfail'⟩ := h'
  have hle : ¬ k < k' := fun hlt => by simpa [hfail, drawSucceeds] using hbefore' k hlt
  have hge : ¬ k' < k := fun hlt => by simpa [hfail', drawSucceeds] using hbefore k' hlt
  obtain rfl : k = k' := by omega
  rw [hfail, PinDraw.fail.injEq] at hfail'
  exact ⟨rfl, hfail'⟩

/-- Operations among which one fails do not all succeed. -/
theorem FirstFailAt.not_allSucceed {k n : Nat} {e : PinError} {s : State} (h : FirstFailAt k e s) (hk : k < n) :
    ¬ AllSucceed n s := fun hall => by simpa [h.2, drawSucceeds] using hall k hk

/-! ### The drain, operation by operation -/

theorem flatMap_drainRow_length (q : Nat) : ((List.range q).flatMap drainRow).length = 3 * q := by
  simp [drainRow, List.length_flatMap, Nat.mul_comm]

/-- The drain around row `q` (rule R105). -/
theorem drainOps_split {b : Config} {q : Nat} (hq : q < b.rsize) :
    ∃ rest, drainOps b = (List.range q).flatMap drainRow ++ (drainRow q ++ rest) := by
  rw [drainOps, range_split hq, List.flatMap_append, List.flatMap_cons]
  exact ⟨_, rfl⟩

/-- Before the drain's operation `m` of row `q` stand the rows before `q` and the first `m` operations of row `q`. -/
theorem drainOps_take {b : Config} {q m : Nat} (hq : q < b.rsize) (hm : m < 3) :
    (drainOps b).take (3 * q + m) = (List.range q).flatMap drainRow ++ (drainRow q).take m := by
  obtain ⟨rest, hsplit⟩ := drainOps_split hq
  have hrow : m ≤ (drainRow q).length := by simp [drainRow]; omega
  rw [hsplit, ← flatMap_drainRow_length q, List.take_length_add_append, List.take_append_of_le_length hrow]

theorem drainOps_getElem? {b : Config} {q m : Nat} (hq : q < b.rsize) (hm : m < 3) :
    (drainOps b)[3 * q + m]? = (drainRow q)[m]? := by
  obtain ⟨rest, hsplit⟩ := drainOps_split hq
  rw [hsplit, ← flatMap_drainRow_length q, List.getElem?_append_right (by omega), Nat.add_sub_cancel_left,
    List.getElem?_append_left (by simp [drainRow]; omega)]

/-- Whichever operation of a row's drain fails, no column moves and the row's direction is unknown (rule R111). -/
theorem drainRow_fail {q m : Nat} {op : PinOp} (h : (drainRow q)[m]? = some op) (cols : List ColDrive)
    (rows : List RowMode) :
    colsFail (((drainRow q).take m).foldl colsOk cols) op = cols ∧
      rowsFail (((drainRow q).take m).foldl rowsOk rows) op = rows.set q .unknown := by
  match m with
  | 0 => obtain rfl := Option.some.inj h; exact ⟨rfl, rfl⟩
  | 1 => obtain rfl := Option.some.inj h; exact ⟨rfl, by simp [drainRow, rowsOk, rowsFail]⟩
  | 2 => obtain rfl := Option.some.inj h; exact ⟨rfl, by simp [drainRow, rowsOk, rowsFail]⟩
  | m + 3 => simp [drainRow] at h

/-- After a drain that fails in row `q`: no column has moved, the rows before `q` are inputs, row `q` is unknown and the
rows after it are as they were (rules R105, R110, R111). -/
theorem drain_fail {b : Config} {j : Nat} {op : PinOp} (h : (drainOps b)[j]? = some op) (cols : List ColDrive)
    {rows : List RowMode} (hlen : rows.length = b.rsize) :
    colsFail (((drainOps b).take j).foldl colsOk cols) op = cols ∧
      ∀ r, r < b.rsize → (rowsFail (((drainOps b).take j).foldl rowsOk rows) op)[r]? =
        if 3 * r + 2 < j then some .input else if 3 * r ≤ j then some .unknown else rows[r]? := by
  have hj : j < 3 * b.rsize := by simpa using (List.getElem?_eq_some_iff.mp h).1
  obtain ⟨q, m, hq, hm, rfl⟩ : ∃ q m, q < b.rsize ∧ m < 3 ∧ j = 3 * q + m :=
    ⟨j / 3, j % 3, by omega, by omega, by omega⟩
  rw [drainOps_getElem? hq hm] at h
  rw [drainOps_take hq hm, List.foldl_append, List.foldl_append, foldl_drain_cols,
    (drainRow_fail h cols rows).1, (drainRow_fail h cols _).2]
  refine ⟨rfl, fun r hr => ?_⟩
  obtain ⟨hdrained, hget⟩ := foldl_drain_rows q rows
  rw [List.getElem?_set, hget r (by omega), hdrained]
  rcases Nat.lt_trichotomy r q with hlt | rfl | hgt
  · rw [if_neg (by omega), if_pos hlt, if_pos (by omega)]
  · rw [if_pos rfl, if_pos (by omega), if_neg (by omega), if_pos (by omega)]
  · rw [if_neg (by omega), if_neg (by omega), if_neg (by omega), if_neg (by omega)]

/-! ### `MTX_NEXT` with a failing operation -/

theorem nextOps_getElem?_of_lt {b : Config} {cur k : Nat} (h : k < 3 * b.rsize + 1) :
    (nextOps b cur)[k]? = (offOps b cur)[k]? := by
  rw [nextOps_eq, List.getElem?_append_left (by simpa using h)]

theorem nextOps_getElem?_last (b : Config) (cur : Nat) :
    (nextOps b cur)[3 * b.rsize + 1]? = some (.colSet (nextStrobe b cur) .active) := by
  rw [nextOps_eq, ← offOps_length b cur, List.getElem?_concat_length]

theorem nextOps_take_of_le {b : Config} {cur k : Nat} (h : k ≤ 3 * b.rsize + 1) :
    (nextOps b cur).take k = (offOps b cur).take k := by
  rw [nextOps_eq, List.take_append_of_le_length (by simpa using h)]

/-- The last operation of `MTX_NEXT` fails after all those before it succeeded, with the index advanced (rule R107). -/
theorem afterFail_advanced (op : PinOp) (e : PinError) (s : State) :
    afterFail [] op e (advanced s) =
      { afterFail (offOps s.build s.curStrobe) op e s with curStrobe := nextStrobe s.build s.curStrobe } := by
  have hdraws (n free listed : Nat) : free + (n - listed) + (1 - (listed - n)) = free + (n + 1 - listed) := by omega
  simp [afterFail, advanced, afterOps, afterDraws, okTrace, hdraws]

/-- Rule R110 for the last operation of `MTX_NEXT`: the index has advanced. -/
theorem exec_mtxNext_fails_last {s : State} {e : PinError} (hl : s.mtxLive = true)
    (h : FirstFailAt (3 * s.build.rsize + 1) e s) :
    exec .mtxNext s = .next (respond (.errIo .colSet (nextStrobe s.build s.curStrobe) e)
      (afterFail [] (.colSet (nextStrobe s.build s.curStrobe) .active) e (advanced s))) := by
  rcases execMtxNext_cases s with ⟨hdead, -⟩ | ⟨-, ⟨hall, -⟩ | ⟨e', h', hexec⟩ | ⟨k, op, e', hk, -, h', -⟩⟩
  · simp [hl] at hdead
  · exact absurd hall (h.not_allSucceed (by omega))
  · obtain ⟨-, rfl⟩ := h.unique h'
    exact hexec
  · have := (h.unique h').1
    omega

/-- Rule R110 for an operation of `MTX_NEXT` before the last: the index has not advanced. -/
theorem exec_mtxNext_fails_before {s : State} {k : Nat} {op : PinOp} {e : PinError} (hl : s.mtxLive = true)
    (hk : k < 3 * s.build.rsize + 1) (hop : (offOps s.build s.curStrobe)[k]? = some op) (h : FirstFailAt k e s) :
    exec .mtxNext s = .next (respond (.errIo (kindOf op) (pinOf op) e)
      (afterFail ((offOps s.build s.curStrobe).take k) op e s)) := by
  rcases execMtxNext_cases s with ⟨hdead, -⟩ | ⟨-, ⟨hall, -⟩ | ⟨e', h', -⟩ | ⟨k', op', e', -, hop', h', hexec⟩⟩
  · simp [hl] at hdead
  · exact absurd hall (h.not_allSucceed (by omega))
  · have := (h.unique h').1
    omega
  · obtain ⟨rfl, rfl⟩ := h.unique h'
    rw [hop, Option.some.injEq] at hop'
    rwa [hop']

/-- The shadows after the operation `k` of `MTX_NEXT`, one before the last, failed (rule R111). -/
theorem offOps_fail {b : Config} {cur k : Nat} {op : PinOp} (h : (offOps b cur)[k]? = some op) (cols : List ColDrive)
    {rows : List RowMode} (hlen : rows.length = b.rsize) :
    colsFail (((offOps b cur).take k).foldl colsOk cols) op =
        cols.set cur (if k = 0 then .unknown else .inactive) ∧
      ∀ r, r < b.rsize → (rowsFail (((offOps b cur).take k).foldl rowsOk rows) op)[r]? =
        if 3 * r + 3 < k then some .input else if 3 * r + 1 ≤ k then some .unknown else rows[r]? := by
  cases k with
  | zero =>
    obtain rfl := Option.some.inj h
    exact ⟨rfl, fun r _ => rfl⟩
  | succ j =>
    obtain ⟨hcols, hrows⟩ := drain_fail (j := j) (by simpa [offOps] using h) (cols.set cur .inactive) hlen
    refine ⟨hcols, fun r hr => (hrows r hr).trans ?_⟩
    simp only [show 3 * r + 3 < j + 1 ↔ 3 * r + 2 < j by omega, show 3 * r + 1 ≤ j + 1 ↔ 3 * r ≤ j by omega]

/-- Settles O45: either the last operation failed, the new column's, or one before it, the old column's or the drain's. -/
theorem mtxNextFailureKeepsEarlierSteps : Obligations.MtxNextFailureKeepsEarlierSteps := by
  intro s k op e hready hop hfail
  obtain ⟨⟨-, hrows, -⟩, hstrobe⟩ := hready.inv hready.noFault
  have hnext := nextStrobe_eq_mod s.build s.curStrobe (hstrobe hready.live).1
  have hk : k ≤ 3 * s.build.rsize + 1 := by
    have := (List.getElem?_eq_some_iff.mp hop).1
    simp [nextOps_eq] at this
    omega
  have htake := nextOps_take_of_le (cur := s.curStrobe) hk
  have hlen : ((offOps s.build s.curStrobe).take k).length = k := by simpa using hk
  rcases Nat.lt_or_eq_of_le hk with hlt | hlast
  · rw [nextOps_getElem?_of_lt hlt] at hop
    obtain ⟨hcols, hmode⟩ := offOps_fail hop s.colDrive hrows
    refine ⟨s.colDrive.set s.curStrobe (if k = 0 then .unknown else .inactive),
      rowsFail (((offOps s.build s.curStrobe).take k).foldl rowsOk s.rowMode) op, ?_, ?_, hmode⟩
    · rw [exec_mtxNext_fails_before hready.live hlt hop hfail, respond, afterFail, hlen, hcols, htake, if_neg hlt.ne]
      cases op <;> rfl
    · rw [if_neg hlt.ne]
      split <;> rfl
  · subst hlast
    rw [nextOps_getElem?_last, Option.some.injEq] at hop
    subst hop
    have hcols : (offOps s.build s.curStrobe).foldl colsOk s.colDrive = _ := advanced_colDrive s
    have hmode : (offOps s.build s.curStrobe).foldl rowsOk s.rowMode = _ := advanced_rowMode s hrows
    have hall : (offOps s.build s.curStrobe).take (3 * s.build.rsize + 1) = _ := List.take_of_length_le (by simp)
    refine ⟨(s.colDrive.set s.curStrobe .inactive).set (nextStrobe s.build s.curStrobe) .unknown,
      List.replicate s.build.rsize .input, ?_, ?_, fun r hr => ?_⟩
    · rw [exec_mtxNext_fails_last hready.live hfail, afterFail_advanced, respond, afterFail, offOps_length, hcols, hmode,
        htake, hall, if_pos rfl, ← hnext]
      rfl
    · rw [if_neg (Nat.succ_ne_zero _), if_pos rfl, hnext]
    · rw [if_pos (by omega), List.getElem?_replicate, if_pos hr]

end Sys2Proof.Machine

/-! PROOFS. Which operation an `ERR_IO` names (43_matrix_scanner.md rule R110; 30_encoding.md rule R65). -/

namespace Sys2Proof.Machine

/-- The answers are no errors. -/
def NoneFailed (events : List PinEvent) : Prop := ∀ x ∈ events, isErr x.answer = false

theorem noneFailed_okTrace (ops : List PinOp) : NoneFailed (okTrace ops) := by
  simp [NoneFailed, okTrace, isErr]

theorem noneFailed_readTrace (n : Nat) (s : State) : NoneFailed (readTrace n s) := by
  simp [NoneFailed, readTrace, isErr]

theorem NoneFailed.append {before after : List PinEvent} (h : NoneFailed before) (h' : NoneFailed after) :
    NoneFailed (before ++ after) := List.forall_mem_append.mpr ⟨h, h'⟩

/-- A command that has come from `s` to `u` has answered nothing, and none of its pin operations has failed. -/
structure NoFailureUntil (s u : State) : Prop where
  responses : u.responses = s.responses
  trace     : ∃ events, u.pinTrace = s.pinTrace ++ events ∧ NoneFailed events

theorem NoFailureUntil.refl (s : State) : NoFailureUntil s s := ⟨rfl, [], by simp, by simp [NoneFailed]⟩

/-- More operations that succeed. -/
theorem NoFailureUntil.extend {s u v : State} (h : NoFailureUntil s u) {events : List PinEvent}
    (hr : v.responses = u.responses) (ht : v.pinTrace = u.pinTrace ++ events) (hev : NoneFailed events) :
    NoFailureUntil s v := by
  obtain ⟨before, hbefore, hok⟩ := h.trace
  exact ⟨hr.trans h.responses, before ++ events, by rw [ht, hbefore, List.append_assoc], hok.append hev⟩

theorem NoFailureUntil.afterOps {s u : State} (h : NoFailureUntil s u) (ops : List PinOp) :
    NoFailureUntil s (afterOps ops u) := h.extend rfl rfl (noneFailed_okTrace ops)

theorem NoFailureUntil.setStrobe {s u : State} (h : NoFailureUntil s u) (cur : Nat) :
    NoFailureUntil s { u with curStrobe := cur } := ⟨h.responses, h.trace⟩

theorem noFailureUntil_initDone (s : State) : NoFailureUntil s (initDone s) :=
  (NoFailureUntil.refl s).extend rfl rfl (noneFailed_okTrace _)

theorem noFailureUntil_advanced (s : State) : NoFailureUntil s (advanced s) :=
  (NoFailureUntil.refl s).extend rfl rfl (noneFailed_okTrace _)

theorem noFailureUntil_rowsDone (n : Nat) (s : State) : NoFailureUntil s (rowsDone n s) :=
  (NoFailureUntil.refl s).extend rfl rfl (noneFailed_readTrace n s)

/-- What the host learns of the pin operations of the command `c` (rules R110, R129): the `ERR_IO` of a Matrix command names
the last operation, the only one that failed, or none failed and the command answers no `ERR_IO`. -/
inductive FailureReported (c : Instr) (s t : State) : Prop where
  | reported (before : List PinEvent) (op : PinOp) (e : PinError) (matrix : isHall c = false)
      (response : t.responses = s.responses ++ [.errIo (kindOf op) (pinOf op) e])
      (trace : t.pinTrace = s.pinTrace ++ (before ++ [{ op := op, answer := .err e }])) (first : NoneFailed before)
  | noFailure (events : List PinEvent) (response : ∀ kind pin e, t.responses ≠ s.responses ++ [.errIo kind pin e])
      (trace : t.pinTrace = s.pinTrace ++ events) (clean : NoneFailed events)

/-- A command that answers something else than an `ERR_IO`, after operations that succeeded. -/
theorem NoFailureUntil.respond {s u : State} (h : NoFailureUntil s u) (c : Instr) {r : Response}
    (hr : responseCode r ≠ 11) : FailureReported c s (respond r u) := by
  obtain ⟨events, htrace, hok⟩ := h.trace
  refine .noFailure events (fun kind pin e heq => hr ?_) htrace hok
  rw [respond_responses, h.responses, List.append_cancel_left_eq, List.singleton_inj] at heq
  rw [heq, responseCode]

/-- A command that raises a fault, after operations that succeeded. -/
theorem NoFailureUntil.raise {s u : State} (h : NoFailureUntil s u) (c : Instr) (f : Fault) :
    FailureReported c s (raise f u) := by
  obtain ⟨events, htrace, hok⟩ := h.trace
  exact .noFailure events (fun kind pin e => by simp [h.responses]) htrace hok

/-- A Matrix command that ends with an operation that fails, after operations that succeeded. -/
theorem NoFailureUntil.fail {s u v : State} (h : NoFailureUntil s u) {c : Instr} (hc : isHall c = false) (op : PinOp)
    (e : PinError) (hr : v.responses = u.responses)
    (ht : v.pinTrace = u.pinTrace ++ [{ op := op, answer := .err e }]) :
    FailureReported c s (Machine.respond (.errIo (kindOf op) (pinOf op) e) v) := by
  obtain ⟨before, htrace, hok⟩ := h.trace
  exact .reported before op e hc (by rw [respond_responses, hr, h.responses])
    (by rw [respond_pinTrace, ht, htrace, List.append_assoc]) hok

/-- No Hall command answers `ERR_IO` (rules R64, R129). -/
theorem errIo_not_mem_codesOf_hall {c : Instr} (hc : isHall c = true) : 11 ∉ codesOf c := by
  cases c <;> simp [codesOf, isHall] at hc ⊢

/-- A Hall command issues no pin operation, and ends in a response that is no `ERR_IO`, or in a fault. -/
theorem exec_hall_failureReported {c : Instr} (hc : isHall c = true) {s t : State} (h : exec c s = .next t) :
    FailureReported c s t := by
  have htrace : t.pinTrace = s.pinTrace ++ [] := by rw [exec_hall_pinTrace hc h, List.append_nil]
  obtain ⟨t', ht', hend⟩ := exec_ends c s
  obtain rfl := next_inj (ht'.symm.trans h)
  cases hend with
  | response r kept code =>
    exact NoFailureUntil.respond ⟨kept.responses, [], htrace, by simp [NoneFailed]⟩ c
      fun h11 => errIo_not_mem_codesOf_hall hc (h11 ▸ code)
  | fault f kept raised => exact NoFailureUntil.raise ⟨kept.responses, [], htrace, by simp [NoneFailed]⟩ c f

/-- The draw that the row after the first `n` meets (rule R108). -/
theorem currentDraw_rowsDone (n : Nat) (s : State) : currentDraw (rowsDone n s) = drawAt s n := by
  rw [currentDraw_eq_drawAt, drawAt_rowsDone, Nat.add_zero]

theorem exec_failureReported {c : Instr} {s t : State} (h : exec c s = .next t) : FailureReported c s t := by
  have start := NoFailureUntil.refl s
  cases c with
  | snsInit n => exact exec_hall_failureReported rfl h
  | snsAdd index reading => exact exec_hall_failureReported rfl h
  | snsGet index => exact exec_hall_failureReported rfl h
  | mtxInit =>
    rcases execMtxInit_cases s with ⟨-, ht⟩ | ⟨col, e, -, -, ht⟩ <;> obtain rfl := next_inj (ht.symm.trans h)
    · exact (noFailureUntil_initDone s).respond _ (by simp [responseCode])
    · exact (start.afterOps _).fail rfl (.colSet col .inactive) e rfl rfl
  | mtxClear =>
    rcases execMtxClear_cases s with ⟨-, ht⟩ | ⟨-, ⟨-, ht⟩ | ⟨col, e, -, -, ht⟩⟩ <;>
      obtain rfl := next_inj (ht.symm.trans h)
    · exact start.raise _ _
    · exact ((start.afterOps _).setStrobe _).respond _ (by simp [responseCode])
    · exact (start.afterOps _).fail rfl (.colSet col .inactive) e rfl rfl
  | mtxNext =>
    have adv := noFailureUntil_advanced s
    rcases execMtxNext_cases s with ⟨-, ht⟩ | ⟨-, ⟨-, ht⟩ | ⟨e, -, ht⟩ | ⟨k, op, e, -, -, -, ht⟩⟩ <;>
      obtain rfl := next_inj (ht.symm.trans h)
    · exact start.raise _ _
    · exact (adv.afterOps _).respond _ (by simp [responseCode])
    · exact (adv.afterOps []).fail rfl (.colSet _ .active) e rfl rfl
    · exact (start.afterOps _).fail rfl op e rfl rfl
  | mtxSense =>
    rcases execMtxSense_cases s with
        ⟨-, ht⟩ | ⟨-, ⟨-, ht⟩ | ⟨n, e, -, -, hd, ht⟩ | ⟨n, -, -, hd, -, ht⟩⟩ <;>
      obtain rfl := next_inj (ht.symm.trans h)
    · exact start.raise _ _
    · exact (noFailureUntil_rowsDone _ s).respond _ (by simp [responseCode])
    · refine (noFailureUntil_rowsDone n s).fail rfl (.rowRead n) e (pinStep_responses _ _) ?_
      rw [pinStep_pinTrace, currentDraw_rowsDone, hd, answerOf_fail]
    · refine ((noFailureUntil_rowsDone n s).extend (pinStep_responses _ _) (pinStep_pinTrace _ _) ?_).raise _ _
      rw [currentDraw_rowsDone, hd]
      simp [NoneFailed, answerOf, isErr]
  | mtxStrobe =>
    rcases execMtxStrobe_cases s with ⟨-, ht⟩ | ⟨-, ht⟩ <;> obtain rfl := next_inj (ht.symm.trans h)
    · exact start.raise _ _
    · exact start.respond _ (by simp [responseCode])

/-- Settles O51: every command reports its failing operation, which its `ERR_IO` names by kind and pin. -/
theorem errIoReportsFirstFailure : Obligations.ErrIoReportsFirstFailure := by
  intro c s t h
  cases exec_failureReported h with
  | reported before op e matrix response trace first =>
    exact ⟨_, trace, .inl ⟨kindOf op, pinOf op, e, response, matrix, before, op, rfl, by
      cases op <;> exact ⟨rfl, rfl⟩, first⟩⟩
  | noFailure events response trace clean => exact ⟨events, trace, .inr ⟨response, clean⟩⟩

end Sys2Proof.Machine

/-! PROOFS. The calibration status (40_calibration_kinematic.md rules R73 to R76 and R157): the tests one by one, the two
latches, and increasing ramps. -/

namespace Sys2Proof.Machine

/-! ### The tests of `CAL_NEXT` -/

section
variable (b : Config) {cur : CalibrationStatus} {s : Nat}

theorem calNext_of_detected (h : cur = .magnetDetected) : calNext b cur s = calNormal b s := by simp [calNext, h]

theorem calNext_of_not_detected (h : cur ≠ .magnetDetected) : calNext b cur s = calCalibrating b cur s := by
  simp [calNext, h]

theorem calNormal_strong (h : b.mx - 1 ≤ s) : calNormal b s = .magnetTooStrong := by rw [calNormal, if_pos h]

theorem calNormal_weak (h : s < b.mx - 1) (hw : s < b.mmt) : calNormal b s = .magnetTooWeak := by
  rw [calNormal, if_neg h.not_ge, if_pos hw]

theorem calNormal_between (h : s < b.mx - 1) (hw : b.mmt ≤ s) : calNormal b s = .magnetDetected := by
  rw [calNormal, if_neg h.not_ge, if_neg hw.not_gt]

theorem calCalibrating_above (h : b.mxok < s) :
    calCalibrating b cur s = if cur = .magnetTooStrong then .magnetTooStrong else .sensorBroken := by
  rw [calCalibrating, if_pos h]

theorem calCalibrating_missing (h : s ≤ b.mxok) (hn : s < b.ns) : calCalibrating b cur s = .sensorMissing := by
  rw [calCalibrating, if_neg h.not_gt, if_pos hn]

theorem calCalibrating_below (h : s ≤ b.mxok) (hn : b.ns ≤ s) (hm : s < b.mnok) :
    calCalibrating b cur s = if cur = .magnetTooWeak then .magnetTooWeak else .magnetWrongPoleOrMissing := by
  rw [calCalibrating, if_neg h.not_gt, if_neg hn.not_gt, if_pos hm]

theorem calCalibrating_within (h : s ≤ b.mxok) (hn : b.ns ≤ s) (hm : b.mnok ≤ s) :
    calCalibrating b cur s = .magnetDetected := by
  rw [calCalibrating, if_neg h.not_gt, if_neg hn.not_gt, if_neg hm.not_gt]

/-- One of the four tests of rule R74 holds. -/
theorem calibrating_tests (s : Nat) :
    b.mxok < s ∨ (s ≤ b.mxok ∧ s < b.ns) ∨ (s ≤ b.mxok ∧ b.ns ≤ s ∧ s < b.mnok) ∨
      (s ≤ b.mxok ∧ b.ns ≤ s ∧ b.mnok ≤ s) := by
  omega

end

/-- No batch makes a sensor `NotReady` again (rule R75). -/
theorem calNext_ne_notReady (b : Config) (cur : CalibrationStatus) (s : Nat) : calNext b cur s ≠ .notReady := by
  unfold calNext calNormal calCalibrating
  repeat' split
  all_goals simp

/-- Settles O29. -/
theorem calNextTable : Obligations.CalNextTable := by
  intro b cur s hmx
  refine ⟨fun hcur => ?_, fun hcur => ?_, calNext_ne_notReady b cur s, calNext_ne_invalidIndex b cur s⟩
  · rw [calNext_of_detected b hcur]
    exact ⟨fun h => calNormal_strong b (by omega), fun h hw => calNormal_weak b (by omega) hw,
      fun h hw => calNormal_between b (by omega) hw⟩
  · rw [calNext_of_not_detected b hcur]
    exact ⟨calCalibrating_above b, calCalibrating_missing b, calCalibrating_below b, calCalibrating_within b⟩

/-- Settles O30: of the four tests, only the first can give `MagnetTooStrong`, and only the third `MagnetTooWeak`. -/
theorem latchesAreExact : Obligations.LatchesAreExact := by
  intro b cur s hcur
  rw [calNext_of_not_detected b hcur]
  rcases calibrating_tests b s with h | ⟨h, hn⟩ | ⟨h, hn, hm⟩ | ⟨h, hn, hm⟩
  · rw [calCalibrating_above b h]
    split <;> simp_all
  · rw [calCalibrating_missing b h hn]
    simp [h, hn]
  · rw [calCalibrating_below b h hn hm]
    split <;> simp_all
  · rw [calCalibrating_within b h hn hm]
    simp [h, hm]

/-! ### Increasing ramps -/

/-- The statuses in which neither latch holds and Calibration Mode applies: from them the sample alone decides. -/
def Unlatched (cur : CalibrationStatus) : Prop :=
  cur ≠ .magnetDetected ∧ cur ≠ .magnetTooStrong ∧ cur ≠ .magnetTooWeak

/-- Above `MXOK`, a status other than `MagnetDetected` that the sample keeps is kept by the whole ramp. -/
theorem statuses_above {b : Config} {cur : CalibrationStatus} {ramp : List Nat}
    (hkeep : ∀ x, b.mxok < x → calNext b cur x = cur) (habove : ∀ x ∈ ramp, b.mxok < x) :
    statuses b cur ramp = List.replicate ramp.length cur := by
  induction ramp with
  | nil => rfl
  | cons x rest ih =>
    simp only [List.forall_mem_cons] at habove
    obtain ⟨hx, hrest⟩ := habove
    rw [statuses, hkeep x hx, ih hrest, List.length_cons, List.replicate_succ]

theorem calNext_tooStrong_above (b : Config) (x : Nat) (h : b.mxok < x) :
    calNext b .magnetTooStrong x = .magnetTooStrong := by
  rw [calNext_of_not_detected b (by decide), calCalibrating_above b h, if_pos rfl]

theorem calNext_sensorBroken_above (b : Config) (x : Nat) (h : b.mxok < x) :
    calNext b .sensorBroken x = .sensorBroken := by
  rw [calNext_of_not_detected b (by decide), calCalibrating_above b h, if_neg (by decide)]

/-- The number of samples that are at least `MX − 1`. -/
def strongCount (b : Config) (ramp : List Nat) : Nat := (ramp.filter (b.mx - 1 ≤ ·)).length

theorem strongCount_cons_of_lt {b : Config} {x : Nat} (rest : List Nat) (h : x < b.mx - 1) :
    strongCount b (x :: rest) = strongCount b rest := by
  rw [strongCount, List.filter_cons_of_neg (by simpa using (by omega : x + 1 < b.mx)), ← strongCount]

theorem strongCount_of_all {b : Config} {ramp : List Nat} (h : ∀ x ∈ ramp, b.mx - 1 ≤ x) :
    strongCount b ramp = ramp.length := by
  rw [strongCount, List.filter_eq_self.mpr (by simpa using h)]

/-- From `MagnetDetected`, a ramp above `MMT` stays there until a sample reaches `MX − 1`, and is `MagnetTooStrong` from
then on (rules R73, R76). -/
theorem statuses_detected {b : Config} (hord : OrderedThresholds b) {ramp : List Nat} (hinc : ramp.Pairwise (· < ·))
    (hmmt : ∀ x ∈ ramp, b.mmt ≤ x) :
    ∃ md, statuses b .magnetDetected ramp =
      List.replicate md .magnetDetected ++ List.replicate (strongCount b ramp) .magnetTooStrong := by
  obtain ⟨-, -, hmx, -⟩ := hord
  induction ramp with
  | nil => exact ⟨0, rfl⟩
  | cons x rest ih =>
    obtain ⟨hx, hrest⟩ := List.pairwise_cons.mp hinc
    obtain ⟨hxm, hrestm⟩ := List.forall_mem_cons.mp hmmt
    rw [statuses, calNext_of_detected b rfl]
    rcases Nat.lt_or_ge x (b.mx - 1) with hlt | hge
    · obtain ⟨md, hmd⟩ := ih hrest hrestm
      refine ⟨md + 1, ?_⟩
      rw [calNormal_between b hlt hxm, hmd, strongCount_cons_of_lt rest hlt]
      rfl
    · have hall : ∀ y ∈ x :: rest, b.mx - 1 ≤ y :=
        List.forall_mem_cons.mpr ⟨hge, fun y hy => hge.trans (hx y hy).le⟩
      have habove : ∀ y ∈ rest, b.mxok < y := fun y hy => by
        have := hall y (List.mem_cons_of_mem x hy)
        omega
      refine ⟨0, ?_⟩
      rw [calNormal_strong b hge, statuses_above (calNext_tooStrong_above b) habove, strongCount_of_all hall]
      rfl

/-- So many statuses of each kind, in the order of rule R157. -/
def rampStatuses (sm wp md ts sb : Nat) : List CalibrationStatus :=
  List.replicate sm CalibrationStatus.sensorMissing ++ List.replicate wp CalibrationStatus.magnetWrongPoleOrMissing ++
    List.replicate md CalibrationStatus.magnetDetected ++ List.replicate ts CalibrationStatus.magnetTooStrong ++
    List.replicate sb CalibrationStatus.sensorBroken

theorem rampStatuses_cons_missing (sm wp md ts sb : Nat) :
    .sensorMissing :: rampStatuses sm wp md ts sb = rampStatuses (sm + 1) wp md ts sb := rfl

theorem rampStatuses_cons_wrongPole (wp md ts sb : Nat) :
    .magnetWrongPoleOrMissing :: rampStatuses 0 wp md ts sb = rampStatuses 0 (wp + 1) md ts sb := rfl

/-- Rule R157's pattern `SM* WP* (MD+ TS* | SB*)` with the numbers of each status, for a ramp that need not start below
`NS`. -/
structure RampPattern (b : Config) (ramp : List Nat) (found : List CalibrationStatus) (sm wp md ts sb : Nat) : Prop where
  strongAfterDetected : md = 0 → ts = 0
  oneEnd   : md ≠ 0 → sb = 0
  broken   : sb ≠ 0 → ∀ x ∈ ramp, x < b.mnok ∨ b.mxok < x
  strong   : md ≠ 0 → ts = strongCount b ramp
  missing  : (∀ x ∈ ramp, b.ns ≤ x) → sm = 0
  statuses : found = rampStatuses sm wp md ts sb

/-- A sample below `MNOK` before the ramp keeps what the pattern says of the samples `≥ MX − 1` and of `[MNOK, MXOK]`. -/
theorem RampPattern.cons_below {b : Config} (hord : OrderedThresholds b) {x : Nat} (hx : x < b.mnok) {rest : List Nat}
    {found found' : List CalibrationStatus} {sm sm' wp wp' md ts sb : Nat} (h : RampPattern b rest found sm wp md ts sb)
    (missing : (∀ y ∈ x :: rest, b.ns ≤ y) → sm' = 0)
    (hfound : found' = rampStatuses sm' wp' md ts sb) :
    RampPattern b (x :: rest) found' sm' wp' md ts sb := by
  obtain ⟨-, hok, hmx, -⟩ := hord
  refine ⟨h.strongAfterDetected, h.oneEnd, fun hsb => ?_, fun hmd => ?_, missing, hfound⟩
  · exact List.forall_mem_cons.mpr ⟨.inl hx, h.broken hsb⟩
  · rw [strongCount_cons_of_lt rest (by omega)]
    exact h.strong hmd

/-- Rule R157 from any status in which the sample alone decides, by the test that the first sample meets. -/
theorem rampPattern_of_unlatched {b : Config} (hord : OrderedThresholds b) {ramp : List Nat}
    (hinc : ramp.Pairwise (· < ·)) {cur : CalibrationStatus} (hcur : Unlatched cur) :
    ∃ sm wp md ts sb, RampPattern b ramp (statuses b cur ramp) sm wp md ts sb := by
  induction ramp generalizing cur with
  | nil => exact ⟨0, 0, 0, 0, 0, by simp, by simp, by simp, by simp, by simp, rfl⟩
  | cons x rest ih =>
    have ⟨hns, hok, hmx, hmmt⟩ := hord
    obtain ⟨hx, hrest⟩ := List.pairwise_cons.mp hinc
    obtain ⟨hmd, hts, htw⟩ := hcur
    rw [statuses, calNext_of_not_detected b hmd]
    rcases calibrating_tests b x with h | ⟨h, hn⟩ | ⟨h, hn, hm⟩ | ⟨h, hn, hm⟩
    · have habove : ∀ y ∈ rest, b.mxok < y := fun y hy => h.trans (hx y hy)
      rw [calCalibrating_above b h, if_neg hts, statuses_above (calNext_sensorBroken_above b) habove]
      exact ⟨0, 0, 0, 0, rest.length + 1, by simp, by simp,
        fun _ => List.forall_mem_cons.mpr ⟨.inr h, fun y hy => .inr (habove y hy)⟩, by simp, by simp, rfl⟩
    · obtain ⟨sm, wp, md, ts, sb, hp⟩ := ih hrest (cur := .sensorMissing) (by simp [Unlatched])
      refine ⟨sm + 1, wp, md, ts, sb, hp.cons_below hord (by omega) (fun hall => ?_) ?_⟩
      · exact absurd (hall x List.mem_cons_self) (by omega)
      · rw [calCalibrating_missing b h hn, hp.statuses, rampStatuses_cons_missing]
    · obtain ⟨sm, wp, md, ts, sb, hp⟩ := ih hrest (cur := .magnetWrongPoleOrMissing) (by simp [Unlatched])
      have hsm : sm = 0 := hp.missing fun y hy => by
        have := hx y hy
        omega
      refine ⟨0, wp + 1, md, ts, sb, hp.cons_below hord hm (fun _ => rfl) ?_⟩
      rw [calCalibrating_below b h hn hm, if_neg htw, hp.statuses, hsm, rampStatuses_cons_wrongPole]
    · have hrestm : ∀ y ∈ rest, b.mmt ≤ y := fun y hy => by
        have := hx y hy
        omega
      obtain ⟨md, hst⟩ := statuses_detected hord hrest hrestm
      refine ⟨0, 0, md + 1, strongCount b rest, 0, by simp, by simp, by simp, fun _ => ?_, by simp, ?_⟩
      · rw [strongCount_cons_of_lt rest (by omega)]
      · rw [calCalibrating_within b h hn hm, hst]
        simp [rampStatuses, List.replicate_succ]

/-- Settles O31: in `NotReady` the sample alone decides. -/
theorem increasingRampPattern : Obligations.IncreasingRampPattern := by
  intro b ramp hord hinc
  obtain ⟨sm, wp, md, ts, sb, h⟩ := rampPattern_of_unlatched hord hinc (cur := .notReady) (by simp [Unlatched])
  exact ⟨sm, wp, md, ts, sb, h.strongAfterDetected, h.oneEnd, h.broken, h.strong, h.statuses⟩

end Sys2Proof.Machine

/-! PROOFS. The analyzer (40_calibration_kinematic.md rules R79 to R86 and R88): its exact values, the span of the table, and
the bound under which no value overflows. -/

namespace Sys2Proof.Machine

/-! ### The arithmetic of the analyzer -/

/-- Rule R81 truncates toward zero, so it halves the magnitude. -/
theorem natAbs_truncDiv_two (v : Int) : (truncDiv v 2).natAbs = v.natAbs / 2 := Int.natAbs_tdiv v 2

/-- Halving a number keeps it in its storage. -/
theorem inDist_truncDiv_two {v : Int} (h : InDist v) : InDist (truncDiv v 2) := by
  have := natAbs_truncDiv_two v
  obtain ⟨hlow, hhigh⟩ := h
  constructor <;> omega

theorem firstOverflow_cons_of_fits (field : KinField) {v : Int} (rest : List (KinField × Int)) (h : InDist v) :
    firstOverflow ((field, v) :: rest) = firstOverflow rest := by
  simp [firstOverflow, (fitsDist_iff v).mpr h]

theorem firstOverflow_cons_of_not_fits (field : KinField) {v : Int} (rest : List (KinField × Int)) (h : ¬ InDist v) :
    firstOverflow ((field, v) :: rest) = some field := by
  simp [firstOverflow, mt (fitsDist_iff v).mp h]

/-- Where every value fits, the analysis holds the values of rules R79 to R82 exactly. -/
theorem kinAnalysis_toInt (s : Raw) {dist : Int} {p : SenseAnalysis} (h : firstOverflow (kinValues dist p) = none) :
    (kinAnalysis s dist p).distance.toInt = dist ∧
      (kinAnalysis s dist p).velocity.toInt = dist - p.distance.toInt ∧
      (kinAnalysis s dist p).acceleration.toInt = truncDiv (dist - p.distance.toInt - p.velocity.toInt) 2 ∧
      (kinAnalysis s dist p).jerk.toInt =
        truncDiv (dist - p.distance.toInt - p.velocity.toInt) 2 - p.acceleration.toInt := by
  simp only [firstOverflow_eq_none_iff, kinValues, List.forall_mem_cons] at h
  obtain ⟨hdist, hvel, -, hacc, hjrk, -⟩ := h
  exact ⟨toDist_toInt hdist, toDist_toInt hvel, toDist_toInt hacc, toDist_toInt hjrk⟩

/-! ### The span of the table -/

/-- Rule R11 item 3: the table never falls. -/
theorem lin_mono {b : Config} (hb : WellFormedBuild b) {x y : Nat} (hxy : x ≤ y) (hy : y < tableSize b.lin) :
    lin b x ≤ lin b y := by
  rcases Nat.lt_or_eq_of_le hxy with hlt | rfl
  · exact hb.table_rising x y _ _ hlt (linEntry_eq_lin b x (by omega)) (linEntry_eq_lin b y hy)
  · exact le_rfl

/-- A distance from a minimum at most the sample is between 0 and `SPAN` (rules R86, R88). -/
theorem distance_bounds {b : Config} (hb : WellFormedBuild b) {mn s : Nat} (h : mn ≤ s) (hs : s < tableSize b.lin) :
    0 ≤ lin b s - lin b mn ∧ lin b s - lin b mn ≤ span b := by
  have hfirst := lin_mono hb (Nat.zero_le mn) (by omega)
  have hmid := lin_mono hb h hs
  have hlast := lin_mono hb (Nat.le_sub_one_of_lt hs) (by omega)
  unfold span
  constructor <;> omega

theorem span_nonneg {b : Config} (hb : WellFormedBuild b) : 0 ≤ span b := by
  have hpos := hb.table_pos
  have hbounds := distance_bounds hb (le_refl 0) (by omega)
  omega

/-- Rule R88, one batch: from a bounded analysis, a distance between 0 and `SPAN` overflows in no value. -/
theorem firstOverflow_of_bounded {b : Config} (hspan : 2 * span b ≤ 2 ^ 31 - 1) {dist : Int} (hlow : 0 ≤ dist)
    (hhigh : dist ≤ span b) {p : SenseAnalysis} (hp : KinBounded b p) : firstOverflow (kinValues dist p) = none := by
  obtain ⟨hd0, hd1, hv0, hv1, ha0, ha1, -, -⟩ := hp
  have hacc := natAbs_truncDiv_two (dist - p.distance.toInt - p.velocity.toInt)
  simp only [firstOverflow_eq_none_iff, kinValues, List.forall_mem_cons, InDist]
  refine ⟨?_, ?_, ?_, ?_, ?_, by simp⟩ <;> omega

/-- Rule R88, one batch: the new analysis is bounded again. -/
theorem kinBounded_kinAnalysis {b : Config} (hspan : 2 * span b ≤ 2 ^ 31 - 1) (s : Raw) {dist : Int} (hlow : 0 ≤ dist)
    (hhigh : dist ≤ span b) {p : SenseAnalysis} (hp : KinBounded b p) : KinBounded b (kinAnalysis s dist p) := by
  obtain ⟨edist, evel, eacc, ejrk⟩ := kinAnalysis_toInt s (firstOverflow_of_bounded hspan hlow hhigh hp)
  have hacc := natAbs_truncDiv_two (dist - p.distance.toInt - p.velocity.toInt)
  obtain ⟨hd0, hd1, hv0, hv1, ha0, ha1, -, -⟩ := hp
  simp only [KinBounded, edist, evel, eacc, ejrk]
  omega

/-- The analysis that a batch without `MagnetDetected` leaves is bounded (rule R77). -/
theorem kinBounded_of_kinZero {b : Config} (hb : WellFormedBuild b) {a : SenseAnalysis} (h : KinZero a) :
    KinBounded b a := by
  obtain ⟨hd, hv, ha, hj⟩ := h
  have hspan := span_nonneg hb
  have hzero : (0 : Dist).toInt = 0 := rfl
  simp only [KinBounded, hd, hv, ha, hj, hzero]
  omega

/-! ### The analyzer on a batch -/

/-- Step 2 leaves a minimum at most the sample, so the table is left only by the sample (rule R83). -/
theorem analyze_batch_cases (b : Config) (s : Raw) (t : SenseStats) (p : SenseAnalysis) :
    (tableSize b.lin ≤ s.toNat ∧ analyze b s (statsWithSample s t).min p = .faulted (.tableRange s.toNat)) ∨
      (s.toNat < tableSize b.lin ∧
        ((∃ field, firstOverflow (kinValues (lin b s.toNat - lin b (min t.min.toNat s.toNat)) p) = some field ∧
            analyze b s (statsWithSample s t).min p = .faulted (.overflow field)) ∨
          (firstOverflow (kinValues (lin b s.toNat - lin b (min t.min.toNat s.toNat)) p) = none ∧
            analyze b s (statsWithSample s t).min p =
              .ok (kinAnalysis s (lin b s.toNat - lin b (min t.min.toNat s.toNat)) p)))) := by
  rw [← statsWithSample_min]
  have hmin := statsWithSample_min s t
  rcases analyze_cases b s (statsWithSample s t).min p with ⟨x, hx, ha, rfl | ⟨hs, rfl⟩⟩ | ⟨hs, -, h⟩
  · exact .inl ⟨hx, ha⟩
  · omega
  · exact .inr ⟨hs, h⟩

/-! ### The span bound excludes an overflow -/

/-- Every record's analysis is within rule R88's bounds, whether or not a fault is raised. -/
def KinOk (s : State) : Prop := ∀ i, i < s.snsCap → KinBounded s.build (readRec s i).analysis

theorem kinInv_iff (s : State) : KinInv s ↔ (s.fault = none → KinOk s) := Iff.rfl

/-- No fault raised is an `F_OVERFLOW`. -/
def NoOverflow (s : State) : Prop := ∀ field, s.fault ≠ some (.overflow field)

theorem KinOk.congr {s t : State} (h : KinOk s) (same : SameHall s t) : KinOk t := by
  obtain ⟨hbuild, -, hcap, hrecs⟩ := same
  simpa [KinOk, readRec, hbuild, hcap, hrecs] using h

theorem KinOk.writeRec {s : State} (h : KinOk s) {i : Nat} (hi : i < s.recs.length) {d : SenseData}
    (hd : KinBounded s.build d.analysis) : KinOk (writeRec i d s) := by
  intro j (hj : j < s.snsCap)
  by_cases hji : j = i
  · subst hji
    rwa [readRec_writeRec_self j d s hi]
  · rw [readRec_writeRec_other i j d s hji]
    exact h j hj

/-- What every step keeps under rule R88's bound on the table. -/
structure SpanOk (s : State) : Prop where
  fits : 2 * span s.build ≤ 2 ^ 31 - 1
  hall : HallOk s
  kin  : KinOk s
  calm : NoOverflow s

/-- A command other than `SNS_ADD` raises no `F_OVERFLOW` (rule R131). -/
theorem exec_noOverflow {c : Instr} (hc : ∀ i r, c ≠ .snsAdd i r) {s t : State} (hs : NoOverflow s)
    (h : exec c s = .next t) : NoOverflow t := by
  obtain ⟨t', ht', hend⟩ := exec_ends c s
  obtain rfl := next_inj (ht'.symm.trans h)
  cases hend with
  | response r kept code =>
    intro field
    rw [respond_fault, kept.fault]
    exact hs field
  | fault f kept raised =>
    rintro field hf
    obtain rfl : f = .overflow field := Option.some.inj hf
    cases c with
    | snsAdd i r => exact hc i r rfl
    | _ => simp [mayRaise, senseMayRaise] at raised

/-- Under the span bound a batch overflows in no value, and its analysis is bounded again (rule R88). -/
theorem analysisOf_bounded {s : State} (hb : WellFormedBuild s.build) (h : SpanOk s) {i : Nat} (hi : i < s.snsCap)
    (r : Raw) :
    (∃ x, analysisOf s i r = .faulted (.tableRange x)) ∨
      ∃ a, analysisOf s i r = .ok a ∧ KinBounded s.build a := by
  have hrec := h.kin i hi
  rcases analyze_batch_cases s.build (averageOf s i r) (readRec s i).stats (readRec s i).analysis with
    ⟨-, ha⟩ | ⟨hs, hcases⟩
  · exact .inl ⟨_, ha⟩
  · obtain ⟨hlow, hhigh⟩ := distance_bounds hb (Nat.min_le_right (readRec s i).stats.min.toNat _) hs
    rcases hcases with ⟨field, hf, -⟩ | ⟨-, ha⟩
    · simp [firstOverflow_of_bounded h.fits hlow hhigh hrec] at hf
    · exact .inr ⟨_, ha, kinBounded_kinAnalysis h.fits _ hlow hhigh hrec⟩

theorem addReading_keeps_kin {s : State} (hb : WellFormedBuild s.build) (h : SpanOk s) {i : Nat} (hi : i < s.snsCap)
    (r : Raw) : KinOk (addReading i r s) ∧ NoOverflow (addReading i r s) := by
  have hlen := h.hall.inBounds hi
  have hrec : KinBounded s.build (readRec s i).analysis := h.kin i hi
  rcases addReading_cases i r s hlen with
    ⟨-, ht⟩ | ⟨-, ⟨-, ht⟩ | ⟨-, ⟨-, ht⟩ | ⟨-, ⟨f, hf, ht⟩ | ⟨a, ha, ht⟩⟩⟩⟩ <;> rw [ht]
  · exact ⟨h.kin.writeRec hlen hrec, h.calm⟩
  · exact ⟨h.kin.writeRec hlen hrec, fun field => by simp⟩
  · exact ⟨h.kin.writeRec hlen (kinBounded_of_kinZero hb ⟨rfl, rfl, rfl, rfl⟩), h.calm⟩
  · refine ⟨h.kin.writeRec hlen hrec, fun field => ?_⟩
    rcases analysisOf_bounded hb h hi r with ⟨x, hx⟩ | ⟨a, ha, -⟩
    · obtain rfl : f = .tableRange x := by simpa [hx] using hf.symm
      simp
    · simp [ha] at hf
  · refine ⟨h.kin.writeRec hlen ?_, h.calm⟩
    rcases analysisOf_bounded hb h hi r with ⟨x, hx⟩ | ⟨a', ha', hbound⟩
    · simp [hx] at ha
    · obtain rfl : a' = a := by simpa [ha'] using ha
      exact hbound

theorem exec_keeps_kinOk {c : Instr} {s t : State} (hb : WellFormedBuild s.build) (h : SpanOk s)
    (hexec : exec c s = .next t) : KinOk t ∧ NoOverflow t := by
  cases c with
  | snsInit n =>
    refine ⟨?_, exec_noOverflow (by simp) h.calm hexec⟩
    rcases execSnsInit_cases n s with ⟨-, ht⟩ | ⟨-, ht⟩ <;> obtain rfl := next_inj (ht.symm.trans hexec)
    · exact fun j hj => absurd hj (Nat.not_lt_zero j)
    · intro j (hj : j < n.toNat)
      have hzero : KinBounded s.build defaultRecord.analysis := kinBounded_of_kinZero hb ⟨rfl, rfl, rfl, rfl⟩
      simpa [readRec, List.getD_eq_getElem?_getD, List.getElem?_replicate, hj] using hzero
  | snsAdd index reading =>
    rcases execSnsAdd_cases index reading s with ⟨-, ht⟩ | ⟨-, -, ht⟩ | ⟨-, hi, ht⟩ <;>
      obtain rfl := next_inj (ht.symm.trans hexec)
    · exact ⟨h.kin, fun field => by simp⟩
    · exact ⟨h.kin, h.calm⟩
    · exact addReading_keeps_kin hb h hi reading
  | snsGet index =>
    refine ⟨?_, exec_noOverflow (by simp) h.calm hexec⟩
    rcases execSnsGet_cases index s with ⟨-, ht⟩ | ⟨-, -, ht⟩ | ⟨-, -, ⟨-, ht⟩ | ⟨-, ht⟩⟩ <;>
      obtain rfl := next_inj (ht.symm.trans hexec) <;> exact h.kin
  | mtxInit | mtxClear | mtxNext | mtxSense | mtxStrobe =>
    exact ⟨h.kin.congr (exec_matrix_sameHall rfl hexec), exec_noOverflow (by simp) h.calm hexec⟩

theorem exec_keeps_spanOk {c : Instr} {s t : State} (hb : WellFormedBuild s.build) (h : SpanOk s)
    (hexec : exec c s = .next t) : SpanOk t := by
  obtain ⟨kin, calm⟩ := exec_keeps_kinOk hb h hexec
  exact ⟨exec_build hexec ▸ h.fits, exec_keeps_hallOk hb h.hall hexec, kin, calm⟩

/-- Settles O35: `SpanOk` holds before the step and every command keeps it. -/
theorem spanBoundExcludesOverflow : Obligations.SpanBoundExcludesOverflow := by
  intro s t hspan hhall hkin hstep
  have start : s.fault = none → SpanOk s := fun hf =>
    ⟨hspan, (hallInv_iff s).mp hhall hf, (kinInv_iff s).mp hkin hf, fun field => by simp [hf]⟩
  have ht : SpanOk t := step_keeps SpanOk start (fun _ h => ⟨h.fits, h.hall, h.kin, h.calm⟩)
    (fun _ h => ⟨h.fits, h.hall, h.kin, h.calm⟩) (fun _ _ _ hb h hexec => exec_keeps_spanOk hb h hexec) hstep
  exact ⟨(kinInv_iff t).mpr fun _ => ht.kin, ht.calm⟩

end Sys2Proof.Machine

/-! PROOFS. The outcomes of a completed batch (40_calibration_kinematic.md rules R70 to R72 and R77 to R87): the faults, the
unusable batch, the usable one, and the counter of completed batches. -/

namespace Sys2Proof.Machine

/-! ### A batch completes -/

theorem BatchCompletes.hallOk {s : State} {i : Nat} (h : BatchCompletes s i) : HallOk s :=
  (hallInv_iff s).mp h.inv h.noFault

theorem BatchCompletes.recOk {s : State} {i : Nat} (h : BatchCompletes s i) : RecOk s.build (readRec s i) :=
  h.hallOk.2 i h.bounds

/-- The averaged sample is kept exactly by its storage (rules R92, R94). -/
theorem BatchCompletes.averageOf_toNat {s : State} {i : Nat} (h : BatchCompletes s i) (r : Raw) :
    (averageOf s i r).toNat = batchAverage s i r := by
  obtain ⟨-, -, -, hsum⟩ := h.recOk
  rw [averageOf, BitVec.toNat_ofNat]
  exact Nat.mod_eq_of_lt (average_lt r h.complete hsum)

/-- Everything `SNS_ADD` can do with the reading that completes a batch (rules R70, R98). -/
theorem BatchCompletes.exec_cases {s : State} {i : Index} (h : BatchCompletes s i.toNat) (r : Raw) :
    ((readRec s i.toNat).stats.samples.toNat = samplesMax ∧
        exec (.snsAdd i r) s =
          .next (raise (.counterOverflow (.sensor i.toNat)) (writeRec i.toNat (emptied (readRec s i.toNat)) s))) ∨
      ((readRec s i.toNat).stats.samples.toNat ≠ samplesMax ∧
        ((batchStatus s i.toNat r ≠ .magnetDetected ∧
            exec (.snsAdd i r) s = .next (respond
              (.errCalibration (unusableRecord s.build (averageOf s i.toNat r) (emptied (readRec s i.toNat))))
              (writeRec i.toNat (unusableRecord s.build (averageOf s i.toNat r) (emptied (readRec s i.toNat))) s))) ∨
          (batchStatus s i.toNat r = .magnetDetected ∧
            ((∃ f, analysisOf s i.toNat r = .faulted f ∧
                exec (.snsAdd i r) s =
                  .next (raise f (writeRec i.toNat (emptied (readRec s i.toNat)) s))) ∨
              (∃ a, analysisOf s i.toNat r = .ok a ∧
                exec (.snsAdd i r) s = .next (respond (.okAnalysis a) (writeRec i.toNat
                  (usableRecord (averageOf s i.toNat r) a (emptied (readRec s i.toNat))) s))))))) := by
  have hexec : exec (.snsAdd i r) s = .next (addReading i.toNat r s) := by
    rcases execSnsAdd_cases i r s with ⟨hl, -⟩ | ⟨-, hb, -⟩ | ⟨-, -, ht⟩
    · simp [h.live] at hl
    · exact absurd h.bounds (by omega)
    · exact ht
  rw [hexec, batchStatus, ← h.averageOf_toNat r]
  rcases addReading_cases i.toNat r s (h.hallOk.inBounds h.bounds) with ⟨hc, -⟩ | ⟨-, hcases⟩
  · exact absurd h.complete hc
  · rcases hcases with ⟨hn, ht⟩ | ⟨hn, ⟨hcal, ht⟩ | ⟨hcal, ⟨f, hf, ht⟩ | ⟨a, ha, ht⟩⟩⟩ <;> rw [ht]
    · exact .inl ⟨hn, rfl⟩
    · exact .inr ⟨hn, .inl ⟨hcal, rfl⟩⟩
    · exact .inr ⟨hn, .inr ⟨hcal, .inl ⟨f, hf, rfl⟩⟩⟩
    · exact .inr ⟨hn, .inr ⟨hcal, .inr ⟨a, ha, rfl⟩⟩⟩

/-- The counter after one more batch (rule R72). -/
theorem samples_succ {n : Samples} (h : n.toNat ≠ samplesMax) : (BitVec.ofNat 32 (n.toNat + 1)).toNat = n.toNat + 1 := by
  have hlt := n.isLt
  have hmax : samplesMax = 4294967295 := rfl
  rw [BitVec.toNat_ofNat, Nat.mod_eq_of_lt (by omega)]

/-- Settles O24. -/
theorem unusableBatchResetsAndReports : Obligations.UnusableBatchResetsAndReports := by
  intro i r s h hn hcal
  rcases h.exec_cases r with ⟨hmax, -⟩ | ⟨-, ⟨-, ht⟩ | ⟨hcal', -⟩⟩
  · exact absurd hmax hn
  · refine ⟨_, ht, ?_, rfl, rfl, rfl, rfl, samples_succ hn, h.averageOf_toNat r, rfl, rfl, rfl, rfl⟩
    rw [batchStatus, ← h.averageOf_toNat r]
    rfl
  · exact absurd hcal' hcal

/-! ### The analysis of a batch -/

/-- The five values of a batch in the order of rule R84. -/
def batchValues (s : State) (i : Nat) (r : Raw) : List (KinField × Int) :=
  [(.distance, batchDistance s i r), (.velocity, batchVelocity s i r), (.velocityDiff, batchVelocityDiff s i r),
    (.acceleration, batchAcceleration s i r), (.jerk, batchJerk s i r)]

theorem kinValues_batchDistance (s : State) (i : Nat) (r : Raw) :
    kinValues (batchDistance s i r) (readRec s i).analysis = batchValues s i r := rfl

/-- Step 5 of a batch: the sample past the table, the first value that does not fit, or the new analysis
(rules R83 to R85). -/
theorem BatchCompletes.analysisOf_cases {s : State} {i : Nat} (h : BatchCompletes s i) (r : Raw) :
    (tableSize s.build.lin ≤ batchAverage s i r ∧
        analysisOf s i r = .faulted (.tableRange (batchAverage s i r))) ∨
      (batchAverage s i r < tableSize s.build.lin ∧
        ((∃ field, firstOverflow (batchValues s i r) = some field ∧ analysisOf s i r = .faulted (.overflow field)) ∨
          (firstOverflow (batchValues s i r) = none ∧ analysisOf s i r =
            .ok (kinAnalysis (averageOf s i r) (batchDistance s i r) (readRec s i).analysis)))) := by
  rw [← kinValues_batchDistance, batchDistance, batchMin, ← h.averageOf_toNat r]
  exact analyze_batch_cases s.build (averageOf s i r) (readRec s i).stats (readRec s i).analysis

/-! ### The faults of a batch -/

/-- A fault of step 5 ends a usable batch with no response (rules R78, R133). -/
theorem BatchCompletes.addFaults {s : State} {i : Index} (h : BatchCompletes s i.toNat) {r : Raw} {f : Fault}
    (hn : (readRec s i.toNat).stats.samples.toNat ≠ samplesMax) (hcal : batchStatus s i.toNat r = .magnetDetected)
    (hf : analysisOf s i.toNat r = .faulted f) : AddFaults i r s f := by
  rcases h.exec_cases r with ⟨hmax, -⟩ | ⟨-, ⟨hcal', -⟩ | ⟨-, ⟨g, hg, ht⟩ | ⟨a, ha, -⟩⟩⟩
  · exact absurd hmax hn
  · exact absurd hcal hcal'
  · obtain rfl : f = g := by simpa [hf] using hg
    exact ⟨_, ht, rfl, rfl⟩
  · simp [hf] at ha

/-- Settles O26: the counter is checked before the status, and the table before any value. -/
theorem batchCounterAndTableFaults : Obligations.BatchCounterAndTableFaults := by
  intro i r s h
  refine ⟨fun hmax => ?_, fun hn hcal hpast => ?_⟩
  · rcases h.exec_cases r with ⟨-, ht⟩ | ⟨hn, -⟩
    · exact ⟨_, ht, rfl, rfl⟩
    · exact absurd hmax hn
  · rcases h.analysisOf_cases r with ⟨-, hf⟩ | ⟨hin, -⟩
    · exact h.addFaults hn hcal hf
    · omega

/-- The overflow raised is the first one among the values of the batch (rule R84). -/
theorem BatchCompletes.addFaults_overflow {s : State} {i : Index} (h : BatchCompletes s i.toNat) {r : Raw}
    (hn : (readRec s i.toNat).stats.samples.toNat ≠ samplesMax) (hcal : batchStatus s i.toNat r = .magnetDetected)
    (hin : batchAverage s i.toNat r < tableSize s.build.lin) {field : KinField}
    (hfirst : firstOverflow (batchValues s i.toNat r) = some field) : AddFaults i r s (.overflow field) := by
  rcases h.analysisOf_cases r with ⟨hpast, -⟩ | ⟨-, ⟨field', hfirst', hf⟩ | ⟨hnone, -⟩⟩
  · omega
  · obtain rfl : field = field' := by simpa [hfirst] using hfirst'
    exact h.addFaults hn hcal hf
  · simp [hfirst] at hnone

/-- Settles O27: the values before the first that does not fit are passed over one by one. -/
theorem firstKinematicOverflowFaults : Obligations.FirstKinematicOverflowFaults := by
  intro i r s h hn hcal hin
  have halved : InDist (batchVelocityDiff s i.toNat r) → InDist (batchAcceleration s i.toNat r) := inDist_truncDiv_two
  refine ⟨fun hd => ?_, fun hd hv => ?_, fun hd hv hdv => ?_, halved, fun hd hv hdv hj => ?_⟩ <;>
    apply h.addFaults_overflow hn hcal hin <;> rw [batchValues]
  · rw [firstOverflow_cons_of_not_fits _ _ hd]
  · rw [firstOverflow_cons_of_fits _ _ hd, firstOverflow_cons_of_not_fits _ _ hv]
  · rw [firstOverflow_cons_of_fits _ _ hd, firstOverflow_cons_of_fits _ _ hv, firstOverflow_cons_of_not_fits _ _ hdv]
  · rw [firstOverflow_cons_of_fits _ _ hd, firstOverflow_cons_of_fits _ _ hv, firstOverflow_cons_of_fits _ _ hdv,
      firstOverflow_cons_of_fits _ _ (halved hdv), firstOverflow_cons_of_not_fits _ _ hj]

/-! ### The usable batch -/

/-- Settles O25. -/
theorem usableBatchComputesKinematics : Obligations.UsableBatchComputesKinematics := by
  intro i r s h hn hcal hin hd hv hdv ha hj
  have hfit : firstOverflow (batchValues s i.toNat r) = none := by
    simp only [firstOverflow_eq_none_iff, batchValues, List.forall_mem_cons]
    exact ⟨hd, hv, hdv, ha, hj, by simp⟩
  have hok : analysisOf s i.toNat r =
      .ok (kinAnalysis (averageOf s i.toNat r) (batchDistance s i.toNat r) (readRec s i.toNat).analysis) := by
    rcases h.analysisOf_cases r with ⟨hpast, -⟩ | ⟨-, ⟨field, hfirst, -⟩ | ⟨-, hok⟩⟩
    · omega
    · simp [hfit] at hfirst
    · exact hok
  rcases h.exec_cases r with ⟨hmax, -⟩ | ⟨-, ⟨hcal', -⟩ | ⟨-, ⟨f, hf, -⟩ | ⟨a, ha', ht⟩⟩⟩
  · exact absurd hmax hn
  · exact absurd hcal hcal'
  · simp [hok] at hf
  · obtain rfl := AnalyzeResult.ok.inj (hok.symm.trans ha')
    have havg := h.averageOf_toNat r
    refine ⟨_, ht, rfl, rfl, rfl, ?_, ?_, samples_succ hn, havg, kinAnalysis_toInt _ hfit⟩
    · rw [batchMin, ← havg]
      exact statsWithSample_min _ _
    · rw [← havg]
      exact statsWithSample_max _ _

/-- Where the record had another status, the minimum is the sample itself and the previous kinematics are zero
(rules R25, R71). -/
theorem BatchCompletes.batchDistance_eq_zero {s : State} {i : Nat} (h : BatchCompletes s i) (r : Raw)
    (hcal : (readRec s i).cal ≠ .magnetDetected) : batchDistance s i r = 0 := by
  obtain ⟨-, hreset, -, -⟩ := h.recOk
  obtain ⟨-, hmin, -⟩ := hreset hcal
  have hlt := (averageOf s i r).isLt
  rw [h.averageOf_toNat r] at hlt
  have hsample : batchMin s i r = batchAverage s i r := by
    have hsentinel : (0xFFFF#16).toNat = 65535 := rfl
    rw [batchMin, hmin, hsentinel]
    omega
  rw [batchDistance, hsample, Int.sub_self]

/-- Settles O34, from O25: the distance and the previous kinematics are zero, so every value is. -/
theorem firstUsableBatchIsZero : Obligations.FirstUsableBatchIsZero := by
  intro i r s h hn hother hcal hin
  obtain ⟨-, hreset, -, -⟩ := h.recOk
  obtain ⟨⟨pdist, pvel, pacc, -⟩, -, -⟩ := hreset hother
  have hzero : (0 : Dist).toInt = 0 := rfl
  have dist : batchDistance s i.toNat r = 0 := h.batchDistance_eq_zero r hother
  have vel : batchVelocity s i.toNat r = 0 := by rw [batchVelocity, dist, pdist, hzero, Int.sub_zero]
  have dv : batchVelocityDiff s i.toNat r = 0 := by rw [batchVelocityDiff, vel, pvel, hzero, Int.sub_zero]
  have acc : batchAcceleration s i.toNat r = 0 := by rw [batchAcceleration, dv, Int.zero_tdiv]
  have jrk : batchJerk s i.toNat r = 0 := by rw [batchJerk, acc, pacc, hzero, Int.sub_zero]
  have fits : InDist 0 := by simp [InDist]
  obtain ⟨d, ht, -, -, -, -, -, -, hraw, hdist, hvel, hacc, hjrk⟩ := usableBatchComputesKinematics i r s h hn hcal hin
    (dist ▸ fits) (vel ▸ fits) (dv ▸ fits) (acc ▸ fits) (jrk ▸ fits)
  exact ⟨_, d.analysis, ht, h.noFault, rfl, hraw, hdist.trans dist, hvel.trans vel, hacc.trans acc, hjrk.trans jrk⟩

/-! ### The distance is never negative -/

/-- Rule R86: an analysis that step 5 answers has a distance that is not negative, whatever the record held before. -/
theorem batchRecord_distance_nonneg {b : Config} (hb : WellFormedBuild b) {i : Nat} {s : Raw} {d d' : SenseData}
    (h : batchRecord b i s d = .usable d') : 0 ≤ d'.analysis.distance.toInt := by
  rcases batchRecord_cases b i s d with ⟨-, h'⟩ | ⟨-, ⟨-, h'⟩ | ⟨-, ⟨f, -, h'⟩ | ⟨a, ha, h'⟩⟩⟩ <;> rw [h'] at h <;> cases h
  rcases analyze_batch_cases b s d.stats d.analysis with ⟨-, ha'⟩ | ⟨hs, ⟨field, -, ha'⟩ | ⟨hfit, ha'⟩⟩ <;>
    rw [ha'] at ha <;> cases ha
  obtain ⟨hdist, -⟩ := kinAnalysis_toInt s hfit
  obtain ⟨hnonneg, -⟩ := distance_bounds hb (Nat.min_le_right d.stats.min.toNat s.toNat) hs
  rw [usableRecord, hdist]
  exact hnonneg

/-- An `OK_ANALYSIS` is the answer of step 5 alone (rules R78, R98). -/
theorem batchRecord_of_okAnalysis {i : Index} {r : Raw} {s t : State} {a : SenseAnalysis}
    (h : exec (.snsAdd i r) s = .next t) (hr : t.responses = s.responses ++ [.okAnalysis a]) :
    ∃ avg d d', batchRecord s.build i.toNat avg d = .usable d' ∧ d'.analysis = a := by
  rcases execSnsAdd_cases i r s with ⟨-, ht⟩ | ⟨-, -, ht⟩ | ⟨-, -, ht⟩ <;> obtain rfl := next_inj (ht.symm.trans h)
  · simp at hr
  · simp at hr
  · unfold addReading at hr
    split at hr
    · simp at hr
    · unfold sensorBatch at hr
      split at hr
      · simp at hr
      · simp at hr
      · next d' hd' => exact ⟨_, _, d', hd', by simpa using hr⟩

/-- Settles O33. -/
theorem distanceNeverNegative : Obligations.DistanceNeverNegative := by
  intro i r s t a hb h hr
  obtain ⟨avg, d, d', hd', rfl⟩ := batchRecord_of_okAnalysis h hr
  exact batchRecord_distance_nonneg hb hd'

/-! ### The counter of completed batches -/

/-- The batches that a reading for sensor `i` completes of sensor `j`: one or none (rules R72, R91). -/
def batchesCompleted (s : State) (i j : Nat) : Nat :=
  if i = j ∧ (readRec s j).acc.count.toNat + 1 = s.build.sc then 1 else 0

/-- A write that leaves sensor `i` with the samples it had and those it completes counts every sensor's batches. -/
theorem samples_writeRec {s : State} {i : Nat} (hi : i < s.recs.length) {d : SenseData}
    (hd : d.stats.samples.toNat = (readRec s i).stats.samples.toNat + batchesCompleted s i i) (j : Nat) :
    (readRec (writeRec i d s) j).stats.samples.toNat =
      (readRec s j).stats.samples.toNat + batchesCompleted s i j := by
  by_cases hji : j = i
  · subst hji
    rw [readRec_writeRec_self j d s hi, hd]
  · rw [readRec_writeRec_other i j d s hji, batchesCompleted, if_neg (fun h => hji h.1.symm), Nat.add_zero]

theorem samples_addReading {s : State} {i : Nat} (hi : i < s.recs.length) (r : Raw)
    (hf : (addReading i r s).fault = none) (j : Nat) :
    (readRec (addReading i r s) j).stats.samples.toNat =
      (readRec s j).stats.samples.toNat + batchesCompleted s i j := by
  rcases addReading_cases i r s hi with
    ⟨hc, ht⟩ | ⟨hc, ⟨-, ht⟩ | ⟨hn, ⟨-, ht⟩ | ⟨-, ⟨f, -, ht⟩ | ⟨a, -, ht⟩⟩⟩⟩ <;> rw [ht] at hf ⊢
  · exact samples_writeRec hi (by simp [batchesCompleted, hc]) j
  · simp at hf
  · exact samples_writeRec hi ((samples_succ hn).trans (by simp [batchesCompleted, hc])) j
  · simp at hf
  · exact samples_writeRec hi ((samples_succ hn).trans (by simp [batchesCompleted, hc])) j

/-- Settles O36: of the commands but `SNS_INIT`, only `SNS_ADD` in bounds writes a record. -/
theorem samplesCountCompletedBatches : Obligations.SamplesCountCompletedBatches := by
  intro c s t j hinv hs hc hj h hf
  have hall := (hallInv_iff s).mp hinv hs
  cases c with
  | snsInit n => exact absurd rfl (hc n)
  | snsAdd i r =>
    rcases execSnsAdd_cases i r s with ⟨-, ht⟩ | ⟨-, hout, ht⟩ | ⟨-, hi, ht⟩ <;> obtain rfl := next_inj (ht.symm.trans h)
    · simp at hf
    · have hne : ¬ (i.toNat = j) := by omega
      simp [hne]
    · exact samples_addReading (hall.inBounds hi) r hf j
  | snsGet i =>
    rcases execSnsGet_cases i s with ⟨-, ht⟩ | ⟨-, -, ht⟩ | ⟨-, -, ⟨-, ht⟩ | ⟨-, ht⟩⟩ <;>
      obtain rfl := next_inj (ht.symm.trans h) <;> simp
  | mtxInit | mtxClear | mtxNext | mtxSense | mtxStrobe =>
    obtain ⟨-, -, -, hrecs⟩ := exec_matrix_sameHall rfl h
    simp [readRec, hrecs]

end Sys2Proof.Machine

/-! PROOFS. The accumulator (41_accumulator.md rules R91 to R96): what a reading that completes no batch adds, what it leaves
alone, and the average of a whole batch. -/

namespace Sys2Proof.Machine

/-! ### A reading that completes no batch -/

/-- The accumulator's part of `RecOk`: no whole batch, and a sum that its readings can have (rule R26). -/
def AccOk (b : Config) (a : SampleAccumulator) : Prop :=
  a.count.toNat < b.sc ∧ a.sum.toNat ≤ a.count.toNat * (2 ^ 16 - 1)

theorem RecOk.accOk {b : Config} {d : SenseData} (h : RecOk b d) : AccOk b d.acc := h.2.2

theorem accOk_empty {b : Config} (hb : WellFormedBuild b) : AccOk b { sum := 0, count := 0 } :=
  ⟨hb.sc_pos, by simp⟩

/-- The accumulator that `ACC_ADD` leaves while the batch is incomplete (`accAdd_accumulated`). -/
def accumulated (a : SampleAccumulator) (r : Raw) : SampleAccumulator :=
  { sum := BitVec.ofNat 32 (a.sum.toNat + r.toNat), count := BitVec.ofNat 16 (a.count.toNat + 1) }

theorem accAdd_accumulated {b : Config} {a : SampleAccumulator} (r : Raw) (h : a.count.toNat + 1 ≠ b.sc) :
    accAdd b a r = .notYet (accumulated a r) := accAdd_notYet b a r h

theorem AccOk.accumulated_sum {b : Config} (hb : WellFormedBuild b) {a : SampleAccumulator} (h : AccOk b a) (r : Raw) :
    (accumulated a r).sum.toNat = a.sum.toNat + r.toNat := by
  obtain ⟨-, hlt, -⟩ := acc_no_overflow hb r h.1 h.2
  rw [accumulated, BitVec.toNat_ofNat, Nat.mod_eq_of_lt hlt]

theorem AccOk.accumulated_count {b : Config} (hb : WellFormedBuild b) {a : SampleAccumulator} (h : AccOk b a) (r : Raw) :
    (accumulated a r).count.toNat = a.count.toNat + 1 := by
  obtain ⟨-, -, hlt⟩ := acc_no_overflow hb r h.1 h.2
  rw [accumulated, BitVec.toNat_ofNat, Nat.mod_eq_of_lt hlt]

theorem accOk_accumulated {b : Config} (hb : WellFormedBuild b) {a : SampleAccumulator} (h : AccOk b a) (r : Raw)
    (hc : a.count.toNat + 1 ≠ b.sc) : AccOk b (accumulated a r) := by
  obtain ⟨hbound, -, -⟩ := acc_no_overflow hb r h.1 h.2
  have hcount := h.1
  rw [AccOk, h.accumulated_sum hb, h.accumulated_count hb]
  exact ⟨by omega, hbound⟩

/-- Settles O23: the reading takes the first case of `addReading_cases`, and neither value passes its width (rule R94). -/
theorem incompleteBatchChangesOnlyAccumulator : Obligations.IncompleteBatchChangesOnlyAccumulator := by
  intro i r s hb hinv hf hlive hi hc
  have hall := (hallInv_iff s).mp hinv hf
  have hacc := (hall.2 i.toNat hi).accOk
  refine ⟨accumulated (readRec s i.toNat).acc r, ?_, hacc.accumulated_sum hb r, hacc.accumulated_count hb r⟩
  rcases execSnsAdd_cases i r s with ⟨hl, -⟩ | ⟨-, hout, -⟩ | ⟨-, -, hexec⟩
  · simp [hlive] at hl
  · omega
  · rcases addReading_cases i.toNat r s (hall.inBounds hi) with ⟨-, hadd⟩ | ⟨hdone, -⟩
    · exact hexec.trans (congrArg Host.Outcome.next hadd)
    · exact absurd hdone hc

/-! ### A whole batch -/

theorem accFeed_accumulated {b : Config} {a : SampleAccumulator} {r : Raw} (rest : List Raw)
    (h : a.count.toNat + 1 ≠ b.sc) : accFeed b a (r :: rest) = accFeed b (accumulated a r) rest := by
  simp only [accFeed, accAdd_accumulated r h]

/-- Readings that stop short of a batch are all taken, their sum and their number exact (rules R91, R94). -/
theorem accFeed_of_short {b : Config} (hb : WellFormedBuild b) (readings : List Raw) {a : SampleAccumulator}
    (h : AccOk b a) (hshort : a.count.toNat + readings.length < b.sc) :
    ∃ a', accFeed b a readings = some a' ∧ AccOk b a' ∧
      a'.sum.toNat = a.sum.toNat + (readings.map BitVec.toNat).sum ∧
      a'.count.toNat = a.count.toNat + readings.length := by
  induction readings generalizing a with
  | nil => exact ⟨a, rfl, h, rfl, rfl⟩
  | cons r rest ih =>
    rw [List.length_cons] at hshort
    have hc : a.count.toNat + 1 ≠ b.sc := by omega
    have hsum := h.accumulated_sum hb r
    have hcount := h.accumulated_count hb r
    obtain ⟨a', hfeed, hok, hsum', hcount'⟩ := ih (accOk_accumulated hb h r hc) (by omega)
    refine ⟨a', ?_, hok, ?_, ?_⟩
    · rw [accFeed_accumulated rest hc, hfeed]
    · rw [hsum', hsum, List.map_cons, List.sum_cons, Nat.add_assoc]
    · rw [hcount', hcount, List.length_cons]
      omega

/-- Settles O32: the readings before the last stop short of a batch, and the last one completes it. -/
theorem accumulatorAveragesEachBatch : Obligations.AccumulatorAveragesEachBatch := by
  intro b readings last hb hlen
  have hzeroSum : (0 : Sum).toNat = 0 := rfl
  have hzeroCount : (0 : Count).toNat = 0 := rfl
  obtain ⟨a, hfeed, hok, hsum, hcount⟩ :=
    accFeed_of_short hb readings (accOk_empty hb) (by rw [hzeroCount]; omega)
  rw [hzeroSum, Nat.zero_add] at hsum
  rw [hzeroCount, Nat.zero_add] at hcount
  have hfull : a.count.toNat + 1 = b.sc := by omega
  refine ⟨a, hfeed, _, accAdd_done b a last hfull, ?_⟩
  rw [BitVec.toNat_ofNat, Nat.mod_eq_of_lt (average_lt last hfull hok.2), hsum]

end Sys2Proof.Machine

/-! PROOFS. The sensor array (42_sensor_array.md rules R97 to R102): its construction, the readout of a record, and that a
command to one sensor depends on that sensor's record and writes no other. -/

namespace Sys2Proof.Machine

/-! ### Construction -/

/-- Settles O20: the two cases of `execSnsInit_cases`, each with its whole next state. -/
theorem snsInitConstructsOrFails : Obligations.SnsInitConstructsOrFails := by
  intro n s
  refine ⟨decode_of_encode_eq (i := .snsInit n) rfl, fun hn => ?_, fun hn => ?_⟩
  · rcases execSnsInit_cases n s with ⟨hn', -⟩ | ⟨-, h⟩
    · omega
    · exact ⟨_, h, List.length_replicate, fun _ hd => List.eq_of_mem_replicate hd⟩
  · rcases execSnsInit_cases n s with ⟨-, h⟩ | ⟨hn', -⟩
    · exact h
    · omega

/-! ### A record that stands at its index -/

theorem readRec_of_getElem? {s : State} {i : Nat} {d : SenseData} (h : s.recs[i]? = some d) : readRec s i = d := by
  simp [readRec, h]

/-- Settles O28: `SNS_GET` in bounds is in the last two cases of `execSnsGet_cases`, told apart by the status. -/
theorem snsGetReadsRecord : Obligations.SnsGetReadsRecord := by
  intro i s d hl hi hd
  have hread := readRec_of_getElem? hd
  have hcases := execSnsGet_cases i s
  rw [hread] at hcases
  rcases hcases with ⟨hdead, -⟩ | ⟨-, hout, -⟩ | ⟨-, -, ⟨hcal, h⟩ | ⟨hcal, h⟩⟩
  · simp [hl] at hdead
  · omega
  · exact ⟨hread, fun _ => h, fun hne => absurd hcal hne⟩
  · exact ⟨hread, fun heq => absurd heq hcal, fun _ => h⟩

/-! ### One sensor in two states -/

/-- Two states that a command to sensor `i` cannot tell apart: the other records may differ (rule R102). -/
structure SameSensor (i : Nat) (s s' : State) : Prop where
  build  : s.build = s'.build
  live   : s.snsLive = s'.snsLive
  cap    : s.snsCap = s'.snsCap
  length : s.recs.length = s'.recs.length
  record : readRec s i = readRec s' i

/-- The two ends of a command to sensor `i`, the same from `s` and from `s'`: the record written, and the response or the
fault. -/
inductive EndsAlike (i : Nat) (s s' : State) : State → State → Prop where
  | response (d : SenseData) (r : Response) :
      EndsAlike i s s' (respond r (writeRec i d s)) (respond r (writeRec i d s'))
  | fault (d : SenseData) (f : Fault) : EndsAlike i s s' (raise f (writeRec i d s)) (raise f (writeRec i d s'))

theorem SameSensor.refl (i : Nat) (s : State) : SameSensor i s s := ⟨rfl, rfl, rfl, rfl, rfl⟩

/-- A record written in both states is read in both alike, whether or not a record stands there. -/
theorem readRec_writeRec_congr {i : Nat} {s s' : State} (hlen : s.recs.length = s'.recs.length) (d : SenseData) :
    readRec (writeRec i d s) i = readRec (writeRec i d s') i := by
  simp [readRec, List.getD_eq_getElem?_getD, List.getElem?_set, hlen]

theorem SameSensor.writeRec {i : Nat} {s s' : State} (same : SameSensor i s s') (d : SenseData) :
    SameSensor i (writeRec i d s) (writeRec i d s') :=
  ⟨same.build, same.live, same.cap, by simpa using same.length, readRec_writeRec_congr same.length d⟩

/-- Writing a record as it stands changes nothing. -/
theorem writeRec_readRec (i : Nat) (s : State) : writeRec i (readRec s i) s = s := by
  by_cases hi : i < s.recs.length
  · simp [Machine.writeRec, readRec, hi]
  · simp [Machine.writeRec, List.set_eq_of_length_le (Nat.le_of_not_lt hi)]

/-! ### A command to one sensor ends alike -/

section
variable {i : Nat} {s s' : State}

theorem SameSensor.respond (same : SameSensor i s s') (r : Response) :
    EndsAlike i s s' (respond r s) (respond r s') := by
  have h := EndsAlike.response (i := i) (s := s) (s' := s') (readRec s i) r
  rwa [writeRec_readRec, same.record, writeRec_readRec] at h

theorem SameSensor.raise (same : SameSensor i s s') (f : Fault) : EndsAlike i s s' (raise f s) (raise f s') := by
  have h := EndsAlike.fault (i := i) (s := s) (s' := s') (readRec s i) f
  rwa [writeRec_readRec, same.record, writeRec_readRec] at h

/-- The record written last is the one that counts. -/
theorem EndsAlike.of_writeRec {d : SenseData} {t t' : State}
    (h : EndsAlike i (writeRec i d s) (writeRec i d s') t t') : EndsAlike i s s' t t' := by
  cases h with
  | response d' r =>
    rw [writeRec_writeRec, writeRec_writeRec]
    exact .response d' r
  | fault d' f =>
    rw [writeRec_writeRec, writeRec_writeRec]
    exact .fault d' f

theorem SameSensor.sensorBatch (same : SameSensor i s s') (avg : Raw) :
    EndsAlike i s s' (sensorBatch i avg s) (sensorBatch i avg s') := by
  simp only [Machine.sensorBatch, ← same.build, ← same.record]
  cases batchRecord s.build i avg (readRec s i) with
  | faulted f => exact same.raise f
  | unusable d => exact .response d _
  | usable d => exact .response d _

theorem SameSensor.addReading (same : SameSensor i s s') (r : Raw) :
    EndsAlike i s s' (addReading i r s) (addReading i r s') := by
  simp only [Machine.addReading, ← same.build, ← same.record]
  cases accAdd s.build (readRec s i).acc r with
  | notYet a => exact .response _ _
  | done avg a => exact ((same.writeRec _).sensorBatch avg).of_writeRec

theorem SameSensor.readOut (same : SameSensor i s s') : EndsAlike i s s' (readOut i s) (readOut i s') := by
  simp only [Machine.readOut, ← same.record]
  split
  · exact same.respond _
  · exact same.respond _

/-- The checks before a command's steps, construction and bounds, read the live mark and the capacity alone (rule R132). -/
theorem SameSensor.checked (same : SameSensor i s s') {run run' : State} (h : EndsAlike i s s' run run') :
    EndsAlike i s s' (withHall s (if inBounds s i then run else Machine.respond .errInvalidSensor s))
      (withHall s' (if inBounds s' i then run' else Machine.respond .errInvalidSensor s')) := by
  simp only [withHall, inBounds, ← same.live, ← same.cap]
  cases s.snsLive with
  | false => exact same.raise _
  | true =>
    by_cases hi : i < s.snsCap
    · simpa [hi] using h
    · simpa [hi] using same.respond .errInvalidSensor

/-- A sensor command ends within the Hall engine's capacity and number of records, a faulting one included (rule R101). -/
theorem EndsAlike.keeps_shape {t t' : State} (h : EndsAlike i s s' t t') :
    t.snsLive = s.snsLive ∧ t.snsCap = s.snsCap ∧ t.recs.length = s.recs.length := by
  cases h <;> simp

end

theorem SameSensor.exec_snsAdd {i : Index} {r : Raw} {s s' t t' : State} (same : SameSensor i.toNat s s')
    (h : exec (.snsAdd i r) s = .next t) (h' : exec (.snsAdd i r) s' = .next t') : EndsAlike i.toNat s s' t t' := by
  obtain rfl := next_inj h
  obtain rfl := next_inj h'
  exact same.checked (same.addReading r)

theorem SameSensor.exec_snsGet {i : Index} {s s' t t' : State} (same : SameSensor i.toNat s s')
    (h : exec (.snsGet i) s = .next t) (h' : exec (.snsGet i) s' = .next t') : EndsAlike i.toNat s s' t t' := by
  obtain rfl := next_inj h
  obtain rfl := next_inj h'
  exact same.checked same.readOut

/-! ### The two obligations on sensor commands -/

/-- Settles O37: a sensor command writes at most one record in place, and a Matrix command nothing of the Hall engine. -/
theorem onlySnsInitChangesCapacity : Obligations.OnlySnsInitChangesCapacity := by
  intro c s t hc h _
  cases c with
  | snsInit n => exact absurd rfl (hc n)
  | snsAdd i r => exact ((SameSensor.refl i.toNat s).exec_snsAdd h h).keeps_shape
  | snsGet i => exact ((SameSensor.refl i.toNat s).exec_snsGet h h).keeps_shape
  | mtxInit | mtxClear | mtxNext | mtxSense | mtxStrobe =>
    obtain ⟨-, hlive, hcap, hrecs⟩ := exec_matrix_sameHall rfl h
    exact ⟨hlive.symm, hcap.symm, by rw [hrecs]⟩

/-- Settles O38: the two runs end alike, so they differ in nothing that the command answers or writes. -/
theorem sensorsAreIndependent : Obligations.SensorsAreIndependent := by
  intro i c s s' t t' hc hbuild hlive hcap ⟨hlen, _⟩ ⟨hlen', _⟩ hrec hfault h h'
  have same : SameSensor i.toNat s s' := ⟨hbuild, hlive, hcap, by rw [hlen, hlen', hcap], hrec⟩
  have alike : EndsAlike i.toNat s s' t t' := by
    rcases hc with ⟨r, rfl⟩ | rfl
    · exact same.exec_snsAdd h h'
    · exact same.exec_snsGet h h'
  cases alike with
  | response d r => exact ⟨hfault, by simp, fun _ => ⟨readRec_writeRec_congr same.length d, d, r, rfl⟩⟩
  | fault d f => exact ⟨rfl, by simp, fun hnone => by simp at hnone⟩

end Sys2Proof.Machine

/-! PROOFS. The matrix scanner (43_matrix_scanner.md rules R103 to R113): what each command leaves of the columns, the rows,
the strobe index and the grid, and the one column that is active. -/

namespace Sys2Proof.Machine

/-! ### The pin shadow and the strobe index -/

theorem driveOf_eq (level : Level) : driveOf level = if level = .active then .active else .inactive := by
  cases level <;> rfl

/-- Settles O50: the lines of rule R111 for an answer `ok`, then those for a failure. -/
theorem pinShadowFollowsAnswers : Obligations.PinShadowFollowsAnswers := by
  intro op s
  simp only [pinStep_colDrive, pinStep_rowMode]
  cases currentDraw s with
  | succeed level =>
    cases op with
    | colSet c level => exact ⟨rfl, congrArg (s.colDrive.set c) (driveOf_eq level)⟩
    | rowOut _ | rowDrive _ _ | rowIn _ | rowRead _ => exact ⟨rfl, rfl⟩
  | fail e => cases op <;> exact ⟨rfl, rfl⟩

/-- Settles O48. -/
theorem mtxStrobeReadsIndex : Obligations.MtxStrobeReadsIndex := by
  intro s hl
  rcases execMtxStrobe_cases s with ⟨hdead, -⟩ | ⟨-, hexec⟩
  · simp [hl] at hdead
  · exact hexec

theorem nextStrobe_preFirst (b : Config) : nextStrobe b (preFirst b) = 0 := by simp [nextStrobe, preFirst]

/-- The strobe index counts the successors of the pre-first position, modulo the number of columns (rule R106). -/
theorem nextStrobe_iterate_preFirst {b : Config} (hpos : 0 < b.csize) (k : Nat) :
    (nextStrobe b)^[k + 1] (preFirst b) = k % b.csize := by
  induction k with
  | zero => rw [Nat.zero_mod]; exact nextStrobe_preFirst b
  | succ k ih => rw [Function.iterate_succ_apply', ih, nextStrobe_eq_mod b _ (Nat.mod_lt k hpos), Nat.mod_add_mod]

/-- Settles O49. -/
theorem strobeSuccessorIsCircular : Obligations.StrobeSuccessorIsCircular := by
  intro b c hc
  refine ⟨rfl, rfl, nextStrobe_eq_mod b c hc, ?_, nextStrobe_iterate_preFirst (by omega)⟩
  unfold nextStrobe
  split <;> omega

/-! ### The columns driven inactive in order -/

/-- The operations of `MTX_INIT` and `MTX_CLEAR` on the first `n` columns (rules R103, R104). -/
def columnsOff (n : Nat) : List PinOp := (List.range n).map (.colSet · .inactive)

@[simp] theorem columnsOff_length (n : Nat) : (columnsOff n).length = n := by simp [columnsOff]

theorem allColumns_inactive (b : Config) : allColumns b .inactive = columnsOff b.csize := rfl

/-- Every column driven inactive: the shadow shows it, and no row has moved (rules R103, R111). -/
theorem afterOps_columnsOff {s : State} (hlen : s.colDrive.length = s.build.csize) :
    afterOps (columnsOff s.build.csize) s =
      { afterDraws s.build.csize s with
        colDrive := List.replicate s.build.csize .inactive
        pinTrace := s.pinTrace ++ okTrace (columnsOff s.build.csize) } := by
  have hcols : (columnsOff s.build.csize).foldl colsOk s.colDrive = List.replicate s.build.csize .inactive :=
    foldl_allColumns s.build .inactive s.colDrive hlen
  have hrows : (columnsOff s.build.csize).foldl rowsOk s.rowMode = s.rowMode := foldl_colSet_rows _ _ _
  simp [afterOps, hcols, hrows]

/-- The columns after column `c` failed to be driven inactive (rules R103, R110, R111). -/
def colsFailAt (c : Nat) (cols : List ColDrive) : List ColDrive :=
  colsFail ((columnsOff c).foldl colsOk cols) (.colSet c .inactive)

/-- Column `c` fails: no row has moved, and the columns are those of `colsFailAt`. -/
theorem afterFail_columnsOff (c : Nat) (e : PinError) (s : State) :
    afterFail (columnsOff c) (.colSet c .inactive) e s =
      { afterDraws (c + 1) s with
        colDrive := colsFailAt c s.colDrive
        pinTrace := s.pinTrace ++ okTrace (columnsOff c) ++ [{ op := .colSet c .inactive, answer := .err e }] } := by
  have hrows : (columnsOff c).foldl rowsOk s.rowMode = s.rowMode := foldl_colSet_rows _ _ _
  simp [afterFail, hrows, rowsFail, colsFailAt]

theorem colsFailAt_length (c : Nat) (cols : List ColDrive) : (colsFailAt c cols).length = cols.length := by
  rw [colsFailAt, colsFail_length, foldl_colsOk_length]

/-- The columns before the failing one are inactive, that one is unknown, and those after it are as they were. -/
theorem colsFailAt_getElem? (c : Nat) (cols : List ColDrive) (j : Nat) (hj : j < cols.length) :
    (colsFailAt c cols)[j]? = if j < c then some .inactive else if j = c then some .unknown else cols[j]? := by
  obtain ⟨hlen, hget⟩ := foldl_colSet c .inactive cols
  show ((((List.range c).map fun c => PinOp.colSet c .inactive).foldl colsOk cols).set c .unknown)[j]? = _
  rw [List.getElem?_set, hlen, hget j hj]
  rcases Nat.lt_trichotomy j c with hlt | rfl | hgt
  · rw [if_neg (by omega), if_pos hlt, if_pos hlt]; rfl
  · rw [if_pos rfl, if_pos hj, if_neg (by omega), if_pos rfl]
  · rw [if_neg (by omega), if_neg (by omega), if_neg (by omega), if_neg (by omega)]

/-! ### `MTX_INIT` and `MTX_CLEAR` -/

theorem exec_mtxInit_succeeds {s : State} (h : AllSucceed s.build.csize s) :
    exec .mtxInit s = .next (respond .okNone (initDone s)) := by
  rcases execMtxInit_cases s with ⟨-, hexec⟩ | ⟨c, e, hc, hfail, -⟩
  · exact hexec
  · exact absurd h (hfail.not_allSucceed hc)

theorem exec_mtxInit_fails {s : State} {c : Nat} {e : PinError} (hc : c < s.build.csize) (h : FirstFailAt c e s) :
    exec .mtxInit s = .next (respond (.errIo .colSet c e)
      { afterFail (columnsOff c) (.colSet c .inactive) e s with mtxLive := false }) := by
  rcases execMtxInit_cases s with ⟨hall, -⟩ | ⟨c', e', -, h', hexec⟩
  · exact absurd hall (h.not_allSucceed hc)
  · obtain ⟨rfl, rfl⟩ := h.unique h'
    exact hexec

/-- Settles O42: the run over the columns succeeds or fails at its first failing column. -/
theorem mtxInitConstructsOrFails : Obligations.MtxInitConstructsOrFails := by
  intro s hlen
  refine ⟨decode_of_encode_eq (by decide), fun hall => ?_, fun c e hc hfail => ?_⟩
  · refine ⟨_, _, ?_, rfl, rfl⟩
    rw [exec_mtxInit_succeeds hall, initDone, allColumns_inactive, afterOps_columnsOff hlen]
    rfl
  · refine ⟨colsFailAt c s.colDrive, s.curStrobe, s.cells, ?_, by rw [colsFailAt_length, hlen],
      fun j hj => colsFailAt_getElem? c s.colDrive j (by omega)⟩
    rw [exec_mtxInit_fails hc hfail, afterFail_columnsOff]
    rfl

theorem exec_mtxClear_succeeds {s : State} (hl : s.mtxLive = true) (h : AllSucceed s.build.csize s) :
    exec .mtxClear s = .next (respond .okNone
      { afterOps (columnsOff s.build.csize) s with curStrobe := preFirst s.build }) := by
  rcases execMtxClear_cases s with ⟨hdead, -⟩ | ⟨-, ⟨-, hexec⟩ | ⟨c, e, hc, hfail, -⟩⟩
  · simp [hl] at hdead
  · exact hexec
  · exact absurd h (hfail.not_allSucceed hc)

theorem exec_mtxClear_fails {s : State} {c : Nat} {e : PinError} (hl : s.mtxLive = true) (hc : c < s.build.csize)
    (h : FirstFailAt c e s) :
    exec .mtxClear s = .next (respond (.errIo .colSet c e) (afterFail (columnsOff c) (.colSet c .inactive) e s)) := by
  rcases execMtxClear_cases s with ⟨hdead, -⟩ | ⟨-, ⟨hall, -⟩ | ⟨c', e', -, h', hexec⟩⟩
  · simp [hl] at hdead
  · exact absurd hall (h.not_allSucceed hc)
  · obtain ⟨rfl, rfl⟩ := h.unique h'
    exact hexec

/-- Settles O43: as O42, with the grid left alone and the index kept at a failure. -/
theorem mtxClearResetsStrobe : Obligations.MtxClearResetsStrobe := by
  intro s hl hlen
  refine ⟨fun hall => ?_, fun c e hc hfail => ⟨colsFailAt c s.colDrive, ?_, by rw [colsFailAt_length, hlen],
    fun j hj => colsFailAt_getElem? c s.colDrive j (by omega)⟩⟩
  · rw [exec_mtxClear_succeeds hl hall, afterOps_columnsOff hlen]
    rfl
  · rw [exec_mtxClear_fails hl hc hfail, afterFail_columnsOff]
    rfl

/-! ### `MTX_NEXT` with no failure -/

theorem exec_mtxNext_succeeds {s : State} (hl : s.mtxLive = true) (h : AllSucceed (3 * s.build.rsize + 2) s) :
    exec .mtxNext s = .next (respond (.okIndex (nextStrobe s.build s.curStrobe))
      (afterOps [.colSet (nextStrobe s.build s.curStrobe) .active] (advanced s))) := by
  rcases execMtxNext_cases s with ⟨hdead, -⟩ | ⟨-, ⟨-, hexec⟩ | ⟨e, hfail, -⟩ | ⟨k, op, e, hk, -, hfail, -⟩⟩
  · simp [hl] at hdead
  · exact hexec
  · exact absurd h (hfail.not_allSucceed (by omega))
  · exact absurd h (hfail.not_allSucceed (by omega))

/-- The free draws used by `n` operations and one more, where `listed` draws were listed. -/
theorem freeDraws_succ (free n listed : Nat) :
    free + (n - listed) + (1 - (listed - n)) = free + (n + 1 - listed) := by omega

/-- The last operation of `MTX_NEXT` succeeds after all those before it did, with the index advanced (rule R107). -/
theorem afterOps_advanced (op : PinOp) (s : State) :
    afterOps [op] (advanced s) =
      { afterOps (offOps s.build s.curStrobe ++ [op]) s with curStrobe := nextStrobe s.build s.curStrobe } := by
  simp [afterOps, advanced, afterDraws, okTrace, freeDraws_succ]

/-- Settles O44. -/
theorem mtxNextAdvancesStrobe : Obligations.MtxNextAdvancesStrobe := by
  intro s hready hall
  obtain ⟨⟨-, hrows, -⟩, hstrobe⟩ := hready.inv hready.noFault
  have hnext := nextStrobe_eq_mod s.build s.curStrobe (hstrobe hready.live).1
  have hcount : 3 * s.build.rsize + 2 = 2 + 3 * s.build.rsize := Nat.add_comm _ _
  have hcols : (offOps s.build s.curStrobe).foldl colsOk s.colDrive = _ := advanced_colDrive s
  have hmode : (offOps s.build s.curStrobe).foldl rowsOk s.rowMode = _ := advanced_rowMode s hrows
  rw [exec_mtxNext_succeeds hready.live (hcount ▸ hall), afterOps_advanced, afterOps, List.length_append, offOps_length,
    List.foldl_append, List.foldl_append, hcols, hmode, ← hnext, ← hcount]
  rfl

/-! ### `MTX_SENSE` that stops -/

theorem exec_mtxSense_fails {s : State} {n : Nat} {e : PinError} (hl : s.mtxLive = true) (hn : n < s.build.rsize)
    (h : Recorded n s) (hf : drawAt s n = .fail e) :
    exec .mtxSense s = .next (respond (.errIo .rowRead n e) (pinStep (.rowRead n) (rowsDone n s))) := by
  simp [exec, execMtxSense, withMatrix, hl, senseColumn, senseRows_fails n _ e s hn h hf, respondIo, kindOf, pinOf]

theorem exec_mtxSense_overflows {s : State} {n : Nat} (hl : s.mtxLive = true) (hn : n < s.build.rsize)
    (h : Recorded n s) (hd : drawAt s n = .succeed (levelOf s n))
    (ho : debRecord s.build (strobedCell s n) (levelOf s n) = none) :
    exec .mtxSense s = .next (raise (.counterOverflow (.cell (s.curStrobe * s.build.rsize + n)))
      (pinStep (.rowRead n) (rowsDone n s))) := by
  simp [exec, execMtxSense, withMatrix, hl, senseColumn, senseRows_overflows n _ s hn h hd ho, cellAddr]

/-- A failing read after `n` rows adds its own event and writes no cell and no shadow (rules R110, R111). -/
theorem pinStep_rowRead_fails {s : State} {n : Nat} {e : PinError} (hf : drawAt s n = .fail e) :
    pinStep (.rowRead n) (rowsDone n s) =
      { afterDraws (n + 1) s with
        cells := gridAfter n s
        pinTrace := s.pinTrace ++ readTrace n s ++ [{ op := .rowRead n, answer := .err e }] } := by
  rw [pinStep_fail _ _ e ((currentDraw_rowsDone n s).trans hf)]
  simp [afterFail, rowsDone, afterDraws, okTrace, colsFail, rowsFail, freeDraws_succ]

theorem drawAt_of_succeeds {s : State} {k : Nat} (h : drawSucceeds (drawAt s k) = true) :
    drawAt s k = .succeed (levelOf s k) := by
  cases hd : drawAt s k with
  | succeed level => simp [levelOf, hd, drawLevel]
  | fail e => simp [hd, drawSucceeds] at h

/-- Settles O47: the rows before the one that stops the command are recorded. -/
theorem mtxSenseStopsAtFirstFailure : Obligations.MtxSenseStopsAtFirstFailure := by
  intro s cell' n hready hn hcell
  refine ⟨fun e ⟨hdraw, hf⟩ => ?_, fun c hc hdraw ho => ?_⟩
  · obtain ⟨hrec, hafter⟩ := recorded_of_cells hdraw hcell
    refine ⟨gridAfter n s, ?_, gridAfter_length n s, fun r hr => ?_, fun k hk => gridAfter_other n s k hk⟩
    · rw [exec_mtxSense_fails hready.live hn hrec hf, pinStep_rowRead_fails hf]
      rfl
    · obtain ⟨c, hc, -⟩ := hcell r hr
      rw [gridAfter_own n s r hr (List.getElem?_eq_some_iff.mp hc).1, hafter r hr]
  · obtain ⟨hrec, -⟩ := recorded_of_cells (hdraw.mono (Nat.le_succ n)) hcell
    rw [← strobedCell_of_getElem? hc] at ho
    exact ⟨_, exec_mtxSense_overflows hready.live hn hrec (drawAt_of_succeeds (hdraw n (Nat.lt_succ_self n))) ho, rfl,
      by simp⟩

/-! ### One active column -/

theorem NoneActive.othersInactive {s : State} (h : NoneActive s) : OthersInactive s := fun _ c hc _ => h c hc

theorem noneActive_of_replicate {s : State} (h : s.colDrive = List.replicate s.build.csize .inactive) :
    NoneActive s := fun c hc => by rw [h, List.getElem?_replicate, if_pos hc]

/-- What moves no column but the strobed one, and not the strobe index, leaves the others inactive. -/
theorem OthersInactive.of_others {s t : State} (h : OthersInactive s) (hbuild : t.build = s.build)
    (hlive : t.mtxLive = s.mtxLive) (hcur : t.curStrobe = s.curStrobe)
    (hcols : ∀ c, c ≠ s.curStrobe → t.colDrive[c]? = s.colDrive[c]?) : OthersInactive t := by
  intro hl c hc hne
  rw [hbuild] at hc
  rw [hcur] at hne
  rw [hcols c hne]
  exact h (hlive ▸ hl) c hc hne

/-- The same where no column moves at all. -/
theorem OthersInactive.congr {s t : State} (h : OthersInactive s) (hbuild : t.build = s.build)
    (hlive : t.mtxLive = s.mtxLive) (hcur : t.curStrobe = s.curStrobe) (hcols : t.colDrive = s.colDrive) :
    OthersInactive t := h.of_others hbuild hlive hcur fun _ _ => by rw [hcols]

/-- The same where the strobed column is set. -/
theorem OthersInactive.set_strobed {s t : State} {drive : ColDrive} (h : OthersInactive s) (hbuild : t.build = s.build)
    (hlive : t.mtxLive = s.mtxLive) (hcur : t.curStrobe = s.curStrobe)
    (hcols : t.colDrive = s.colDrive.set s.curStrobe drive) : OthersInactive t :=
  h.of_others hbuild hlive hcur fun _ hne => by rw [hcols, List.getElem?_set_ne hne.symm]

/-- Once `MTX_NEXT` has driven the old column inactive, none is active (rule R107). -/
theorem noneActive_advanced {s : State} (hok : MatrixOk s) (h : OthersInactive s) (hl : s.mtxLive = true) :
    NoneActive (advanced s) := by
  obtain ⟨⟨hlen, -⟩, -⟩ := hok
  intro c (hc : c < s.build.csize)
  rw [advanced_colDrive]
  by_cases hcur : c = s.curStrobe
  · rw [hcur, List.getElem?_set_self (by omega)]
  · rw [List.getElem?_set_ne (Ne.symm hcur)]
    exact h hl c hc hcur

theorem pinStep_rowRead_colDrive (r : Nat) (s : State) : (pinStep (.rowRead r) s).colDrive = s.colDrive := by
  rw [pinStep_rowRead]
  rfl

/-- A successful `MTX_INIT` leaves every column inactive (rules R103, R113). -/
theorem noneActive_initDone {s : State} (hok : MatrixOk s) : NoneActive (initDone s) := by
  obtain ⟨⟨hlen, -⟩, -⟩ := hok
  exact noneActive_of_replicate (foldl_allColumns s.build .inactive s.colDrive hlen)

/-- So does an `MTX_CLEAR` that answers `OK_NONE`, and the matrix is still live (rules R104, R113). -/
theorem exec_mtxClear_noneActive {s t : State} (hok : MatrixOk s) (hexec : exec .mtxClear s = .next t)
    (hr : t.responses = s.responses ++ [.okNone]) : NoneActive t ∧ t.mtxLive = true := by
  obtain ⟨⟨hlen, -⟩, -⟩ := hok
  rcases execMtxClear_cases s with ⟨-, ht⟩ | ⟨hl, ⟨-, ht⟩ | ⟨c, e, -, -, ht⟩⟩ <;>
    obtain rfl := next_inj (ht.symm.trans hexec)
  · simp at hr
  · exact ⟨noneActive_of_replicate (foldl_allColumns s.build .inactive s.colDrive hlen), hl⟩
  · simp at hr

theorem exec_mtxNext_keeps_othersInactive {s t : State} (hok : MatrixOk s) (h : OthersInactive s)
    (hexec : exec .mtxNext s = .next t) : OthersInactive t := by
  rcases execMtxNext_cases s with ⟨-, ht⟩ | ⟨hl, ⟨-, ht⟩ | ⟨e, -, ht⟩ | ⟨k, op, e, -, hop, -, ht⟩⟩ <;>
    obtain rfl := next_inj (ht.symm.trans hexec)
  · exact h.congr rfl rfl rfl rfl
  · exact (noneActive_advanced hok h hl).othersInactive.set_strobed rfl rfl rfl rfl
  · exact (noneActive_advanced hok h hl).othersInactive.set_strobed rfl rfl rfl rfl
  · obtain ⟨⟨-, hrows, -⟩, -⟩ := hok
    exact h.set_strobed rfl rfl rfl (offOps_fail hop s.colDrive hrows).1

/-- Settles O53: `MTX_NEXT` drives the strobed column alone, before and after its index advances; `MTX_INIT` and
`MTX_CLEAR` leave no active column or, failing, no live matrix; no other command drives a column. -/
theorem otherColumnsStayInactive : Obligations.OtherColumnsStayInactive := by
  intro i s t _ hinv h hf hexec hclear _
  have hok := (matrixInv_iff s).mp hinv hf
  cases i with
  | snsInit _ | snsAdd _ _ | snsGet _ =>
    obtain ⟨hbuild, hlive, hcur, -, hcols, -⟩ := exec_hall_sameMatrix rfl hexec
    exact h.congr hbuild.symm hlive.symm hcur.symm hcols.symm
  | mtxInit =>
    rcases execMtxInit_cases s with ⟨-, ht⟩ | ⟨c, e, -, -, ht⟩ <;> obtain rfl := next_inj (ht.symm.trans hexec)
    · exact (noneActive_initDone hok).othersInactive
    · exact fun hl => by simp at hl
  | mtxClear => exact (exec_mtxClear_noneActive hok hexec (hclear rfl)).1.othersInactive
  | mtxNext => exact exec_mtxNext_keeps_othersInactive hok h hexec
  | mtxSense =>
    rcases execMtxSense_cases s with ⟨-, ht⟩ | ⟨-, ⟨-, ht⟩ | ⟨n, e, -, -, -, ht⟩ | ⟨n, -, -, -, -, ht⟩⟩ <;>
      obtain rfl := next_inj (ht.symm.trans hexec) <;>
      exact h.congr (by simp) (by simp) (by simp) (by simp [pinStep_rowRead_colDrive])
  | mtxStrobe =>
    rcases execMtxStrobe_cases s with ⟨-, ht⟩ | ⟨-, ht⟩ <;> obtain rfl := next_inj (ht.symm.trans hexec) <;>
      exact h.congr rfl rfl rfl rfl

/-- An `MTX_NEXT` that answers an index answers the strobe index, and its column is active (rules R107, R113). -/
theorem exec_mtxNext_strobedActive {s t : State} (hok : MatrixOk s) (hexec : exec .mtxNext s = .next t) {n : Nat}
    (hr : t.responses = s.responses ++ [.okIndex n]) : n = t.curStrobe ∧ StrobedActive t := by
  obtain ⟨⟨hlen, -⟩, hstrobe⟩ := hok
  rcases execMtxNext_cases s with ⟨-, ht⟩ | ⟨hl, ⟨-, ht⟩ | ⟨e, -, ht⟩ | ⟨k, op, e, -, -, -, ht⟩⟩ <;>
    obtain rfl := next_inj (ht.symm.trans hexec)
  · simp at hr
  · obtain rfl : nextStrobe s.build s.curStrobe = n := by simpa using hr
    have hlt := nextStrobe_lt s.build s.curStrobe (hstrobe hl).1
    exact ⟨rfl, List.getElem?_set_self (by simpa [hlen] using hlt)⟩
  · simp at hr
  · simp at hr

/-- Settles O54: the answer tells which end the command took. -/
theorem oneActiveColumn : Obligations.OneActiveColumn := by
  intro s t _ hinv hf
  have hok := (matrixInv_iff s).mp hinv hf
  refine ⟨fun hexec h n hr => ?_, fun hexec hr => ?_, fun hexec hr => exec_mtxClear_noneActive hok hexec hr⟩
  · obtain ⟨hn, hactive⟩ := exec_mtxNext_strobedActive hok hexec hr
    exact ⟨hn, hactive, exec_mtxNext_keeps_othersInactive hok h hexec⟩
  · rcases execMtxInit_cases s with ⟨-, ht⟩ | ⟨c, e, -, -, ht⟩ <;> obtain rfl := next_inj (ht.symm.trans hexec)
    · exact ⟨noneActive_initDone hok, rfl⟩
    · simp at hr

end Sys2Proof.Machine

/-! PROOFS. The debouncer (44_debouncer.md rules R115 to R123): what one record does, runs of records of one level, and the
history of a cell. The algorithm is the spec's own reconstruction (rule R124). -/

namespace Sys2Proof.Machine

/-! ### The fields of the three cells a record can leave -/

@[simp] theorem evidenceCell_conf (c : Cell) (cyc : Cycles) : (evidenceCell c cyc).conf = c.conf := rfl

@[simp] theorem evidenceCell_cyc (c : Cell) (cyc : Cycles) : (evidenceCell c cyc).cyc = cyc := rfl

theorem evidenceCell_pend_toNat {b : Config} {c : Cell} (cyc : Cycles) (hdeb : b.deb ≤ cyclesMax)
    (hp : c.pend.toNat + 1 < max b.deb 1) : (evidenceCell c cyc).pend.toNat = c.pend.toNat + 1 := by
  have hmax : cyclesMax = 4294967295 := rfl
  rw [evidenceCell, BitVec.toNat_ofNat, Nat.mod_eq_of_lt (by omega)]

@[simp] theorem agreeCell_conf (b : Config) (c : Cell) (cyc : Cycles) : (agreeCell b c cyc).conf = c.conf := rfl

@[simp] theorem agreeCell_cyc (b : Config) (c : Cell) (cyc : Cycles) : (agreeCell b c cyc).cyc = cyc := rfl

@[simp] theorem agreeCell_pend (b : Config) (c : Cell) (cyc : Cycles) : (agreeCell b c cyc).pend = 0 := rfl

theorem agreeCell_icnt_toNat {b : Config} {c : Cell} (cyc : Cycles) (hidle : b.idle ≤ cyclesMax) (hoff : c.conf = .off) :
    (agreeCell b c cyc).icnt.toNat = min (c.icnt.toNat + 1) b.idle := by
  have hmax : cyclesMax = 4294967295 := rfl
  simp only [agreeCell, hoff, if_true, idleTimer]
  rw [BitVec.toNat_ofNat, Nat.mod_eq_of_lt (by omega)]

/-! ### One record -/

section
variable {b : Config} {c : Cell} {level : Bool}

theorem debRecord_flip (hraw : rawState level ≠ c.conf) (hp : max b.deb 1 ≤ c.pend.toNat + 1) :
    debRecord b c level = some (flipCell (rawState level)) := by
  rcases debRecord_cases b c level with ⟨-, -, h⟩ | ⟨hno, -⟩
  · exact h
  · exact absurd ⟨hraw, hp⟩ hno

theorem debRecord_evidence (hraw : rawState level ≠ c.conf) (hp : c.pend.toNat + 1 < max b.deb 1)
    (hc : c.cyc.toNat ≠ cyclesMax) : debRecord b c level = some (evidenceCell c (cycleAfter c)) := by
  rcases debRecord_cases b c level with ⟨-, hge, -⟩ | ⟨-, ⟨hfull, -⟩ | ⟨-, ⟨-, -, h⟩ | ⟨heq, -⟩⟩⟩
  · omega
  · exact absurd hfull hc
  · exact h
  · exact absurd heq hraw

theorem debRecord_agree (hraw : rawState level = c.conf) (hc : c.cyc.toNat ≠ cyclesMax) :
    debRecord b c level = some (agreeCell b c (cycleAfter c)) := by
  rcases debRecord_cases b c level with ⟨hne, -, -⟩ | ⟨-, ⟨hfull, -⟩ | ⟨-, ⟨hne, -, -⟩ | ⟨-, h⟩⟩⟩
  · exact absurd hraw hne
  · exact absurd hfull hc
  · exact absurd hraw hne
  · exact h

/-- A record that raises nothing flips the cell, gathers evidence or agrees (rules R117 to R121). -/
theorem debRecord_some_cases {c' : Cell} (hr : debRecord b c level = some c') :
    (rawState level ≠ c.conf ∧ max b.deb 1 ≤ c.pend.toNat + 1 ∧ c' = flipCell (rawState level)) ∨
      (rawState level ≠ c.conf ∧ c.pend.toNat + 1 < max b.deb 1 ∧ c.cyc.toNat ≠ cyclesMax ∧
        c' = evidenceCell c (cycleAfter c)) ∨
      (rawState level = c.conf ∧ c.cyc.toNat ≠ cyclesMax ∧ c' = agreeCell b c (cycleAfter c)) := by
  rcases debRecord_cases b c level with ⟨hne, hp, h⟩ | ⟨-, ⟨-, h⟩ | ⟨hc, ⟨hne, hp, h⟩ | ⟨heq, h⟩⟩⟩ <;> rw [h] at hr
  · exact .inl ⟨hne, hp, (Option.some.inj hr).symm⟩
  · cases hr
  · exact .inr (.inl ⟨hne, hp, hc, (Option.some.inj hr).symm⟩)
  · exact .inr (.inr ⟨heq, hc, (Option.some.inj hr).symm⟩)

end

/-- Settles O55: of the three cells a record can leave, only the flipped one has another confirmed state. -/
theorem flipExactlyAtDebounce : Obligations.FlipExactlyAtDebounce := by
  refine ⟨rfl, rfl, fun b c c' level hr => ?_⟩
  rcases debRecord_some_cases hr with ⟨hne, hp, rfl⟩ | ⟨-, hp, -, rfl⟩ | ⟨heq, -, rfl⟩
  · exact ⟨⟨fun _ => ⟨hne, hp⟩, fun _ => hne⟩, fun _ => ⟨rfl, rfl, rfl, rfl, rfl⟩⟩
  · have hno : ¬ max b.deb 1 ≤ c.pend.toNat + 1 := by omega
    simp [hno]
  · simp [heq]

/-- Settles O59. -/
theorem cycleCounterOverflowsExactly : Obligations.CycleCounterOverflowsExactly := by
  intro b c level
  rcases debRecord_cases b c level with ⟨hne, hp, h⟩ | ⟨hno, ⟨hfull, h⟩ | ⟨hroom, ⟨-, -, h⟩ | ⟨-, h⟩⟩⟩
  · exact iff_of_false (by simp [h]) fun ⟨_, hno⟩ => hno ⟨hne, hp⟩
  · exact iff_of_true h ⟨hfull, hno⟩
  · exact iff_of_false (by simp [h]) fun ⟨hfull, _⟩ => hroom hfull
  · exact iff_of_false (by simp [h]) fun ⟨hfull, _⟩ => hroom hfull

/-! ### The history after one record -/

section
variable {c : Cell} {level : Bool}

theorem CellHistory.next_flip (h : CellHistory) (hraw : rawState level ≠ c.conf) :
    h.next c (flipCell (rawState level)) level = { disturbed := true, agreeing := 0, sinceFlip := 0 } := by
  simp [CellHistory.next, hraw, flipCell]

theorem CellHistory.next_evidence (h : CellHistory) (hraw : rawState level ≠ c.conf) (cyc : Cycles) :
    h.next c (evidenceCell c cyc) level = { disturbed := true, agreeing := 0, sinceFlip := h.sinceFlip + 1 } := by
  simp [CellHistory.next, hraw]

theorem CellHistory.next_agree (h : CellHistory) (b : Config) (hraw : rawState level = c.conf) (cyc : Cycles) :
    h.next c (agreeCell b c cyc) level = { h with agreeing := h.agreeing + 1, sinceFlip := h.sinceFlip + 1 } := by
  simp [CellHistory.next, hraw]

end

/-! ### Runs of records -/

theorem debFeed_cons {b : Config} {c c' : Cell} {level : Bool} (hr : debRecord b c level = some c') (h : CellHistory)
    (rest : List Bool) : debFeed b c h (level :: rest) = debFeed b c' (h.next c c' level) rest := by
  simp [debFeed, hr]

/-- A list of records that raises nothing begins with a record that raises nothing. -/
theorem debFeed_cons_eq_some {b : Config} {c : Cell} {h : CellHistory} {level : Bool} {rest : List Bool}
    {p : Cell × CellHistory} (hfeed : debFeed b c h (level :: rest) = some p) :
    ∃ c₁, debRecord b c level = some c₁ ∧ debFeed b c₁ (h.next c c₁ level) rest = some p := by
  cases hr : debRecord b c level with
  | none => simp [debFeed, hr] at hfeed
  | some c₁ => exact ⟨c₁, rfl, debFeed_cons hr h rest ▸ hfeed⟩

theorem debFeed_append {b : Config} {c c' : Cell} {h h' : CellHistory} {levels : List Bool}
    (hfeed : debFeed b c h levels = some (c', h')) (rest : List Bool) :
    debFeed b c h (levels ++ rest) = debFeed b c' h' rest := by
  induction levels generalizing c h with
  | nil =>
    obtain ⟨rfl, rfl⟩ := Prod.mk.inj (Option.some.inj hfeed)
    rfl
  | cons level levels ih =>
    obtain ⟨c₁, hr, hfeed⟩ := debFeed_cons_eq_some hfeed
    rw [List.cons_append, debFeed_cons hr, ih hfeed]

/-- Disagreeing records that stay short of `max(DEB, 1)` are evidence, one each, and cycles, one each (rules R118, R121). -/
theorem debFeed_evidence {b : Config} {level : Bool} (hdeb : b.deb ≤ cyclesMax) (n : Nat) (c : Cell) (h : CellHistory)
    (hraw : rawState level ≠ c.conf) (hp : c.pend.toNat + n < max b.deb 1) (hc : c.cyc.toNat + n ≤ cyclesMax) :
    ∃ c' h', debFeed b c h (List.replicate n level) = some (c', h') ∧
      c'.conf = c.conf ∧ c'.pend.toNat = c.pend.toNat + n ∧ c'.cyc.toNat = c.cyc.toNat + n := by
  induction n generalizing c h with
  | zero => exact ⟨c, h, rfl, rfl, rfl, rfl⟩
  | succ n ih =>
    have hroom : c.cyc.toNat ≠ cyclesMax := by omega
    have hshort : c.pend.toNat + 1 < max b.deb 1 := by omega
    have hpend := evidenceCell_pend_toNat (cycleAfter c) hdeb hshort
    have hcyc := cycleAfter_toNat c hroom
    rw [List.replicate_succ, debFeed_cons (debRecord_evidence hraw hshort hroom)]
    obtain ⟨c', h', hfeed, hconf', hpend', hcyc'⟩ := ih (evidenceCell c (cycleAfter c)) _ hraw
      (by omega) (by rw [evidenceCell_cyc]; omega)
    rw [evidenceCell_cyc] at hcyc'
    exact ⟨c', h', hfeed, hconf', by omega, by omega⟩

/-- Agreeing records leave the confirmed state and count cycles, as the history does (rules R118, R121). -/
theorem debFeed_agree {b : Config} {level : Bool} (n : Nat) (c : Cell) (h : CellHistory)
    (hraw : rawState level = c.conf) (hc : c.cyc.toNat + n ≤ cyclesMax) :
    ∃ c' h', debFeed b c h (List.replicate n level) = some (c', h') ∧
      c'.conf = c.conf ∧ c'.cyc.toNat = c.cyc.toNat + n ∧ h'.sinceFlip = h.sinceFlip + n := by
  induction n generalizing c h with
  | zero => exact ⟨c, h, rfl, rfl, rfl, rfl⟩
  | succ n ih =>
    have hroom : c.cyc.toNat ≠ cyclesMax := by omega
    have hcyc := cycleAfter_toNat c hroom
    rw [List.replicate_succ, debFeed_cons (debRecord_agree hraw hroom), CellHistory.next_agree h b hraw]
    obtain ⟨c', h', hfeed, hconf', hcyc', hsince'⟩ := ih (agreeCell b c (cycleAfter c))
      { h with agreeing := h.agreeing + 1, sinceFlip := h.sinceFlip + 1 } hraw (by rw [agreeCell_cyc]; omega)
    rw [agreeCell_cyc] at hcyc'
    dsimp only at hsince'
    exact ⟨c', h', hfeed, hconf', by omega, by omega⟩

/-- Settles O56: `max(DEB, 1) - 1` records of evidence, the record that flips, and `n` agreeing records. -/
theorem stableLevelFlipsOnce : Obligations.StableLevelFlipsOnce := by
  intro b c h level n hdeb hpend hraw hroom hn
  have hmax : cyclesMax = 2 ^ 32 - 1 := rfl
  refine ⟨fun hlt => ?_, ?_⟩
  · obtain ⟨c', h', hfeed, hconf', hpend', -⟩ := debFeed_evidence hdeb n c h hraw (by omega) (by omega)
    exact ⟨c', h', hfeed, hconf', by omega⟩
  · obtain ⟨c₁, h₁, hfeed₁, hconf₁, hpend₁, -⟩ :=
      debFeed_evidence hdeb (max b.deb 1 - 1) c h hraw (by omega) (by omega)
    have hraw₁ : rawState level ≠ c₁.conf := hconf₁ ▸ hraw
    have hflip : debRecord b c₁ level = some (flipCell (rawState level)) := debRecord_flip hraw₁ (by omega)
    have hcyc : (flipCell (rawState level)).cyc.toNat = 0 := rfl
    obtain ⟨c', h', hfeed, hconf', hcyc', hsince'⟩ := debFeed_agree (b := b) n (flipCell (rawState level))
      { disturbed := true, agreeing := 0, sinceFlip := 0 } rfl (by omega)
    dsimp only at hsince'
    have hsplit : List.replicate (max b.deb 1 + n) level =
        List.replicate (max b.deb 1 - 1) level ++ level :: List.replicate n level := by
      rw [← List.replicate_succ, List.replicate_append_replicate]
      congr 1
      omega
    refine ⟨c', h', ?_, hconf', by omega, by omega⟩
    rw [hsplit, debFeed_append hfeed₁, debFeed_cons hflip, CellHistory.next_flip h₁ hraw₁, hfeed]

/-- There are two confirmed states: a level that disagrees is followed by its opposite, which agrees (rule R116). -/
theorem rawState_not_of_ne {level : Bool} {k : KeyState} (h : rawState level ≠ k) : rawState (!level) = k := by
  cases level <;> cases k <;> simp_all [rawState]

/-- Settles O57: the disagreeing records are evidence, and the agreeing one drops it. -/
theorem shortBounceIsForgotten : Obligations.ShortBounceIsForgotten := by
  intro b c h level n hdeb hpend hraw hn hroom
  have hmax : cyclesMax = 2 ^ 32 - 1 := rfl
  obtain ⟨c₁, h₁, hfeed₁, hconf₁, -, hcyc₁⟩ := debFeed_evidence hdeb n c h hraw (by omega) (by omega)
  have hroom₁ : c₁.cyc.toNat ≠ cyclesMax := by omega
  have hagree : rawState (!level) = c₁.conf := rawState_not_of_ne (hconf₁ ▸ hraw)
  refine ⟨agreeCell b c₁ (cycleAfter c₁), h₁.next c₁ (agreeCell b c₁ (cycleAfter c₁)) (!level), ?_, hconf₁, rfl, ?_⟩
  · rw [debFeed_append hfeed₁, debFeed_cons (debRecord_agree hagree hroom₁), debFeed]
  · rw [agreeCell_cyc, cycleAfter_toNat c₁ hroom₁, hcyc₁]

/-! ### The history of a cell -/

/-- What a cell shows of its history: while `Off` the idle timer has counted the agreeing records up to `IDLE`, and rule
R123 (c) and (d) hold. -/
structure FollowsHistory (b : Config) (c : Cell) (h : CellHistory) : Prop where
  timer  : c.conf = .off → c.icnt.toNat = min h.agreeing b.idle
  idle   : c.idle = true ↔ c.conf = .off ∧ (h.disturbed = false ∨ max b.idle 1 ≤ h.agreeing)
  cycles : c.cyc.toNat = h.sinceFlip

theorem followsHistory_debReset (b : Config) :
    FollowsHistory b debReset { disturbed := false, agreeing := 0, sinceFlip := 0 } where
  timer := by simp [debReset]
  idle := by simp [debReset]
  cycles := rfl

section
variable {b : Config} {c : Cell} {h : CellHistory} {level : Bool}

theorem FollowsHistory.flip (b : Config) (raw : KeyState) :
    FollowsHistory b (flipCell raw) { disturbed := true, agreeing := 0, sinceFlip := 0 } where
  timer _ := by simp [flipCell]
  idle := by simp [flipCell]
  cycles := rfl

theorem FollowsHistory.evidence (hf : FollowsHistory b c h) (hc : c.cyc.toNat ≠ cyclesMax) :
    FollowsHistory b (evidenceCell c (cycleAfter c))
      { disturbed := true, agreeing := 0, sinceFlip := h.sinceFlip + 1 } where
  timer hoff := by
    rw [evidenceCell_conf] at hoff
    simp [evidenceCell, hoff]
  idle := by
    cases hk : c.conf with
    | off => simp [evidenceCell, hk]
    | on => simp [evidenceCell, hk, hf.idle]
  cycles := by rw [evidenceCell_cyc, cycleAfter_toNat c hc, hf.cycles]

/-- An agreeing record while `Off` sets the idle flag where it brings the timer to `IDLE`; short of that the flag stands
only in a cell that nothing has disturbed (rule R120). -/
theorem FollowsHistory.agreeCell_idle_off (hf : FollowsHistory b c h) (hoff : c.conf = .off) (cyc : Cycles) :
    (agreeCell b c cyc).idle = true ↔ h.disturbed = false ∨ max b.idle 1 ≤ h.agreeing + 1 := by
  have htimer := hf.timer hoff
  by_cases hreach : idleTimer b c = b.idle
  · have hlong : max b.idle 1 ≤ h.agreeing + 1 := by
      rw [idleTimer] at hreach
      omega
    simp [agreeCell, hoff, hreach, hlong]
  · have hshort : h.agreeing + 1 < b.idle := by
      rw [idleTimer] at hreach
      omega
    have hnow : ¬ max b.idle 1 ≤ h.agreeing + 1 := by omega
    have hbefore : ¬ max b.idle 1 ≤ h.agreeing := by omega
    simp [agreeCell, hoff, hreach, hf.idle, hnow, hbefore]

theorem FollowsHistory.agree (hf : FollowsHistory b c h) (hidle : b.idle ≤ cyclesMax) (hc : c.cyc.toNat ≠ cyclesMax) :
    FollowsHistory b (agreeCell b c (cycleAfter c))
      { h with agreeing := h.agreeing + 1, sinceFlip := h.sinceFlip + 1 } where
  timer hoff := by
    rw [agreeCell_conf] at hoff
    have htimer := hf.timer hoff
    rw [agreeCell_icnt_toNat _ hidle hoff]
    change _ = min (h.agreeing + 1) b.idle
    omega
  idle := by
    cases hk : c.conf with
    | off => simp [hf.agreeCell_idle_off hk, hk]
    | on => simp [agreeCell, hk, hf.idle]
  cycles := by rw [agreeCell_cyc, cycleAfter_toNat c hc, hf.cycles]

/-- Every record that raises nothing keeps a cell in step with its history. -/
theorem FollowsHistory.record (hf : FollowsHistory b c h) (hidle : b.idle ≤ cyclesMax) {c' : Cell}
    (hr : debRecord b c level = some c') : FollowsHistory b c' (h.next c c' level) := by
  rcases debRecord_some_cases hr with ⟨hne, -, rfl⟩ | ⟨hne, -, hc, rfl⟩ | ⟨heq, hc, rfl⟩
  · rw [CellHistory.next_flip h hne]
    exact .flip b _
  · rw [CellHistory.next_evidence h hne]
    exact hf.evidence hc
  · rw [CellHistory.next_agree h b heq]
    exact hf.agree hidle hc

theorem FollowsHistory.feed (hf : FollowsHistory b c h) (hidle : b.idle ≤ cyclesMax) {levels : List Bool} {c' : Cell}
    {h' : CellHistory} (hfeed : debFeed b c h levels = some (c', h')) : FollowsHistory b c' h' := by
  induction levels generalizing c h with
  | nil =>
    obtain ⟨rfl, rfl⟩ := Prod.mk.inj (Option.some.inj hfeed)
    exact hf
  | cons level rest ih =>
    obtain ⟨c₁, hr, hfeed⟩ := debFeed_cons_eq_some hfeed
    exact ih (hf.record hidle hr) hfeed

end

/-- Settles O58: `DEB_RESET` is in step with the empty history, and every record keeps a cell so. -/
theorem idleAndCyclesFollowHistory : Obligations.IdleAndCyclesFollowHistory := by
  intro b levels c h _ hidle hfeed
  have hf := (followsHistory_debReset b).feed hidle hfeed
  exact ⟨hf.idle, hf.cycles⟩

end Sys2Proof.Machine

/-! PROOFS. The exceptions (60_exceptions.md rules R127, R131, R132): the two checks before a command's steps, first that
its engine is constructed and then that its index is in bounds. -/

namespace Sys2Proof.Machine

/-! ### An engine that is not constructed -/

theorem withHall_of_unconstructed {s : State} (hl : s.snsLive = false) (run : State) :
    withHall s run = raise (.unconstructed .hall) s := by
  simp [withHall, hl]

theorem withMatrix_of_unconstructed {s : State} (hl : s.mtxLive = false) (run : State) :
    withMatrix s run = raise (.unconstructed .matrix) s := by
  simp [withMatrix, hl]

/-- Every Hall command but `SNS_INIT` is guarded by `withHall`, so its steps do not run (rule R132). -/
theorem exec_hall_of_unconstructed {i : Instr} {s : State} (hi : isHall i = true) (hinit : ∀ n, i ≠ .snsInit n)
    (hl : s.snsLive = false) : exec i s = .next (raise (.unconstructed .hall) s) := by
  cases i with
  | snsInit n => exact absurd rfl (hinit n)
  | snsAdd | snsGet => exact congrArg _ (withHall_of_unconstructed hl _)
  | mtxInit | mtxClear | mtxNext | mtxSense | mtxStrobe => cases hi

/-- Every Matrix command but `MTX_INIT` is guarded by `withMatrix`, so its steps do not run (rule R132). -/
theorem exec_matrix_of_unconstructed {i : Instr} {s : State} (hi : isHall i = false) (hinit : i ≠ .mtxInit)
    (hl : s.mtxLive = false) : exec i s = .next (raise (.unconstructed .matrix) s) := by
  cases i with
  | snsInit | snsAdd | snsGet => cases hi
  | mtxInit => exact absurd rfl hinit
  | mtxClear | mtxNext | mtxSense | mtxStrobe => exact congrArg _ (withMatrix_of_unconstructed hl _)

/-- Settles O21: the whole next state is the state before with the fault raised. -/
theorem unconstructedEngineFaults : Obligations.UnconstructedEngineFaults := by
  intro i s hsns hmtx
  constructor
  · intro hi hl
    exact ⟨_, exec_hall_of_unconstructed hi hsns hl, raise_fault _ s, raise_responses _ s, raise_pinTrace _ s⟩
  · intro hi hl
    exact ⟨_, exec_matrix_of_unconstructed hi hmtx hl, raise_fault _ s, raise_responses _ s, raise_pinTrace _ s⟩

/-! ### An index out of bounds -/

theorem exec_snsAdd_of_outOfBounds {i : Index} {s : State} (r : Raw) (hl : s.snsLive = true)
    (hi : s.snsCap ≤ i.toNat) : exec (.snsAdd i r) s = .next (respond .errInvalidSensor s) := by
  rcases execSnsAdd_cases i r s with ⟨hdead, -⟩ | ⟨-, -, h⟩ | ⟨-, hin, -⟩
  · simp [hl] at hdead
  · exact h
  · omega

theorem exec_snsGet_of_outOfBounds {i : Index} {s : State} (hl : s.snsLive = true) (hi : s.snsCap ≤ i.toNat) :
    exec (.snsGet i) s = .next (respond .errInvalidSensor s) := by
  rcases execSnsGet_cases i s with ⟨hdead, -⟩ | ⟨-, -, h⟩ | ⟨-, hin, -⟩
  · simp [hl] at hdead
  · exact h
  · omega

/-- Settles O22: each command is in the second case of what it can do, which answers and does nothing else. -/
theorem outOfBoundsSensorRefused : Obligations.OutOfBoundsSensorRefused := by
  intro i r s hl hi
  exact ⟨exec_snsAdd_of_outOfBounds r hl hi, exec_snsGet_of_outOfBounds hl hi, rfl⟩

end Sys2Proof.Machine

/-! PROOFS. Reset and hazards (70_reset_and_hazards.md rules R143, R145): the power-on state, and the two constructions in
either order. -/

namespace Sys2Proof.Machine

/-- Settles O17: the shadows are lists of `Unknown`, one for each pin. -/
theorem powerOnState : Obligations.PowerOnState := fun _ =>
  ⟨rfl, rfl, rfl, rfl, List.length_replicate, fun _ => List.eq_of_mem_replicate,
    List.length_replicate, fun _ => List.eq_of_mem_replicate⟩

/-! ### A command to one engine in two states that show that engine alike -/

theorem SameHall.trans {s t u : State} (h : SameHall s t) (h' : SameHall t u) : SameHall s u := by
  obtain ⟨hbuild, hlive, hcap, hrecs⟩ := h
  obtain ⟨hbuild', hlive', hcap', hrecs'⟩ := h'
  exact ⟨hbuild.trans hbuild', hlive.trans hlive', hcap.trans hcap', hrecs.trans hrecs'⟩

theorem SameMatrix.trans {s t u : State} (h : SameMatrix s t) (h' : SameMatrix t u) : SameMatrix s u := by
  obtain ⟨hbuild, hlive, hcur, hcells, hdrive, hmode, hdraws, hfree⟩ := h
  obtain ⟨hbuild', hlive', hcur', hcells', hdrive', hmode', hdraws', hfree'⟩ := h'
  exact ⟨hbuild.trans hbuild', hlive.trans hlive', hcur.trans hcur', hcells.trans hcells', hdrive.trans hdrive',
    hmode.trans hmode', hdraws.trans hdraws', hfree.trans hfree'⟩

/-- What a Hall command leaves of its engine, in a faulted state too (rule R49). -/
theorem exec_hall_congr {c : Instr} (hc : isHall c = true) {s s' t t' : State} (hf : s.fault = s'.fault)
    (same : SameHall s s') (h : exec c s = .next t) (h' : exec c s' = .next t') : SameHall t t' := by
  obtain ⟨u, hu⟩ := exec_next c (hallAlone s)
  rw [exec_hall_eq hc h hu, exec_hall_eq hc h' (hallAlone_congr hf same ▸ hu)]
  exact ⟨rfl, rfl, rfl, rfl⟩

/-- What a Matrix command leaves of its engine and of the pin trace, in a faulted state too (rule R49). -/
theorem exec_matrix_congr {c : Instr} (hc : isHall c = false) {s s' t t' : State} (hf : s.fault = s'.fault)
    (same : SameMatrix s s') (htrace : s.pinTrace = s'.pinTrace) (h : exec c s = .next t)
    (h' : exec c s' = .next t') : SameMatrix t t' ∧ t.pinTrace = t'.pinTrace := by
  obtain ⟨u, hu⟩ := exec_next c (matrixAlone s)
  rw [exec_matrix_eq hc h hu, exec_matrix_eq hc h' (matrixAlone_congr hf same ▸ hu)]
  exact ⟨⟨rfl, rfl, rfl, rfl, rfl, rfl, rfl, rfl⟩, congrArg (· ++ u.pinTrace) htrace⟩

/-! ### Two commands in either order -/

/-- A Hall and a Matrix command, neither of which raises a fault when it comes first, may come in either order: each finds
its engine as the other found the state. -/
theorem exec_hall_matrix_comm {c d : Instr} (hc : isHall c = true) (hd : isHall d = false) {s t t' u u' : State}
    (hcs : exec c s = .next t) (hdt : exec d t = .next u) (hds : exec d s = .next t') (hct' : exec c t' = .next u')
    (hft : t.fault = s.fault) (hft' : t'.fault = s.fault) :
    SameHall u u' ∧ SameMatrix u u' ∧ u.pinTrace = u'.pinTrace := by
  have hallSame : SameHall t u' := exec_hall_congr hc hft'.symm (exec_matrix_sameHall hd hds) hcs hct'
  obtain ⟨matrixSame, htrace⟩ :=
    exec_matrix_congr hd hft (exec_hall_sameMatrix hc hcs).symm (exec_hall_pinTrace hc hcs) hdt hds
  exact ⟨(exec_matrix_sameHall hd hdt).symm.trans hallSame, matrixSame.trans (exec_hall_sameMatrix hc hct'),
    htrace.trans (exec_hall_pinTrace hc hct').symm⟩

theorem exec_snsInit_fault {n : BitVec 16} {s t : State} (h : exec (.snsInit n) s = .next t) : t.fault = s.fault := by
  rcases execSnsInit_cases n s with ⟨-, ht⟩ | ⟨-, ht⟩ <;> obtain rfl := next_inj (ht.symm.trans h)
  · exact respond_fault _ _
  · exact respond_fault _ _

theorem exec_mtxInit_fault {s t : State} (h : exec .mtxInit s = .next t) : t.fault = s.fault := by
  rcases execMtxInit_cases s with ⟨-, ht⟩ | ⟨c, e, -, -, ht⟩ <;> obtain rfl := next_inj (ht.symm.trans h)
  · exact respond_fault _ (initDone s)
  · simp only [respond_fault, afterFail_fault]

/-- Settles O19: the constructions are commands to different engines, and neither raises a fault. -/
theorem constructionOrderDoesNotMatter : Obligations.ConstructionOrderDoesNotMatter := by
  intro n s t t' u u' hsns hmtx hmtx' hsns'
  exact exec_hall_matrix_comm rfl rfl hsns hmtx hmtx' hsns' (exec_snsInit_fault hsns) (exec_mtxInit_fault hmtx')

end Sys2Proof.Machine
